-- ==== Sys2Proof/Word.lean ====
section
/-! DEFINITION. The two word types of the block: a byte of the ring or of a unit, and a 64-bit operand, result or status register word (R13, R42, R69, R72). -/

namespace Sys2Proof

/-- One byte: of the ring storage, of a payload, or of a request or response unit (R13). -/
abbrev Byte := BitVec 8

/-- One 64-bit unsigned word: an operand word (R72), a result word (R73) or a status register (R42). -/
abbrev Word := BitVec 64

end Sys2Proof
end

