-- ==== Sys2Proof/Config.lean ====
section
/-! DEFINITION. What is fixed for one block: the decided constants `H`, `W`, `A`, the OPEN parameters of R5, the interface ports of R10, the steps a schedule can name (R35), and the free values (what the spec leaves to any value). -/

namespace Sys2Proof
namespace Config

/-- `H`: bytes of the frame length header (R7). -/
def hdrBytes : Nat := 8

/-- `W`: bytes of each application header field (R8). -/
def fieldBytes : Nat := 8

/-- `A = 3 * W`: bytes of the application header (R5, R8). -/
def appBytes : Nat := 3 * fieldBytes

/-- The OPEN parameters of R5. They are arguments of the model: `State.params` holds them, no step writes them, and a
statement about every state is a statement about every build. `TIMEOUT`, OPEN too, is not a quantity of the model (R11)
and has no field. -/
structure Params where
  /-- `C_MAX`, the bytes of physical ring storage. -/
  cMax : Nat
  /-- `PORT_MIN`, the least valid port value (R9). -/
  portMin : Nat
  /-- `PORT_MAX`, the greatest valid port value (R9). -/
  portMax : Nat
  /-- `NW`, the number of producer ports (R10). -/
  nW : Nat
  /-- `NR`, the number of consumer ports (R10). -/
  nR : Nat
  /-- `MESSAGE_SIZE`, the collaborators' frame payload capacity with the 24-byte header. No rule of the block reads it
  (R12). -/
  messageSize : Nat
deriving DecidableEq, Repr

/-- The ranges R5 gives the parameters. It gives `MESSAGE_SIZE` none. -/
def Params.valid (p : Params) : Bool :=
  decide (hdrBytes + 1 ≤ p.cMax) && decide (p.portMin ≤ p.portMax) &&
    decide (p.portMax ≤ 2 ^ (8 * fieldBytes) - 1) && decide (1 ≤ p.nW) && decide (1 ≤ p.nR)

/-- The build `State.reset` starts: the parameters 95_test_vectors.md uses for its vectors, and a `MESSAGE_SIZE`, which
it does not give. DESIGN CHOICE, log entry 1: the spec leaves every one of them OPEN (R5), `PORT_MIN` with default 0. -/
def build : Params := { cMax := 256, portMin := 0, portMax := 100, nW := 2, nR := 2, messageSize := 64 }

end Config

/-- An interface port (R10, R123): its class and its index. Which indices exist is `NW`'s and `NR`'s to say. -/
inductive Port where
  /-- the control port `K` -/
  | k
  /-- the producer port `P[i]` -/
  | p (i : Nat)
  /-- the consumer port `Q[j]` -/
  | q (j : Nat)
deriving DecidableEq, Repr, Inhabited

/-- One step of one agent (R35), as the schedule names it, and the reset of R127. -/
inductive Event where
  /-- `ISSUE(p, r)` with the request unit's bytes as port `p` delivers them (R36, R69) -/
  | issue (p : Port) (unit : List Byte)
  /-- `TAKE(p)` (R37) -/
  | take (p : Port)
  /-- `SERVE_W(P[i])` (R88) -/
  | serveW (i : Nat)
  /-- `TIMEOUT_W(P[i])` (R89) -/
  | timeoutW (i : Nat)
  /-- `SERVE_R(Q[j])` (R97, R98) -/
  | serveR (j : Nat)
  /-- `TIMEOUT_R(Q[j])` (R99) -/
  | timeoutR (j : Nat)
  /-- `SYNC_R` (R38) -/
  | syncR
  /-- `SYNC_W` (R38) -/
  | syncW
  /-- reset (R127) -/
  | reset
deriving DecidableEq, Repr, Inhabited

namespace Config

/-- FREE VALUE (log entry 2): the step the schedule takes at the `n`-th draw, once `State.sched` names none. Which
enabled step comes next is any value (R90, R100, R115; V4 of 93_implementation_defined.md). -/
opaque freeEvent : Nat → Event

/-- FREE VALUE (log entry 4): the unspecified byte of `Ring` at an offset after the reset numbered by the first
argument (R43; V1 of 93_implementation_defined.md). -/
opaque freeRing : Nat → Nat → Byte

/-- FREE VALUE (log entry 5): the `OPE` field of the answer to a unit of no bytes, which has no `OP` bits to echo. -/
opaque freeOpe : Nat → BitVec 4

/-- FREE VALUE (log entry 6): what a 64-bit register or response field holds for a number that does not fit it. -/
opaque freeWord : Nat → Word

end Config
end Sys2Proof
end

