-- ==== Sys2Proof/Syntax.lean ====
section
/-! DEFINITION. The requests of the block: one constructor per row of spec/opcode_table.json (R71). -/

namespace Sys2Proof

/-- A decoded request. `RSV0`, `RSV1` (and `REG`, but for `STATUS`) are 0 in every decoded request (R76), so only the
operands stand here. The data of `WRITE` and `WRITE_PKT` carry their own number: `LEN` is the length of `data`, `MLEN`
the length of `msg` (R25: `|DATA| = LEN`, `|MSG| = MLEN`). -/
inductive Instr where
  /-- `INIT CAP` (R80) -/
  | init (cap : Word)
  /-- `WRITE LEN, DATA` (R85) -/
  | write (data : List Byte)
  /-- `READ CAP` (R95) -/
  | read (cap : Word)
  /-- `DESTROY` (R83) -/
  | destroy
  /-- `WRITE_PKT SRC, DST, SEQ, MLEN, MSG` (R86) -/
  | writePkt (src dst seq : Word) (msg : List Byte)
  /-- `STATUS REG` (R84) -/
  | status (reg : Byte)
deriving DecidableEq, Repr, Inhabited

end Sys2Proof
end

