-- ==== Sys2Proof/WellFormed.lean ====
section
/-! DEFINITION. Which requests a unit can carry: `LEN` and `MLEN` are 64-bit words (R72), so the data have fewer than 2^64 bytes. -/

namespace Sys2Proof

/-- The number of data bytes fits the 64-bit `LEN` or `MLEN` operand word (R71, R72). -/
def fitsLengthWord (data : List Byte) : Bool := decide (data.length < 2 ^ 64)

/-- The well-formed requests: those some request unit encodes (R69, R71). -/
def Instr.wellFormed : Instr → Bool
  | .init _ => true
  | .write data => fitsLengthWord data
  | .read _ => true
  | .destroy => true
  | .writePkt _ _ _ msg => fitsLengthWord msg
  | .status _ => true

end Sys2Proof
end

