-- ==== Sys2Proof/Decode.lean ====
section
/-! DEFINITION. Bytes and request units: the little-endian coding of R14, the total decoder of request units with a name for every rejection (R70 to R78), the encoder written from the same tables, and the host's `decodeTableWord`. -/

namespace Sys2Proof

/-- `le_encode_n(v)`: `n` bytes, least significant first (R14). -/
def leEncode : Nat → Nat → List Byte
  | 0, _ => []
  | n + 1, v => BitVec.ofNat 8 v :: leEncode n (v / 256)

/-- `le_decode(s)`: the number whose base-256 digits are the bytes of `s`, least significant first (R14). -/
def leDecode : List Byte → Nat
  | [] => 0
  | b :: bs => b.toNat + 256 * leDecode bs

/-! Opcodes (R71). -/

def opInit : BitVec 4 := 0x1#4
def opWrite : BitVec 4 := 0x2#4
def opRead : BitVec 4 := 0x3#4
def opDestroy : BitVec 4 := 0x4#4
def opWritePkt : BitVec 4 := 0x5#4
def opStatus : BitVec 4 := 0x6#4

/-- The `OP` field of a request (R71). -/
def Instr.opcode : Instr → BitVec 4
  | .init _ => opInit
  | .write _ => opWrite
  | .read _ => opRead
  | .destroy => opDestroy
  | .writePkt _ _ _ _ => opWritePkt
  | .status _ => opStatus

/-- The `REG` field of a request: the register index of `STATUS`, 0 for every other opcode (R70). -/
def Instr.regField : Instr → Byte
  | .status reg => reg
  | _ => 0

/-- The length in bytes of a request's unit (R71). -/
def Instr.unitLength : Instr → Nat
  | .init _ => 12
  | .write data => 12 + data.length
  | .read _ => 12
  | .destroy => 4
  | .writePkt _ _ _ msg => 36 + msg.length
  | .status _ => 4

/-- Why a unit is no request: the conditions of R76 that do not depend on the port, by name. -/
inductive DecodeError where
  /-- fewer than 4 bytes: the unit holds no command word, so its length is none of R71's (condition 5) -/
  | noCommandWord
  /-- `OP` is 0x0 or in 0x7 .. 0xF (condition 1) -/
  | reservedOp
  /-- `RSV0 ≠ 0` or `RSV1 ≠ 0` (condition 2) -/
  | reservedBits
  /-- `REG ≠ 0` and `OP` is not `STATUS` (condition 3) -/
  | regNotZero
  /-- the unit's length is not the one R71 gives (condition 5) -/
  | badLength
deriving DecidableEq, Repr

/-! Fields of the 32-bit command word (R70). -/

def cmdOp (cmd : BitVec 32) : BitVec 4 := cmd.extractLsb' 0 4
def cmdRsv0 (cmd : BitVec 32) : BitVec 4 := cmd.extractLsb' 4 4
def cmdReg (cmd : BitVec 32) : Byte := cmd.extractLsb' 8 8
def cmdRsv1 (cmd : BitVec 32) : BitVec 16 := cmd.extractLsb' 16 16

/-- The command word of a unit: its first 4 bytes, little-endian (R69). -/
def commandWordOf (unit : List Byte) : BitVec 32 := BitVec.ofNat 32 (leDecode (unit.take 4))

/-- Operand word `k` of the bytes after the command word: 8 bytes, little-endian, unsigned (R69, R72). -/
def operandWord (k : Nat) (body : List Byte) : Word :=
  BitVec.ofNat 64 (leDecode ((body.drop (8 * k)).take 8))

/-- Accept a request when the unit has the length R71 gives it, else reject it by name (condition 5 of R76). -/
def withLength (ok : Bool) (i : Instr) : Except DecodeError Instr :=
  if ok then .ok i else .error .badLength

/-- The operands of a unit whose `OP` is `op`, from the bytes after its command word (R71, R72). -/
def decodeOperands (op : BitVec 4) (reg : Byte) (body : List Byte) : Except DecodeError Instr :=
  if op = opInit then withLength (body.length == 8) (.init (operandWord 0 body))
  else if op = opWrite then
    withLength (decide (8 ≤ body.length) && body.length == 8 + (operandWord 0 body).toNat) (.write (body.drop 8))
  else if op = opRead then withLength (body.length == 8) (.read (operandWord 0 body))
  else if op = opDestroy then withLength (body.length == 0) .destroy
  else if op = opWritePkt then
    withLength (decide (32 ≤ body.length) && body.length == 32 + (operandWord 3 body).toNat)
      (.writePkt (operandWord 0 body) (operandWord 1 body) (operandWord 2 body) (body.drop 32))
  else if op = opStatus then withLength (body.length == 0) (.status reg)
  else .error .reservedOp

/-- The decoder of request units: total, every unit decoded or rejected by name (R76, conditions 1, 2, 3 and 5). -/
def decode (unit : List Byte) : Except DecodeError Instr :=
  if unit.length < 4 then .error .noCommandWord
  else
    let cmd := commandWordOf unit
    if cmdOp cmd = 0 ∨ opStatus < cmdOp cmd then .error .reservedOp
    else if cmdRsv0 cmd ≠ 0 ∨ cmdRsv1 cmd ≠ 0 then .error .reservedBits
    else if cmdReg cmd ≠ 0 ∧ cmdOp cmd ≠ opStatus then .error .regNotZero
    else decodeOperands (cmdOp cmd) (cmdReg cmd) (unit.drop 4)

/-! The encoder, from the same tables. -/

/-- The command word of a request: `OP` in bits 3:0, `REG` in bits 15:8, the reserved bits 0 (R70). -/
def Instr.commandWord (i : Instr) : Nat := i.opcode.toNat + 256 * i.regField.toNat

/-- The operand words of a request, in the order of R71. -/
def Instr.operandWords : Instr → List Nat
  | .init cap => [cap.toNat]
  | .write data => [data.length]
  | .read cap => [cap.toNat]
  | .destroy => []
  | .writePkt src dst seq msg => [src.toNat, dst.toNat, seq.toNat, msg.length]
  | .status _ => []

/-- The data bytes of a request, after its operand words (R69, R71). -/
def Instr.dataBytes : Instr → List Byte
  | .write data => data
  | .writePkt _ _ _ msg => msg
  | _ => []

/-- The request unit: command word as 4 bytes, operand words as 8 bytes each, then the data (R69). -/
def encode (i : Instr) : List Byte :=
  leEncode 4 i.commandWord ++ (i.operandWords.map (leEncode 8)).flatten ++ i.dataBytes

/-! The host's numbering of a unit's bits: bit 0 is the least significant bit of the first byte. -/

/-- The unit length R71 gives an opcode whose operand words are all 0 (a reserved opcode: the command word alone). -/
def zeroOperandLength (op : Nat) : Nat :=
  if op = 1 ∨ op = 2 ∨ op = 3 then 12 else if op = 5 then 36 else 4

/-- The bytes of a unit whose first `nbits` bits are `w`'s and whose remaining bits are 0. -/
def tableUnit (nbits w : Nat) : List Byte :=
  leEncode (max ((nbits + 7) / 8) (zeroOperandLength (w % 16))) (w % 2 ^ nbits)

/-- The request the decoder reads from the unit whose bits are `w` (see `tableUnit`). -/
def decodeTableWord (nbits w : Nat) : Option Instr :=
  (decode (tableUnit nbits w)).toOption

end Sys2Proof
end

