-- ==== Sys2Proof/Machine/State.lean ====
section
/-! DEFINITION. The state of the block (R19 to R26) as plain data, its reset value (R43), and the reasons a step can stop. -/

namespace Sys2Proof
namespace Machine

/-- `mode` (R19): `UNINIT` is encoded 0, `READY` 1. -/
inductive Mode where
  | uninit
  | ready
deriving DecidableEq, Repr

/-- The status codes of a response (R74). Codes 0x07 to 0xFF are never produced, so they have no constructor. -/
inductive Status where
  | ok
  | full
  | empty
  | undersized
  | badCmd
  | badArg
  | badState
deriving DecidableEq, Repr

/-- The parse flags `PSTAT` of a response (R75). -/
structure PStat where
  short : Bool := false
  srcOor : Bool := false
  dstOor : Bool := false
deriving DecidableEq, Repr

/-- A response record (R25). A field that the status and opcode do not carry is 0, or empty for `data`. -/
structure Response where
  status : Status
  /-- `OPE`, the request's `OP` echoed -/
  ope : BitVec 4
  pstat : PStat := {}
  len : Word := 0
  src : Word := 0
  dst : Word := 0
  seq : Word := 0
  mlen : Word := 0
  value : Word := 0
  data : List Byte := []
deriving DecidableEq, Repr

/-- A pending request (R24): a `WRITE` or `WRITE_PKT` with the payload its frame will hold (R85, R86) and the `OP` its
answer echoes, or a `READ` with its capacity (R95). DEDUCED, log entry 7: `RSV0`, `REG` and `RSV1` of R25 are 0 in every
pending request, and the operands of a `WRITE_PKT` are the first bytes of its payload. -/
inductive Pending where
  | write (op : BitVec 4) (payload : List Byte)
  | read (cap : Word)
deriving DecidableEq, Repr

/-- The request slot and the response slot of one interface port (R24). -/
structure Slot where
  req : Option Pending := none
  rsp : Option Response := none
deriving DecidableEq, Repr

/-- The written bytes of `Ring`, as (offset, byte) pairs with strictly rising offsets (`Memory.wf`). An offset that is
not listed holds a byte the spec leaves unspecified (R43; log entry 4). -/
abbrev Memory := List Host.Cell

/-- The state of the block. -/
structure State where
  /-- the OPEN parameters of R5; no step writes them -/
  params : Config.Params
  /-- `mode` (R19) -/
  mode : Mode
  /-- `C`, the capacity in use (R20) -/
  cap : Nat
  /-- `Ring` (R21) -/
  ring : Memory
  /-- `RP`, the read cursor (R22) -/
  rp : Nat
  /-- `WP`, the write cursor (R22) -/
  wp : Nat
  /-- `rp_vis`, the write side's view of `RP` (R23) -/
  rpVis : Nat
  /-- `wp_vis`, the read side's view of `WP` (R23) -/
  wpVis : Nat
  /-- `req[K]` and `rsp[K]` (R24) -/
  portK : Slot
  /-- `req[P[i]]` and `rsp[P[i]]` for `i < NW` (R24) -/
  portsP : List Slot
  /-- `req[Q[j]]` and `rsp[Q[j]]` for `j < NR` (R24) -/
  portsQ : List Slot
  /-- the MODEL's own: the port whose `ISSUE` step was started last (log entry 9) -/
  port : Port
  /-- the MODEL's own: the steps the schedule takes next, oldest first (log entry 2) -/
  sched : List Event
  /-- the MODEL's own: the response units `TAKE` has handed to the ports, oldest first (R37, R69; log entry 8) -/
  out : List (Port × List Byte)
  /-- the MODEL's own: how many free values have been drawn (log entries 2 and 5) -/
  draws : Nat
  /-- the MODEL's own: the draw that `Ring`'s unspecified bytes come from (log entry 4) -/
  ringDraw : Nat
deriving DecidableEq, Repr

/-- The reasons the machine can stop. The block itself has none (R126). -/
inductive Fault where
  /-- Raised by `SERVE_W` and `SERVE_R` when the step would touch a storage offset outside `0 .. C_MAX - 1`, which does
  not exist (R21, R45): `C` is 0 or above `C_MAX`, and no step reaches such a `READY` state from one that meets
  `BlockInv`. SAFE: the model stops where the spec has no byte to read or write (log entry 11). -/
  | outsideStorage
deriving DecidableEq, Repr

/-- The refusals of the model. -/
inductive Refusal where
  /-- Raised by an arm of `exec` whose instruction has no meaning yet. SAFE. No arm raises it now. -/
  | notModelled (mnemonic : String)
deriving DecidableEq, Repr

/-- The outcome of a step or of a request. -/
abbrev Result := Host.Outcome State Fault Refusal

/-- The state after reset of a block with parameters `p` (R43, R127): `UNINIT`, `C` and every cursor and view 0, every
slot empty, no byte of `Ring` specified. -/
def State.resetWith (p : Config.Params) : State :=
  { params := p, mode := .uninit, cap := 0, ring := [], rp := 0, wp := 0, rpVis := 0, wpVis := 0,
    portK := {}, portsP := List.replicate p.nW {}, portsQ := List.replicate p.nR {},
    port := .k, sched := [], out := [], draws := 0, ringDraw := 0 }

/-- The machine right after reset, in the build of log entry 1. -/
def State.reset : State := State.resetWith Config.build

end Machine
end Sys2Proof
end

