-- ==== Sys2Proof/Machine/Ops.lean ====
section
/-! DEFINITION. The shared operations: ring storage (R16), ring distance and space accounting (R15, R28, R29), port slots (R24), and answering a request (R17, R26), the block's one way to report an exceptional condition (R112, R117). -/

namespace Sys2Proof
namespace Machine

/-! Ring storage as a canonical list of written bytes. -/

/-- The byte written at offset `x`, if one has been. -/
def ringLookup : Memory → Nat → Option Byte
  | [], _ => none
  | (a, b) :: m, x => if x = a then some b else ringLookup m x

/-- `Ring[x] <- v`, keeping the offsets strictly rising. -/
def ringStore : Memory → Nat → Byte → Memory
  | [], x, v => [(x, v)]
  | (a, b) :: m, x, v =>
    if x < a then (x, v) :: (a, b) :: m
    else if x = a then (a, v) :: m
    else (a, b) :: ringStore m x v

/-- The canonical form of the storage: offsets strictly rising, all below `limit`. An unlisted offset holds no written
byte, so no entry can repeat what an unlisted offset reads as. -/
abbrev Memory.wf (limit : Nat) (m : Memory) : Prop :=
  (m.map Prod.fst).Pairwise (· < ·) ∧ ∀ c ∈ m, c.1 < limit

/-- `Ring[x]` (R16): the byte last written there, else an unspecified byte, a FREE VALUE (R43; log entry 4). -/
def ringByte (s : State) (x : Nat) : Byte :=
  (ringLookup s.ring x).getD (Config.freeRing s.ringDraw x)

/-- `MemRead(a, n)` (R16): byte `k` is `Ring[(a + k) mod C]`. -/
def memRead (s : State) (a n : Nat) : List Byte :=
  (List.range n).map fun k => ringByte s ((a + k) % s.cap)

/-- `MemWrite(a, |bytes|, bytes)` (R16) on storage used with capacity `c`: byte `k` goes to `(a + k) mod c`. -/
def memWrite (c : Nat) : Memory → Nat → List Byte → Memory
  | m, _, [] => m
  | m, a, b :: bs => memWrite c (ringStore m (a % c) b) (a + 1) bs

/-- Every offset `x mod C` lies in the storage `0 .. C_MAX - 1` (R20, R21). -/
def storageOk (s : State) : Bool := decide (0 < s.cap) && decide (s.cap ≤ s.params.cMax)

/-! Ring distance and space (R15, R28, R29). -/

/-- `dist(a, b)` in a ring of capacity `c`, by branch on the cursors' order (R15). -/
def ringDist (c a b : Nat) : Nat := if b ≥ a then b - a else c - a + b

/-- `readable_space` (R28). -/
def readableSpace (s : State) : Nat := ringDist s.cap s.rp s.wp

/-- `writable_space` (R28; 90_conflicts.md C7). -/
def writableSpace (s : State) : Nat := s.cap - 1 - ringDist s.cap s.rp s.wp

/-- `wr_avail`, the write side's writable space, on its view of `RP` (R29). -/
def wrAvail (s : State) : Nat := s.cap - 1 - ringDist s.cap s.rpVis s.wp

/-- `rd_avail`, the read side's readable space, on its view of `WP` (R29). -/
def rdAvail (s : State) : Nat := ringDist s.cap s.rp s.wpVis

/-! Port slots (R24). -/

/-- The slots of a port, if the block has that port. -/
def slotOf (s : State) : Port → Option Slot
  | .k => some s.portK
  | .p i => s.portsP[i]?
  | .q j => s.portsQ[j]?

/-- The state with the slots of one port replaced. -/
def withSlot (s : State) (p : Port) (sl : Slot) : State :=
  match p with
  | .k => { s with portK := sl }
  | .p i => { s with portsP := s.portsP.set i sl }
  | .q j => { s with portsQ := s.portsQ.set j sl }

/-- `req[p] = none` and `rsp[p] = none`: the port may issue (R36). -/
def portFree (s : State) (p : Port) : Bool := slotOf s p == some {}

/-- A request is pending in this slot. -/
def Slot.isPending (sl : Slot) : Bool := sl.req.isSome

/-- Some port has a request pending (R83). -/
def anyPending (s : State) : Bool :=
  s.portK.isPending || s.portsP.any Slot.isPending || s.portsQ.any Slot.isPending

/-! Answers. -/

/-- `respond p (r)` (R26): the response goes to `rsp[p]` and the request ends. -/
def respond (s : State) (p : Port) (r : Response) : State := withSlot s p { rsp := some r }

/-- A response that carries a status and the echoed opcode only (R111). -/
def bare (st : Status) (ope : BitVec 4) : Response := { status := st, ope := ope }

/-- `raise S()` in an `ISSUE` step (R17): the issuing port gets the status and nothing else changes. -/
def raise (s : State) (st : Status) (ope : BitVec 4) : Result := .next (respond s s.port (bare st ope))

/-- `req[p] <- r` in an `ISSUE` step (R36). -/
def pend (s : State) (r : Pending) : Result := .next (withSlot s s.port { req := some r })

/-- A number in a 64-bit field (R25, R42). A number that does not fit has no stated value: FREE VALUE, log entry 6. -/
def word64 (v : Nat) : Word := if v < 2 ^ 64 then BitVec.ofNat 64 v else Config.freeWord v

end Machine
end Sys2Proof
end

