-- ==== Sys2Proof/Machine/Operands.lean ====
section
/-! DEFINITION. Operand forms: which port class an opcode is legal on (R76, R120), the payloads the write operations assemble (R67, R68, R85, R86), and the units that carry responses (R69, R73, R74). -/

namespace Sys2Proof
namespace Machine

/-- `INIT` and `DESTROY` are legal on `K` only (R71, R120). -/
def isControl : Port → Bool
  | .k => true
  | _ => false

/-- `WRITE` and `WRITE_PKT` are legal on producer ports only (R71, R120). -/
def isProducer : Port → Bool
  | .p _ => true
  | _ => false

/-- `READ` is legal on consumer ports only (R71, R120). -/
def isConsumer : Port → Bool
  | .q _ => true
  | _ => false

/-- A frame in the ring: the length header, then the payload (R67). -/
def frame (payload : List Byte) : List Byte := leEncode Config.hdrBytes payload.length ++ payload

/-- The greatest payload length the length header holds, `2^(8H) - 1` (R85, R86). -/
def maxPayload : Nat := 2 ^ (8 * Config.hdrBytes) - 1

/-- The greatest value an application header field holds, `2^(8W) - 1` (R86). -/
def maxField : Nat := 2 ^ (8 * Config.fieldBytes) - 1

/-- The application-layer payload (R68): the three header fields, then the message. -/
def packetPayload (src dst seq : Word) (msg : List Byte) : List Byte :=
  leEncode Config.fieldBytes src.toNat ++ leEncode Config.fieldBytes dst.toNat ++
    leEncode Config.fieldBytes seq.toNat ++ msg

/-! Response units. -/

/-- The status codes (R74). -/
def Status.code : Status → Nat
  | .ok => 0x00
  | .full => 0x01
  | .empty => 0x02
  | .undersized => 0x03
  | .badCmd => 0x04
  | .badArg => 0x05
  | .badState => 0x06

/-- The response word (R73): `STATUS` in bits 7:0, `OPE` in 11:8, the parse flags in 12, 13 and 14, the rest 0. -/
def Response.word (r : Response) : Nat :=
  r.status.code + 2 ^ 8 * r.ope.toNat + 2 ^ 12 * r.pstat.short.toNat + 2 ^ 13 * r.pstat.srcOor.toNat +
    2 ^ 14 * r.pstat.dstOor.toNat

/-- The result words a response carries, by its request and status (R73). -/
def Response.resultWords (r : Response) : List Word :=
  if r.ope = opRead ∧ r.status = .ok then [r.len, r.src, r.dst, r.seq, r.mlen]
  else if r.ope = opRead ∧ r.status = .undersized then [r.len]
  else if r.ope = opStatus ∧ r.status = .ok then [r.value]
  else []

/-- The data bytes a response carries: the payload of a `READ` answered `OK` (R73). -/
def Response.dataBytes (r : Response) : List Byte :=
  if r.ope = opRead ∧ r.status = .ok then r.data else []

/-- The response unit (R69): the response word as 4 bytes, the result words as 8 bytes each, then the data. -/
def Response.unit (r : Response) : List Byte :=
  leEncode 4 r.word ++ (r.resultWords.map fun w => leEncode 8 w.toNat).flatten ++ r.dataBytes

end Machine
end Sys2Proof
end

