-- ==== Sys2Proof/Machine/Flags.lean ====
section
/-! DEFINITION. The packet parser and its flags (R104 to R107). -/

namespace Sys2Proof
namespace Machine

/-- A port value outside `[PORT_MIN, PORT_MAX]` (R9, R107). -/
def outOfRange (p : Config.Params) (v : Nat) : Bool := decide (v < p.portMin) || decide (v > p.portMax)

/-- What `parse` returns (R104). -/
structure Parsed where
  pstat : PStat
  src : Word
  dst : Word
  seq : Word
  mlen : Word
deriving DecidableEq, Repr

/-- The bytes `data[lo : lo + W]` as an application header field (R106). -/
def headerField (data : List Byte) (lo : Nat) : Nat := leDecode ((data.drop lo).take Config.fieldBytes)

/-- `PSTAT` of a payload (R105, R107): `SHORT` alone when the application header is incomplete. -/
def parseFlags (p : Config.Params) (data : List Byte) : PStat :=
  if data.length < Config.appBytes then { short := true }
  else
    { srcOor := outOfRange p (headerField data 0), dstOor := outOfRange p (headerField data Config.fieldBytes) }

/-- `parse(data)` (R104): a pure function of the payload and the port range. -/
def parse (p : Config.Params) (data : List Byte) : Parsed :=
  if data.length < Config.appBytes then
    { pstat := parseFlags p data, src := 0, dst := 0, seq := 0, mlen := 0 }
  else
    { pstat := parseFlags p data
      src := BitVec.ofNat 64 (headerField data 0)
      dst := BitVec.ofNat 64 (headerField data Config.fieldBytes)
      seq := BitVec.ofNat 64 (headerField data (2 * Config.fieldBytes))
      mlen := word64 (data.length - Config.appBytes) }

end Machine
end Sys2Proof
end

