-- ==== Sys2Proof/Machine/Lifecycle.lean ====
section
/-! DEFINITION. The lifecycle and status operations `INIT`, `DESTROY` and `STATUS` (R80 to R84), each answered inside its `ISSUE` step. -/

namespace Sys2Proof
namespace Machine

/-- `INIT CAP` (R80, R81, R82); the checks in the order of R114. -/
def execInit (cap : Word) (s : State) : Result :=
  if isControl s.port = false then raise s .badCmd opInit
  else if s.mode ≠ .uninit then raise s .badState opInit
  else if cap.toNat < Config.hdrBytes + 1 ∨ cap.toNat > s.params.cMax then raise s .badArg opInit
  else
    .next (respond { s with mode := .ready, cap := cap.toNat, rp := 0, wp := 0, rpVis := 0, wpVis := 0 }
      s.port (bare .ok opInit))

/-- `DESTROY` (R83); the checks in the order of R114. -/
def execDestroy (s : State) : Result :=
  if isControl s.port = false then raise s .badCmd opDestroy
  else if s.mode ≠ .ready then raise s .badState opDestroy
  else if anyPending s = true then raise s .badState opDestroy
  else
    .next (respond { s with mode := .uninit, cap := 0, rp := 0, wp := 0, rpVis := 0, wpVis := 0 }
      s.port (bare .ok opDestroy))

/-- The encoding of `mode` (R19). -/
def Mode.code : Mode → Nat
  | .uninit => 0
  | .ready => 1

/-- A register that reads 0 while `UNINIT` (R42). -/
def whileReady (s : State) (v : Nat) : Nat :=
  match s.mode with
  | .ready => v
  | .uninit => 0

/-- The number of ports of a class with a request pending (R42, `PEND_W`, `PEND_R`). -/
def pendingCount (slots : List Slot) : Nat := slots.countP Slot.isPending

/-- The value of status register `reg` (R42); `none` for the reserved indices 0x0F to 0xFF. -/
def regValue (s : State) (reg : Nat) : Option Nat :=
  match reg with
  | 0x00 => some s.mode.code
  | 0x01 => some (whileReady s s.cap)
  | 0x02 => some (whileReady s (readableSpace s))
  | 0x03 => some (whileReady s (writableSpace s))
  | 0x04 => some (whileReady s s.rp)
  | 0x05 => some (whileReady s s.wp)
  | 0x06 => some Config.hdrBytes
  | 0x07 => some Config.fieldBytes
  | 0x08 => some s.params.portMin
  | 0x09 => some s.params.portMax
  | 0x0A => some s.params.cMax
  | 0x0B => some (whileReady s (pendingCount s.portsP))
  | 0x0C => some (whileReady s (pendingCount s.portsQ))
  | 0x0D => some s.params.nW
  | 0x0E => some s.params.nR
  | _ => none

/-- `STATUS REG` (R84): legal on every port and in both modes. -/
def execStatus (reg : Byte) (s : State) : Result :=
  match regValue s reg.toNat with
  | none => raise s .badArg opStatus
  | some v => .next (respond s s.port { status := .ok, ope := opStatus, value := word64 v })

end Machine
end Sys2Proof
end

