-- ==== Sys2Proof/Machine/Read.lean ====
section
/-! DEFINITION. The read operation `READ` (R95) and the read arbiter's steps (R96 to R99). -/

namespace Sys2Proof
namespace Machine

/-- The `ISSUE` part of `READ CAP` (R95); the checks in the order of R114. -/
def execRead (cap : Word) (s : State) : Result :=
  if isConsumer s.port = false then raise s .badCmd opRead
  else if s.mode ≠ .ready then raise s .badState opRead
  else pend s (.read cap)

/-- The capacity of the read pending at `Q[j]`. -/
def pendingRead (s : State) (j : Nat) : Option Word :=
  match slotOf s (.q j) with
  | some { req := some (.read cap), .. } => some cap
  | _ => none

/-- `head_vis` (R96): a length header is visible on the read side's view. -/
def headVisible (s : State) : Bool := decide (s.mode = .ready) && decide (rdAvail s ≥ Config.hdrBytes)

/-- `L_head` (R96), defined where `headVisible` holds. -/
def headLength (s : State) : Nat := leDecode (memRead s s.rp Config.hdrBytes)

/-- What the read side makes of a pending read (R96). -/
inductive ReadVerdict where
  | undersized (len : Nat)
  | eligible (len : Nat)
  | blocked
  /-- the header would be read at an offset that does not exist (log entry 11) -/
  | noStorage
deriving DecidableEq, Repr

/-- The verdict on a pending read of capacity `cap` (R96). -/
def readVerdict (s : State) (cap : Nat) : ReadVerdict :=
  if headVisible s = false then .blocked
  else if storageOk s = false then .noStorage
  else if headLength s > cap then .undersized (headLength s)
  else if rdAvail s ≥ Config.hdrBytes + headLength s then .eligible (headLength s)
  else .blocked

/-- The response to a read commit of payload `data` (R97, R104). -/
def readResponse (p : Config.Params) (data : List Byte) : Response :=
  { status := .ok, ope := opRead, pstat := (parse p data).pstat, len := word64 data.length,
    src := (parse p data).src, dst := (parse p data).dst, seq := (parse p data).seq, mlen := (parse p data).mlen,
    data := data }

/-- The effect of `SERVE_R(Q[j])` (R97, R98), a step taken where `enabled` holds of it. -/
def serveR (j : Nat) (s : State) : Result :=
  match pendingRead s j with
  | none => .next s
  | some cap =>
    match readVerdict s cap.toNat with
    | .eligible len =>
      .next (respond { s with rp := (s.rp + Config.hdrBytes + len) % s.cap } (.q j)
        (readResponse s.params (memRead s ((s.rp + Config.hdrBytes) % s.cap) len)))
    | .undersized len =>
      .next (respond s (.q j) { status := .undersized, ope := opRead, len := word64 len })
    | .blocked => .next s
    | .noStorage => .fault .outsideStorage

/-- The effect of `TIMEOUT_R(Q[j])` (R99), a step taken where `enabled` holds of it. -/
def timeoutR (j : Nat) (s : State) : Result :=
  match pendingRead s j with
  | none => .next s
  | some _ => .next (respond s (.q j) (bare .empty opRead))

end Machine
end Sys2Proof
end

