-- ==== Sys2Proof/Machine/Write.lean ====
section
/-! DEFINITION. The write operations `WRITE` and `WRITE_PKT` (R85, R86) and the write arbiter's steps (R87, R88, R89). -/

namespace Sys2Proof
namespace Machine

/-- The `ISSUE` part of `WRITE LEN, DATA` (R85); the checks in the order of R114. -/
def execWrite (data : List Byte) (s : State) : Result :=
  if isProducer s.port = false then raise s .badCmd opWrite
  else if s.mode ≠ .ready then raise s .badState opWrite
  else if data.length > maxPayload then raise s .badArg opWrite
  else pend s (.write opWrite data)

/-- The `ISSUE` part of `WRITE_PKT SRC, DST, SEQ, MLEN, MSG` (R86); the checks in the order of R114. -/
def execWritePkt (src dst seq : Word) (msg : List Byte) (s : State) : Result :=
  if isProducer s.port = false then raise s .badCmd opWritePkt
  else if s.mode ≠ .ready then raise s .badState opWritePkt
  else if src.toNat > maxField ∨ dst.toNat > maxField ∨ seq.toNat > maxField then raise s .badArg opWritePkt
  else if Config.appBytes + msg.length > maxPayload then raise s .badArg opWritePkt
  else pend s (.write opWritePkt (packetPayload src dst seq msg))

/-- The write pending at `P[i]`: the `OP` to echo and the payload. -/
def pendingWrite (s : State) (i : Nat) : Option (BitVec 4 × List Byte) :=
  match slotOf s (.p i) with
  | some { req := some (.write op payload), .. } => some (op, payload)
  | _ => none

/-- A write of payload length `L` is eligible: its framed size fits `wr_avail` (R87). -/
def eligibleWrite (s : State) (len : Nat) : Bool :=
  decide (s.mode = .ready) && decide (Config.hdrBytes + len ≤ wrAvail s)

/-- The ring after a write commit of `payload`: the header at `WP`, then the payload (R88). -/
def commitBytes (s : State) (payload : List Byte) : Memory :=
  memWrite s.cap (memWrite s.cap s.ring s.wp (leEncode Config.hdrBytes payload.length))
    ((s.wp + Config.hdrBytes) % s.cap) payload

/-- The effect of `SERVE_W(P[i])` (R88), a step taken where `enabled` holds of it. -/
def serveW (i : Nat) (s : State) : Result :=
  match pendingWrite s i with
  | none => .next s
  | some (op, payload) =>
    if storageOk s = true then
      .next (respond
        { s with ring := commitBytes s payload, wp := (s.wp + Config.hdrBytes + payload.length) % s.cap }
        (.p i) (bare .ok op))
    else .fault .outsideStorage

/-- The effect of `TIMEOUT_W(P[i])` (R89), a step taken where `enabled` holds of it. -/
def timeoutW (i : Nat) (s : State) : Result :=
  match pendingWrite s i with
  | none => .next s
  | some (op, _) => .next (respond s (.p i) (bare .full op))

end Machine
end Sys2Proof
end

