-- ==== Sys2Proof/Machine/Dispatch.lean ====
section
/-! DEFINITION. One arm per request of the opcode map (R71). -/

namespace Sys2Proof
namespace Machine

-- The ISSUE part of a decoded request at the port State.port (R36, R114).
def exec (i : Instr) (s : State) : Host.Outcome State Fault Refusal :=
  match i with
  | .init cap => Sys2Proof.Machine.execInit cap s
  | .write data => Sys2Proof.Machine.execWrite data s
  | .read cap => Sys2Proof.Machine.execRead cap s
  | .destroy => Sys2Proof.Machine.execDestroy s
  | .writePkt src dst seq msg => Sys2Proof.Machine.execWritePkt src dst seq msg s
  | .status reg => Sys2Proof.Machine.execStatus reg s

end Machine
end Sys2Proof
end

