-- ==== Sys2Proof/Machine/Ports.lean ====
section
/-! DEFINITION. The steps of the interface ports and of the synchronisers, the reset, and the schedule that picks the next step (R35 to R38, R127). -/

namespace Sys2Proof
namespace Machine

/-- The `OPE` a rejected unit's answer echoes: the received `OP` bits (R73, R111), the low half of the first byte. A unit
of no bytes has none: FREE VALUE, log entry 5. -/
def receivedOp (s : State) : List Byte → BitVec 4
  | [] => Config.freeOpe s.draws
  | b :: _ => b.extractLsb' 0 4

/-- The answer `BADCMD` to a unit the decoder rejects (R76), whatever the reason. The draw counter moves on, so that the
free `OPE` of a unit of no bytes is a fresh value each time. -/
def answerRejected (unit : List Byte) (s : State) : Result :=
  .next (respond { s with draws := s.draws + 1 } s.port (bare .badCmd (receivedOp s unit)))

/-- The effect of `ISSUE(p, r)` (R36) for the unit that carries `r`, a step taken where `enabled` holds of it: the
decoded request's meaning at port `p`, or `BADCMD`. -/
def issue (p : Port) (unit : List Byte) (s : State) : Result :=
  match decode unit with
  | .ok i => exec i { s with port := p }
  | .error _ => answerRejected unit { s with port := p }

/-- The response waiting at port `p`. -/
def waitingResponse (s : State) (p : Port) : Option Response :=
  match slotOf s p with
  | some sl => sl.rsp
  | none => none

/-- The effect of `TAKE(p)` (R37): the response leaves the slot as a response unit (R69), and nothing else changes. -/
def take (p : Port) (s : State) : Result :=
  match slotOf s p with
  | some { req := q, rsp := some r } => .next (withSlot { s with out := s.out ++ [(p, r.unit)] } p { req := q })
  | _ => .next s

/-- The effect of `SYNC_R` (R38). -/
def syncR (s : State) : Result := .next { s with wpVis := s.wp }

/-- The effect of `SYNC_W` (R38). -/
def syncW (s : State) : Result := .next { s with rpVis := s.rp }

/-- The effect of reset (R127): every element of the block at its reset value, `Ring` unspecified anew. The schedule and
the units already taken are the environment's and stay (log entry 12). -/
def reset (s : State) : Result :=
  .next { State.resetWith s.params with
    port := s.port, sched := s.sched, out := s.out, draws := s.draws + 1, ringDraw := s.draws + 1 }

/-- Where a step is enabled (R36 to R38, R87 to R89, R96 to R99). Reset may come at any time (R127). -/
def enabled (e : Event) (s : State) : Bool :=
  match e with
  | .issue p _ => portFree s p
  | .take p => (waitingResponse s p).isSome
  | .serveW i =>
    match pendingWrite s i with
    | some (_, payload) => eligibleWrite s payload.length
    | none => false
  | .timeoutW i =>
    match pendingWrite s i with
    | some (_, payload) => !eligibleWrite s payload.length
    | none => false
  | .serveR j =>
    match pendingRead s j with
    | some cap => readVerdict s cap.toNat != .blocked
    | none => false
  | .timeoutR j =>
    match pendingRead s j with
    | some cap => readVerdict s cap.toNat == .blocked
    | none => false
  | .syncR => decide (s.mode = .ready) && decide (s.wpVis ≠ s.wp)
  | .syncW => decide (s.mode = .ready) && decide (s.rpVis ≠ s.rp)
  | .reset => true

/-- The effect of one step of one agent, where it is enabled. -/
def perform (e : Event) (s : State) : Result :=
  match e with
  | .issue p unit => issue p unit s
  | .take p => take p s
  | .serveW i => serveW i s
  | .timeoutW i => timeoutW i s
  | .serveR j => serveR j s
  | .timeoutR j => timeoutR j s
  | .syncR => syncR s
  | .syncW => syncW s
  | .reset => reset s

/-- One scheduled step: its effect where it is enabled. A step that is not enabled is not taken: a port that is held
does not issue (R36), and nothing changes (log entry 3). -/
def runEvent (e : Event) (s : State) : Result :=
  if enabled e s = true then perform e s else .next s

/-- The step the schedule takes next, and the state without it: the oldest one `State.sched` names, else a FREE VALUE
(log entry 2). -/
def nextEvent (s : State) : Event × State :=
  match s.sched with
  | e :: es => (e, { s with sched := es })
  | [] => (Config.freeEvent s.draws, { s with draws := s.draws + 1 })

/-- The port the host's test unit arrives on: one where its opcode is legal (R71). -/
def fetchPort (op : Nat) : Port :=
  if op = 2 ∨ op = 5 then .p 0 else if op = 3 then .q 0 else .k

/-- The schedule with one `ISSUE` step put first, at a port made free for it. -/
def scheduleIssue (p : Port) (unit : List Byte) (s : State) : State :=
  { withSlot s p {} with sched := .issue p unit :: s.sched }

end Machine
end Sys2Proof
end

