-- ==== Sys2Proof/Machine/Step.lean ====
section
/-! DEFINITION. One step of the machine: the step the schedule takes next, with its effect. -/

namespace Sys2Proof
namespace Machine

/-- One atomic step of one agent (R18, R35, R115). -/
def step (s : State) : Host.Outcome State Fault Refusal := runEvent (nextEvent s).1 (nextEvent s).2

/-- The state in which the next step is the `ISSUE` of the unit whose bits are `w`, on a port where its opcode is legal
and which is free (log entry 10). -/
def State.withFetchWord (s : State) (nbits w : Nat) : State :=
  scheduleIssue (fetchPort (w % 16)) (tableUnit nbits w) s

end Machine
end Sys2Proof
end

