-- ==== Sys2Proof/Safety.lean ====
section
/-! DEFINITION. The words the statements use: frames of a step, the invariants of R30 to R34, the queue of frames the ring holds, the conditions of R76 and R114 written out from the spec's lists, and runs with weak fairness (R39). -/

namespace Sys2Proof
namespace Machine

/-! What a step leaves unchanged, and what an answer is. -/

/-- The shared state of the block (R123) is the same in both states: every register and every byte of `Ring`. -/
def sameBlock (s t : State) : Prop :=
  t.params = s.params ∧ t.mode = s.mode ∧ t.cap = s.cap ∧ t.rp = s.rp ∧ t.wp = s.wp ∧ t.rpVis = s.rpVis ∧
    t.wpVis = s.wpVis ∧ ∀ x, ringByte t x = ringByte s x

/-- The model's own fields are the same in both states. -/
def sameEnvironment (s t : State) : Prop :=
  t.port = s.port ∧ t.sched = s.sched ∧ t.out = s.out ∧ t.draws = s.draws ∧ t.ringDraw = s.ringDraw

/-- The slots of every port but `p` are the same in both states. -/
def sameOtherSlots (p : Port) (s t : State) : Prop := ∀ q, q ≠ p → slotOf t q = slotOf s q

/-- From `s` to `t`, port `p`'s request ended with the response `r` (R26), and no other port's slots changed. -/
def answered (p : Port) (r : Response) (s t : State) : Prop :=
  slotOf t p = some { req := none, rsp := some r } ∧ sameOtherSlots p s t

/-- From `s` to `t`, the request `r` became pending at port `p` (R36), and no other port's slots changed. -/
def becamePending (p : Port) (r : Pending) (s t : State) : Prop :=
  slotOf t p = some { req := some r, rsp := none } ∧ sameOtherSlots p s t

/-- The request `i` is answered in its `ISSUE` step with the error `st`, and nothing else changes (R17, R113). -/
def refusedWith (st : Status) (i : Instr) (s : State) : Prop :=
  ∃ t, exec i s = .next t ∧ answered s.port (bare st i.opcode) s t ∧ sameBlock s t ∧ sameEnvironment s t

/-- The request `i` becomes the pending request `r` in its `ISSUE` step, and nothing else changes (R36). -/
def pendsAs (r : Pending) (i : Instr) (s : State) : Prop :=
  ∃ t, exec i s = .next t ∧ becamePending s.port r s t ∧ sameBlock s t ∧ sameEnvironment s t

/-! The spec's lists of conditions. -/

/-- The ports on which an opcode is legal (R71, R120), by the opcode's number. -/
def legalPort (op : Nat) : Port → Prop
  | .k => op = 1 ∨ op = 4 ∨ op = 6
  | .p _ => op = 2 ∨ op = 5 ∨ op = 6
  | .q _ => op = 3 ∨ op = 6

/-- The unit length R71 gives an opcode, from the unit's own `LEN` or `MLEN` word. -/
def rightLength (op : Nat) (unit : List Byte) : Prop :=
  ((op = 1 ∨ op = 3) → unit.length = 12) ∧
    (op = 2 → 12 ≤ unit.length ∧ unit.length = 12 + leDecode ((unit.drop 4).take 8)) ∧
    ((op = 4 ∨ op = 6) → unit.length = 4) ∧
    (op = 5 → 36 ≤ unit.length ∧ unit.length = 36 + leDecode ((unit.drop 28).take 8))

/-- The conditions 1 to 5 of R76 on a unit that arrives at port `p`, on its command word as a number (R70). A unit
too short for a command word has none of R71's lengths. -/
def badCommand (unit : List Byte) (p : Port) : Prop :=
  let cmd := leDecode (unit.take 4)
  unit.length < 4 ∨ (cmd % 2 ^ 4 = 0 ∨ 7 ≤ cmd % 2 ^ 4) ∨ (cmd / 2 ^ 4 % 2 ^ 4 ≠ 0 ∨ cmd / 2 ^ 16 ≠ 0) ∨
    (cmd / 2 ^ 8 % 2 ^ 8 ≠ 0 ∧ cmd % 2 ^ 4 ≠ 6) ∨ ¬ legalPort (cmd % 2 ^ 4) p ∨ ¬ rightLength (cmd % 2 ^ 4) unit

/-- Some port has a request pending, over the ports themselves (R83). -/
def somePending (s : State) : Prop := ∃ p sl, slotOf s p = some sl ∧ sl.req ≠ none

/-- Check 3 of R114: `INIT` in `READY`, or a data request or `DESTROY` in `UNINIT`. -/
def wrongMode : Instr → State → Prop
  | .init _, s => s.mode = .ready
  | .status _, _ => False
  | _, s => s.mode = .uninit

/-- Check 4 of R114: an operand out of its range. -/
def badOperand : Instr → State → Prop
  | .init cap, s => cap.toNat < 9 ∨ cap.toNat > s.params.cMax
  | .write data, _ => data.length > 2 ^ 64 - 1
  | .writePkt src dst seq msg, _ =>
    src.toNat > 2 ^ 64 - 1 ∨ dst.toNat > 2 ^ 64 - 1 ∨ seq.toNat > 2 ^ 64 - 1 ∨ 24 + msg.length > 2 ^ 64 - 1
  | _, _ => False

/-- The checks of R114 on a decoded request at the issuing port, in order, each with the status that answers it. -/
def checks (i : Instr) (s : State) : List (Prop × Status) :=
  [(¬ legalPort i.opcode.toNat s.port, .badCmd),
   (∃ reg : Byte, i = .status reg ∧ reg.toNat > 0x0E, .badArg),
   (wrongMode i s, .badState),
   (badOperand i s, .badArg),
   (i = .destroy ∧ somePending s, .badState)]

/-- `st` is the status of the first check that holds. -/
def firstFailing : List (Prop × Status) → Status → Prop
  | [], _ => False
  | (c, st) :: rest, out => (c ∧ out = st) ∨ (¬ c ∧ firstFailing rest out)

/-- No check holds. -/
def allPass (l : List (Prop × Status)) : Prop := ∀ c ∈ l, ¬ c.1

/-- The values of the status registers 0x00 to 0x0E, by the columns of R42's table. -/
def registerTable (s : State) : List Nat :=
  match s.mode with
  | .ready =>
    [1, s.cap, ringDist s.cap s.rp s.wp, s.cap - 1 - ringDist s.cap s.rp s.wp, s.rp, s.wp, 8, 8, s.params.portMin,
     s.params.portMax, s.params.cMax, s.portsP.countP (fun sl => sl.req.isSome),
     s.portsQ.countP (fun sl => sl.req.isSome), s.params.nW, s.params.nR]
  | .uninit =>
    [0, 0, 0, 0, 0, 0, 8, 8, s.params.portMin, s.params.portMax, s.params.cMax, 0, 0, s.params.nW, s.params.nR]

/-! The read side's view of a pending read, in the formulas of R96. -/

/-- `head_vis` (R96). -/
def headVis (s : State) : Prop := s.mode = .ready ∧ ringDist s.cap s.rp s.wpVis ≥ 8

/-- `L_head` (R96), defined where `headVis` holds. -/
def lHead (s : State) : Nat := leDecode (memRead s s.rp 8)

/-- `undersized` (R96). -/
def readUndersized (s : State) (cap : Nat) : Prop := headVis s ∧ lHead s > cap

/-- `eligible` (R96). -/
def readEligible (s : State) (cap : Nat) : Prop :=
  headVis s ∧ lHead s ≤ cap ∧ ringDist s.cap s.rp s.wpVis ≥ 8 + lHead s

/-- `blocked` (R96). -/
def readBlocked (s : State) (cap : Nat) : Prop :=
  ¬ headVis s ∨ (headVis s ∧ lHead s ≤ cap ∧ ringDist s.cap s.rp s.wpVis < 8 + lHead s)

/-- A `READY` state's capacity lies in the storage (R20, R21). -/
def capInStorage (s : State) : Prop := s.mode = .ready → 0 < s.cap ∧ s.cap ≤ s.params.cMax

/-! Invariants. -/

/-- The `n` bytes from offset `a` forward are these frames, back to back (R34, R52). -/
def framesAt (s : State) (a n : Nat) (payloads : List (List Byte)) : Prop :=
  memRead s a n = (payloads.map frame).flatten ∧ ∀ f ∈ payloads, f.length ≤ maxPayload

/-- The ring holds the queue of frames with these payloads: `seen` up to the read side's view, then `unseen` (R34). -/
def holdsQueue (s : State) (seen unseen : List (List Byte)) : Prop :=
  framesAt s s.rp (ringDist s.cap s.rp s.wpVis) seen ∧ framesAt s s.wpVis (ringDist s.cap s.wpVis s.wp) unseen

/-- What holds in `READY`: R20, R30, R32, R33, R34, and every byte between the cursors has been written (R43). -/
structure ReadyInv (s : State) : Prop where
  capLow : Config.hdrBytes + 1 ≤ s.cap
  capHigh : s.cap ≤ s.params.cMax
  capWord : s.cap < 2 ^ 64
  rpRange : s.rp < s.cap
  wpRange : s.wp < s.cap
  rpVisRange : s.rpVis < s.cap
  wpVisRange : s.wpVis < s.cap
  writeView : ringDist s.cap s.rpVis s.rp + ringDist s.cap s.rp s.wp ≤ s.cap - 1
  readView : ringDist s.cap s.rp s.wpVis + ringDist s.cap s.wpVis s.wp = ringDist s.cap s.rp s.wp
  frames : ∃ seen unseen, holdsQueue s seen unseen
  written : ∀ k, k < ringDist s.cap s.rp s.wp → (ringLookup s.ring ((s.rp + k) % s.cap)).isSome = true

/-- What holds in `UNINIT`: R20, R22, R23, and no request is pending (R83). -/
structure UninitInv (s : State) : Prop where
  cap : s.cap = 0
  rp : s.rp = 0
  wp : s.wp = 0
  rpVis : s.rpVis = 0
  wpVis : s.wpVis = 0
  idle : ¬ somePending s

/-- A request slot of a producer port: empty, or a write whose payload fits the length header, with its own `OP`. -/
def producerSlotOk (sl : Slot) : Prop :=
  ∀ r, sl.req = some r →
    ∃ op payload, r = .write op payload ∧ (op = opWrite ∨ op = opWritePkt) ∧ payload.length ≤ maxPayload

/-- A request slot of a consumer port: empty, or a read. -/
def consumerSlotOk (sl : Slot) : Prop := ∀ r, sl.req = some r → ∃ cap, r = .read cap

/-- What a response may be: a field its opcode and status do not carry is 0 or empty (R25, R73, R75), the length is that
of the data, and each status answers only the requests that can receive it (R111). -/
structure ResponseOk (r : Response) : Prop where
  parsed : ¬ (r.ope = opRead ∧ r.status = .ok) →
    r.pstat = {} ∧ r.src = 0 ∧ r.dst = 0 ∧ r.seq = 0 ∧ r.mlen = 0 ∧ r.data = []
  length : ¬ (r.ope = opRead ∧ (r.status = .ok ∨ r.status = .undersized)) → r.len = 0
  value : ¬ (r.ope = opStatus ∧ r.status = .ok) → r.value = 0
  payload : r.ope = opRead → r.status = .ok → r.len.toNat = r.data.length
  full : r.status = .full → r.ope = opWrite ∨ r.ope = opWritePkt
  empty : r.status = .empty → r.ope = opRead
  undersized : r.status = .undersized → r.ope = opRead
  badArg : r.status = .badArg → r.ope = opInit ∨ r.ope = opStatus ∨ r.ope = opWrite ∨ r.ope = opWritePkt
  badState : r.status = .badState → r.ope ≠ opStatus ∧ 1 ≤ r.ope.toNat ∧ r.ope.toNat ≤ 5
  ok : r.status = .ok → 1 ≤ r.ope.toNat ∧ r.ope.toNat ≤ 6

/-- What holds of the slots (R24, R36): as many as there are ports, only the requests each class may issue, nothing
pending on `K`, never a pending request beside an untaken response, and only the responses the block gives. -/
structure SlotsInv (s : State) : Prop where
  producers : s.portsP.length = s.params.nW
  consumers : s.portsQ.length = s.params.nR
  control : s.portK.req = none
  producerReqs : ∀ sl ∈ s.portsP, producerSlotOk sl
  consumerReqs : ∀ sl ∈ s.portsQ, consumerSlotOk sl
  oneAtATime : ∀ p sl, slotOf s p = some sl → sl.req = none ∨ sl.rsp = none
  responses : ∀ p sl r, slotOf s p = some sl → sl.rsp = some r → ResponseOk r

/-- The invariant every step keeps. -/
structure BlockInv (s : State) : Prop where
  params : s.params.valid = true
  memory : Memory.wf s.params.cMax s.ring
  slots : SlotsInv s
  ready : s.mode = .ready → ReadyInv s
  uninit : s.mode = .uninit → UninitInv s

/-! Runs under a schedule, and fairness (R39). -/

/-- The state after `n` steps of the schedule `σ` from `s`, each step named by `σ`. -/
def stateAt (σ : Nat → Event) (s : State) : Nat → State
  | 0 => s
  | n + 1 =>
    match runEvent (σ n) (stateAt σ s n) with
    | .next t => t
    | _ => stateAt σ s n

/-- The steps of the list, taken in order. -/
def runEvents : List Event → State → Result
  | [], s => .next s
  | e :: es, s =>
    match runEvent e s with
    | .next t => runEvents es t
    | .fault f => .fault f
    | .refused r => .refused r

/-- A step that cannot end the buffer's life: no reset, and no `DESTROY` request. -/
def keepsBuffer (e : Event) : Prop := e ≠ .reset ∧ ∀ p unit, e = .issue p unit → decode unit ≠ .ok .destroy

/-- The payload a step stores: that of a write commit. -/
def written (e : Event) (s : State) : List (List Byte) :=
  match e with
  | .serveW n =>
    match pendingWrite s n with
    | some (_, payload) => if enabled e s = true then [payload] else []
    | none => []
  | _ => []

/-- The payload a step returns, as the response in the port's slot carries it: that of a read commit. -/
def returned (e : Event) (s : State) : List (List Byte) :=
  match e with
  | .serveR n =>
    match enabled e s, runEvent e s with
    | true, .next t => (waitingResponse t (.q n)).toList.filterMap fun r => if r.status = .ok then some r.data else none
    | _, _ => []
  | _ => []

/-- The storage offsets a step writes (R16, R88): those of a write commit's frame. -/
def storedAt (e : Event) (s : State) : List Nat :=
  (written e s).flatMap fun payload => (List.range (8 + payload.length)).map fun k => (s.wp + k) % s.cap

/-- What the steps of a list, taken in order, collect. -/
def collect {α : Type} (f : Event → State → List α) : List Event → State → List α
  | [], _ => []
  | e :: es, s =>
    f e s ++ match runEvent e s with
      | .next t => collect f es t
      | _ => []

/-- The payloads the write commits of a run store, oldest first. -/
def writtenBy : List Event → State → List (List Byte) := collect written

/-- The payloads the read commits of a run return, oldest first. -/
def returnedBy : List Event → State → List (List Byte) := collect returned

/-- The storage offsets the write commits of a run write. -/
def storedBy : List Event → State → List Nat := collect storedAt

/-- `ANSWER(p)` (R39): the steps that answer a pending request of port `p`. -/
def answers : Port → List Event
  | .k => []
  | .p i => [.serveW i, .timeoutW i]
  | .q j => [.serveR j, .timeoutR j]

/-- The action of taking some step of `acts` is weakly fair in the run of `σ` from `s` (R39): if from some point on one of
them is always enabled, then at some later point one of them is taken. -/
def weaklyFair (acts : List Event) (σ : Nat → Event) (s : State) : Prop :=
  ∀ n, (∀ m, n ≤ m → ∃ e ∈ acts, enabled e (stateAt σ s m) = true) →
    ∃ m, n ≤ m ∧ σ m ∈ acts ∧ enabled (σ m) (stateAt σ s m) = true

/-- The run of `σ` from `s` is fair: R39's whole list. `SYNC_R`, `SYNC_W` and, for each port, `ANSWER(p)`, which is enabled
only while `p` has a request pending, are weakly fair; `ISSUE` and `TAKE` are the environment's choice and need not be. -/
def fairRun (σ : Nat → Event) (s : State) : Prop :=
  weaklyFair [.syncR] σ s ∧ weaklyFair [.syncW] σ s ∧ ∀ p, weaklyFair (answers p) σ s

/-- `n` steps of the machine. -/
def steps : Nat → State → Result
  | 0, s => .next s
  | n + 1, s =>
    match step s with
    | .next t => steps n t
    | .fault f => .fault f
    | .refused r => .refused r

/-- The state with the first `n` steps of `σ` scheduled before what it has scheduled (log entry 2). -/
def scheduleFirst (σ : Nat → Event) (n : Nat) (s : State) : State :=
  { s with sched := (List.range n).map σ ++ s.sched }

/-- The state of a build with another `MESSAGE_SIZE` (R5). -/
def withMessageSize (x : Nat) (s : State) : State := { s with params := { s.params with messageSize := x } }

end Machine
end Sys2Proof
end

