-- ==== Sys2Proof/Certificates/Slice0/Obligations.lean ====
section
/-! DEFINITION. The statements for the provers: what the spec's numbered rules say the block does. -/

open Sys2Proof Sys2Proof.Machine

/-! ## Bytes and encodings -/

/-- R14: `le_encode_n(v)` is `n` bytes, byte `k` being `(v / 2^(8k)) mod 256`; `le_decode(s)` is the sum of
`s[k] * 2^(8k)`; decoding what was encoded gives it back. -/
def Obligations.LittleEndianCodingOfR14 : Prop :=
  (∀ n v, v < 2 ^ (8 * n) →
    (leEncode n v).length = n ∧
      (∀ k, k < n → ((leEncode n v)[k]?.map BitVec.toNat) = some (v / 2 ^ (8 * k) % 256)) ∧
      leDecode (leEncode n v) = v) ∧
  ∀ bytes : List Byte,
    leDecode bytes = (bytes.mapIdx fun k b => b.toNat * 2 ^ (8 * k)).sum

/-- Decoding the unit of any well-formed request gives the request back, every operand at every value. -/
def Obligations.DecodeOfEncodedRequest : Prop :=
  ∀ i : Instr, i.wellFormed = true → decode (encode i) = .ok i

/-- A unit that decodes is the unit of the request it decodes to, which is well-formed: no two units carry one request
and no bit of a unit is ignored. -/
def Obligations.DecodedUnitIsTheRequestsOwn : Prop :=
  ∀ (unit : List Byte) (i : Instr), decode unit = .ok i → i.wellFormed = true ∧ encode i = unit

/-- The units E-20 to E-25 of 95_test_vectors.md decode to the requests they are given for. -/
def Obligations.UnitsOfTheTestVectorsDecode : Prop :=
  decode [0x01, 0, 0, 0, 0x40, 0, 0, 0, 0, 0, 0, 0] = .ok (.init 64) ∧
  decode [0x02, 0, 0, 0, 0x05, 0, 0, 0, 0, 0, 0, 0, 0x68, 0x65, 0x6C, 0x6C, 0x6F] =
    .ok (.write [0x68, 0x65, 0x6C, 0x6C, 0x6F]) ∧
  decode [0x03, 0, 0, 0, 0x05, 0, 0, 0, 0, 0, 0, 0] = .ok (.read 5) ∧
  decode [0x04, 0, 0, 0] = .ok .destroy ∧
  decode [0x05, 0, 0, 0, 0x01, 0, 0, 0, 0, 0, 0, 0, 0x07, 0, 0, 0, 0, 0, 0, 0, 0, 0, 0, 0, 0, 0, 0, 0,
      0x02, 0, 0, 0, 0, 0, 0, 0, 0x41, 0x42] = .ok (.writePkt 1 7 0 [0x41, 0x42]) ∧
  decode [0x06, 0x02, 0, 0] = .ok (.status 2)

/-- R76: every unit with a whole command word is decoded or answered `BADCMD`. Where one of the conditions 1 to 5 holds it
is answered `BADCMD` in its `ISSUE` step, the received `OP` bits echoed, with no other effect; where none holds it decodes,
and what answer its `ISSUE` step gives is not `BADCMD`. -/
def Obligations.DecoderIsTotalOnCommandWords : Prop :=
  ∀ (s : State) (p : Port) (unit : List Byte), portFree s p = true → 4 ≤ unit.length →
    (badCommand unit p → ∃ t ope, runEvent (.issue p unit) s = .next t ∧ answered p (bare .badCmd ope) s t ∧
      ope.toNat = leDecode (unit.take 4) % 2 ^ 4 ∧ sameBlock s t ∧ t.sched = s.sched ∧ t.out = s.out) ∧
    (¬ badCommand unit p → ∃ i t sl, decode unit = .ok i ∧ i.opcode.toNat = leDecode (unit.take 4) % 2 ^ 4 ∧
      runEvent (.issue p unit) s = .next t ∧ slotOf t p = some sl ∧ ∀ r, sl.rsp = some r → r.status ≠ .badCmd)

/-- A unit too short for a command word has none of R71's lengths, so it is answered `BADCMD` with no other effect, and
decodes to nothing. The model's reading of R76 for such a unit, and its choice of the echoed bits: log entry 5. -/
def Obligations.ShortUnitsAreBadCommands : Prop :=
  ∀ (s : State) (p : Port) (unit : List Byte), portFree s p = true → unit.length < 4 →
    decode unit = .error .noCommandWord ∧
    ∃ t ope, runEvent (.issue p unit) s = .next t ∧ answered p (bare .badCmd ope) s t ∧
      (∀ b rest, unit = b :: rest → ope.toNat = b.toNat % 2 ^ 4) ∧ sameBlock s t ∧ t.sched = s.sched ∧ t.out = s.out

/-- R73 and R74: the response word's fields, bit by bit, the number of each status, the reserved bits 0, and the result
words and data that follow it; in every state that meets the invariant a response with a parse flag set answers a `READ`
with `OK`. -/
def Obligations.ResponseUnitLayoutOfR73 : Prop :=
  (Status.ok.code = 0 ∧ Status.full.code = 1 ∧ Status.empty.code = 2 ∧ Status.undersized.code = 3 ∧
    Status.badCmd.code = 4 ∧ Status.badArg.code = 5 ∧ Status.badState.code = 6) ∧
  (∀ r : Response,
    let w := leDecode (r.unit.take 4)
    w % 2 ^ 8 = r.status.code ∧ w / 2 ^ 8 % 2 ^ 4 = r.ope.toNat ∧ w / 2 ^ 12 % 2 = r.pstat.short.toNat ∧
    w / 2 ^ 13 % 2 = r.pstat.srcOor.toNat ∧ w / 2 ^ 14 % 2 = r.pstat.dstOor.toNat ∧ w / 2 ^ 15 = 0 ∧
    (r.ope = opRead → r.status = .ok → r.unit.drop 4 =
      leEncode 8 r.len.toNat ++ leEncode 8 r.src.toNat ++ leEncode 8 r.dst.toNat ++ leEncode 8 r.seq.toNat ++
        leEncode 8 r.mlen.toNat ++ r.data) ∧
    (r.ope = opRead → r.status = .undersized → r.unit.drop 4 = leEncode 8 r.len.toNat) ∧
    (r.ope = opStatus → r.status = .ok → r.unit.drop 4 = leEncode 8 r.value.toNat) ∧
    ((¬ (r.ope = opRead ∧ (r.status = .ok ∨ r.status = .undersized)) ∧ ¬ (r.ope = opStatus ∧ r.status = .ok)) →
      r.unit.length = 4)) ∧
  ∀ (s : State) (p : Port) (sl : Slot) (r : Response), BlockInv s → slotOf s p = some sl → sl.rsp = some r →
    leDecode (r.unit.take 4) / 2 ^ 12 % 2 ^ 3 ≠ 0 → r.ope = opRead ∧ r.status = .ok

/-! ## Steps and the schedule -/

/-- A step runs the decoded request: when the schedule's next step is the `ISSUE` of a unit on a free port and the unit
decodes to `i`, the step is `exec i` with that schedule entry gone and that port as the issuing one. -/
def Obligations.StepRunsTheDecodedRequest : Prop :=
  ∀ (s : State) (p : Port) (unit : List Byte) (es : List Event) (i : Instr),
    s.sched = .issue p unit :: es → portFree s p = true → decode unit = .ok i →
      step s = exec i { s with sched := es, port := p }

/-- A step takes the oldest scheduled step where it is enabled, and otherwise changes nothing but the schedule; with no
step scheduled it takes a drawn one, whichever it is (log entries 2 and 3). -/
def Obligations.StepTakesTheScheduledStep : Prop :=
  (∀ (s : State) (e : Event) (es : List Event), s.sched = e :: es →
    (enabled e { s with sched := es } = true → step s = perform e { s with sched := es }) ∧
    (enabled e { s with sched := es } = false → step s = .next { s with sched := es })) ∧
  ∀ s : State, s.sched = [] → step s = runEvent (Config.freeEvent s.draws) { s with draws := s.draws + 1 }

/-- R36: `ISSUE(p, r)` is enabled exactly when `req[p] = none` and `rsp[p] = none`. A port with a request pending or a
response not taken is held; that an `ISSUE` the schedule names there is dropped, the unit not looked at and nothing
changed, is the model's choice (log entry 3). -/
def Obligations.HeldPortDoesNotIssue : Prop :=
  ∀ (s : State) (p : Port) (unit : List Byte) (sl : Slot), slotOf s p = some sl →
    (enabled (.issue p unit) s = true ↔ (sl.req = none ∧ sl.rsp = none)) ∧
    ((sl.req ≠ none ∨ sl.rsp ≠ none) → runEvent (.issue p unit) s = .next s)

/-- R37: `TAKE(p)` is enabled exactly when a response waits; it hands the response unit to the port and empties the
response slot, and nothing else changes. -/
def Obligations.TakeHandsOverTheResponse : Prop :=
  ∀ (s : State) (p : Port) (sl : Slot), slotOf s p = some sl →
    (enabled (.take p) s = true ↔ sl.rsp ≠ none) ∧
    ∀ r, sl.rsp = some r →
      ∃ t, runEvent (.take p) s = .next t ∧ t.out = s.out ++ [(p, r.unit)] ∧
        slotOf t p = some { req := sl.req, rsp := none } ∧ sameOtherSlots p s t ∧ sameBlock s t ∧
        t.port = s.port ∧ t.sched = s.sched ∧ t.draws = s.draws ∧ t.ringDraw = s.ringDraw

/-- R38: each synchroniser is enabled exactly when it has something to copy while `READY`, copies the cursor into the
view, and changes nothing else. -/
def Obligations.SynchronisersCopyTheCursors : Prop :=
  ∀ s : State,
    (enabled .syncR s = true ↔ (s.mode = .ready ∧ s.wpVis ≠ s.wp)) ∧
    (enabled .syncR s = true → runEvent .syncR s = .next { s with wpVis := s.wp }) ∧
    (enabled .syncW s = true ↔ (s.mode = .ready ∧ s.rpVis ≠ s.rp)) ∧
    (enabled .syncW s = true → runEvent .syncW s = .next { s with rpVis := s.rp })

/-- R127 with R43: reset may come in any state; it leaves `UNINIT`, `C` and every cursor and view 0, and the slots of
every port empty. -/
def Obligations.ResetClearsEverySlotAndCursor : Prop :=
  ∀ s : State, ∃ t, runEvent .reset s = .next t ∧ t.params = s.params ∧ t.mode = .uninit ∧ t.cap = 0 ∧ t.rp = 0 ∧
    t.wp = 0 ∧ t.rpVis = 0 ∧ t.wpVis = 0 ∧ (∀ p sl, slotOf t p = some sl → sl = { req := none, rsp := none }) ∧
    (slotOf t .k).isSome = true ∧ (∀ n, (slotOf t (.p n)).isSome = true ↔ n < s.params.nW) ∧
    (∀ n, (slotOf t (.q n)).isSome = true ↔ n < s.params.nR) ∧ (∀ x, ringLookup t.ring x = none) ∧
    t.sched = s.sched ∧ t.out = s.out

/-! ## Lifecycle and status -/

/-- R80 and R81: `INIT`. Its unit; `BADCMD` off `K`; `BADSTATE` in `READY`; `BADARG` for a capacity outside
`[H + 1, C_MAX]`, each with nothing changed; else an empty ring of `CAP` bytes, `OK`. -/
def Obligations.InitEstablishesAnEmptyRing : Prop :=
  ∀ (cap : Word) (s : State), portFree s s.port = true →
    encode (.init cap) = [0x01, 0, 0, 0] ++ leEncode 8 cap.toNat ∧
    (s.port ≠ .k → refusedWith .badCmd (.init cap) s) ∧
    (s.port = .k → s.mode = .ready → refusedWith .badState (.init cap) s) ∧
    (s.port = .k → s.mode = .uninit → (cap.toNat < 9 ∨ cap.toNat > s.params.cMax) →
      refusedWith .badArg (.init cap) s) ∧
    (s.port = .k → s.mode = .uninit → 9 ≤ cap.toNat → cap.toNat ≤ s.params.cMax →
      ∃ t, exec (.init cap) s = .next t ∧ answered .k (bare .ok opInit) s t ∧ t.mode = .ready ∧
        t.cap = cap.toNat ∧ t.rp = 0 ∧ t.wp = 0 ∧ t.rpVis = 0 ∧ t.wpVis = 0 ∧ t.params = s.params ∧
        readableSpace t = 0 ∧ writableSpace t = cap.toNat - 1 ∧ sameEnvironment s t)

/-- R82 and the end of R83: neither `INIT` nor `DESTROY` writes `Ring`, whatever their answer. -/
def Obligations.LifecycleKeepsRingBytes : Prop :=
  ∀ (i : Instr) (s : State), ((∃ cap, i = .init cap) ∨ i = .destroy) →
    ∃ t, exec i s = .next t ∧ ∀ x, ringByte t x = ringByte s x

/-- R83: `DESTROY`. Its unit; `BADCMD` off `K`; `BADSTATE` in `UNINIT` or with a request pending at any port; else
`UNINIT` with `C`, the cursors and the views 0, `OK`; the bytes of `Ring` and the other ports' responses stay. -/
def Obligations.DestroyEndsTheBuffer : Prop :=
  ∀ s : State, portFree s s.port = true →
    encode .destroy = [0x04, 0, 0, 0] ∧
    (s.port ≠ .k → refusedWith .badCmd .destroy s) ∧
    (s.port = .k → s.mode = .uninit → refusedWith .badState .destroy s) ∧
    (s.port = .k → s.mode = .ready → somePending s → refusedWith .badState .destroy s) ∧
    (s.port = .k → s.mode = .ready → ¬ somePending s →
      ∃ t, exec .destroy s = .next t ∧ answered .k (bare .ok opDestroy) s t ∧ t.mode = .uninit ∧ t.cap = 0 ∧
        t.rp = 0 ∧ t.wp = 0 ∧ t.rpVis = 0 ∧ t.wpVis = 0 ∧ t.params = s.params ∧
        (∀ x, ringByte t x = ringByte s x) ∧ sameEnvironment s t)

/-- R84 and R42: `STATUS` on any port and in either mode answers `OK` with the register's value in the state before the
step, for the defined indices, and `BADARG` for the reserved ones; nothing else changes. -/
def Obligations.StatusAnswersTheRegister : Prop :=
  ∀ (reg : Byte) (s : State), portFree s s.port = true →
    encode (.status reg) = [0x06, reg, 0, 0] ∧
    (reg.toNat > 0x0E → refusedWith .badArg (.status reg) s) ∧
    (reg.toNat ≤ 0x0E → ∃ t v, exec (.status reg) s = .next t ∧
      answered s.port { status := .ok, ope := opStatus, value := v } s t ∧ sameBlock s t ∧ sameEnvironment s t ∧
      ∀ n, (registerTable s)[reg.toNat]? = some n → n < 2 ^ 64 → v.toNat = n)

/-! ## Write and read requests in their ISSUE step -/

/-- R85, the `ISSUE` part of `WRITE`: its unit; `BADCMD` off the producer ports; `BADSTATE` in `UNINIT`; `BADARG` for a
length the header cannot hold; else pending with the payload as given, and nothing else changes. -/
def Obligations.WriteBecomesPending : Prop :=
  ∀ (data : List Byte) (s : State), portFree s s.port = true →
    encode (.write data) = [0x02, 0, 0, 0] ++ leEncode 8 data.length ++ data ∧
    ((∀ n, s.port ≠ .p n) → refusedWith .badCmd (.write data) s) ∧
    (∀ n, s.port = .p n →
      (s.mode = .uninit → refusedWith .badState (.write data) s) ∧
      (s.mode = .ready → data.length > 2 ^ 64 - 1 → refusedWith .badArg (.write data) s) ∧
      (s.mode = .ready → data.length ≤ 2 ^ 64 - 1 → pendsAs (.write opWrite data) (.write data) s))

/-- R86, the `ISSUE` part of `WRITE_PKT`: its unit; `BADCMD` off the producer ports; `BADSTATE` in `UNINIT`; `BADARG`
when `24 + MLEN` does not fit the header; else pending with the application header before the message. -/
def Obligations.WritePktBecomesPending : Prop :=
  ∀ (src dst seq : Word) (msg : List Byte) (s : State), portFree s s.port = true →
    encode (.writePkt src dst seq msg) =
      [0x05, 0, 0, 0] ++ leEncode 8 src.toNat ++ leEncode 8 dst.toNat ++ leEncode 8 seq.toNat ++
        leEncode 8 msg.length ++ msg ∧
    ((∀ n, s.port ≠ .p n) → refusedWith .badCmd (.writePkt src dst seq msg) s) ∧
    (∀ n, s.port = .p n →
      (s.mode = .uninit → refusedWith .badState (.writePkt src dst seq msg) s) ∧
      (s.mode = .ready → msg.length > 2 ^ 64 - 25 → refusedWith .badArg (.writePkt src dst seq msg) s) ∧
      (s.mode = .ready → msg.length ≤ 2 ^ 64 - 25 →
        pendsAs (.write opWritePkt (leEncode 8 src.toNat ++ leEncode 8 dst.toNat ++ leEncode 8 seq.toNat ++ msg))
          (.writePkt src dst seq msg) s))

/-- R95, the `ISSUE` part of `READ`: its unit; `BADCMD` off the consumer ports; `BADSTATE` in `UNINIT`; else pending,
whatever the capacity, and nothing else changes. -/
def Obligations.ReadBecomesPending : Prop :=
  ∀ (cap : Word) (s : State), portFree s s.port = true →
    encode (.read cap) = [0x03, 0, 0, 0] ++ leEncode 8 cap.toNat ∧
    ((∀ n, s.port ≠ .q n) → refusedWith .badCmd (.read cap) s) ∧
    (∀ n, s.port = .q n →
      (s.mode = .uninit → refusedWith .badState (.read cap) s) ∧
      (s.mode = .ready → pendsAs (.read cap) (.read cap) s))

/-- R114: the checks are made in the spec's order, and the first that holds answers the request with nothing else
changed; a request that passes them all is not answered with `BADCMD`, `BADARG` or `BADSTATE`. -/
def Obligations.FirstFailingCheckAnswers : Prop :=
  ∀ (i : Instr) (s : State), portFree s s.port = true →
    (∀ st, firstFailing (checks i s) st → refusedWith st i s) ∧
    (allPass (checks i s) → ∃ t sl, exec i s = .next t ∧ slotOf t s.port = some sl ∧
      (∀ r, sl.rsp = some r → r.status = .ok ∧ sl.req = none) ∧
      (((∃ cap, i = .init cap) ∨ i = .destroy ∨ (∃ reg, i = .status reg)) ↔ sl.rsp ≠ none) ∧
      (sl.rsp = none → sl.req ≠ none))

/-- The frame of the requests that only queue or look: `WRITE`, `WRITE_PKT`, `READ` and `STATUS` leave the block's
registers, every byte of `Ring` and every other port's slots as they were, whatever the answer (R54, R113). -/
def Obligations.DataRequestsChangeOnlyTheirPort : Prop :=
  ∀ (i : Instr) (s : State), (∀ cap, i ≠ .init cap) → i ≠ .destroy →
    ∃ t, exec i s = .next t ∧ sameBlock s t ∧ sameOtherSlots s.port s t ∧ sameEnvironment s t

/-! ## The write arbiter -/

/-- R87 with R40: while a write is pending, `SERVE_W` is enabled exactly when the block is `READY` and the framed size
fits `C - 1 - dist(rp_vis, WP)`, and exactly one of `SERVE_W` and `TIMEOUT_W` is enabled. -/
def Obligations.WriteIsEligibleExactlyWhenItFits : Prop :=
  ∀ (s : State) (n : Nat) (sl : Slot) (op : BitVec 4) (payload : List Byte),
    slotOf s (.p n) = some sl → sl.req = some (.write op payload) →
    (enabled (.serveW n) s = true ↔
      (s.mode = .ready ∧ 8 + payload.length ≤ s.cap - 1 - ringDist s.cap s.rpVis s.wp)) ∧
    (enabled (.timeoutW n) s = true ↔ enabled (.serveW n) s = false)

/-- R88: a write commit stores the header, then the payload, each byte at its own offset mod `C`, moves `WP` past the
frame, at most once round, answers `OK`, and changes nothing else, no other byte of `Ring` among it. -/
def Obligations.ServeWriteCommitsTheFrame : Prop :=
  ∀ (s : State) (n : Nat) (sl : Slot) (op : BitVec 4) (payload : List Byte),
    slotOf s (.p n) = some sl → sl.req = some (.write op payload) → enabled (.serveW n) s = true →
    s.cap ≤ s.params.cMax → payload.length < 2 ^ 64 →
    ∃ t, runEvent (.serveW n) s = .next t ∧
      (∀ k, k < 8 → (ringByte t ((s.wp + k) % s.cap)).toNat = payload.length / 2 ^ (8 * k) % 256) ∧
      (∀ k, (h : k < payload.length) → ringByte t ((s.wp + 8 + k) % s.cap) = payload[k]) ∧
      (∀ x, (∀ k, k < 8 + payload.length → x ≠ (s.wp + k) % s.cap) → ringByte t x = ringByte s x) ∧
      t.wp = (s.wp + 8 + payload.length) % s.cap ∧ (s.wp < s.cap → s.wp + 8 + payload.length < 2 * s.cap) ∧
      answered (.p n) (bare .ok op) s t ∧ t.params = s.params ∧ t.mode = s.mode ∧ t.cap = s.cap ∧
      t.rp = s.rp ∧ t.rpVis = s.rpVis ∧ t.wpVis = s.wpVis ∧ sameEnvironment s t

/-- R89 with R55: `TIMEOUT_W` is enabled exactly while the pending write is not eligible; it answers `FULL`, and no byte,
cursor or view changes, nor the readable space. -/
def Obligations.TimeoutWriteAnswersFull : Prop :=
  ∀ (s : State) (n : Nat) (sl : Slot) (op : BitVec 4) (payload : List Byte),
    slotOf s (.p n) = some sl → sl.req = some (.write op payload) →
    (enabled (.timeoutW n) s = true ↔
      ¬ (s.mode = .ready ∧ 8 + payload.length ≤ s.cap - 1 - ringDist s.cap s.rpVis s.wp)) ∧
    (enabled (.timeoutW n) s = true →
      ∃ t, runEvent (.timeoutW n) s = .next t ∧ answered (.p n) (bare .full op) s t ∧ sameBlock s t ∧
        sameEnvironment s t ∧ readableSpace t = readableSpace s)

/-- R93: a write with `H + L > C - 1` is never eligible, whatever the ring holds, and can only be answered `FULL`. -/
def Obligations.OversizedWriteIsOnlyAnsweredFull : Prop :=
  ∀ (s : State) (n : Nat) (sl : Slot) (op : BitVec 4) (payload : List Byte),
    slotOf s (.p n) = some sl → sl.req = some (.write op payload) → 8 + payload.length > s.cap - 1 →
    enabled (.serveW n) s = false ∧
      ∃ t, runEvent (.timeoutW n) s = .next t ∧ answered (.p n) (bare .full op) s t ∧ sameBlock s t

/-! ## The read arbiter and the parser -/

/-- R96 with R40: of the three cases of a pending read, in the spec's own formulas, exactly one holds; `SERVE_R` is enabled
exactly in the first two and `TIMEOUT_R` exactly in the third. -/
def Obligations.ReadCasesAreExclusiveAndComplete : Prop :=
  ∀ (s : State) (n : Nat) (sl : Slot) (cap : Word),
    slotOf s (.q n) = some sl → sl.req = some (.read cap) → capInStorage s →
    (readUndersized s cap.toNat ∨ readEligible s cap.toNat ∨ readBlocked s cap.toNat) ∧
    ¬ (readUndersized s cap.toNat ∧ readEligible s cap.toNat) ∧
    ¬ (readUndersized s cap.toNat ∧ readBlocked s cap.toNat) ∧
    ¬ (readEligible s cap.toNat ∧ readBlocked s cap.toNat) ∧
    (enabled (.serveR n) s = true ↔ (readUndersized s cap.toNat ∨ readEligible s cap.toNat)) ∧
    (enabled (.timeoutR n) s = true ↔ readBlocked s cap.toNat)

/-- R97: an eligible read takes the head frame: the payload and its length in the response with the parser's fields, `RP`
past the frame, `OK`; `WP`, the views and every byte of `Ring` unchanged. -/
def Obligations.ServeReadTakesTheHeadFrame : Prop :=
  ∀ (s : State) (n : Nat) (sl : Slot) (cap : Word),
    slotOf s (.q n) = some sl → sl.req = some (.read cap) → capInStorage s → readEligible s cap.toNat →
    ∃ t r, runEvent (.serveR n) s = .next t ∧ answered (.q n) r s t ∧ r.status = .ok ∧ r.ope = opRead ∧
      r.len.toNat = lHead s ∧ r.data = memRead s ((s.rp + 8) % s.cap) (lHead s) ∧
      r.pstat = (parse s.params r.data).pstat ∧ r.src = (parse s.params r.data).src ∧
      r.dst = (parse s.params r.data).dst ∧ r.seq = (parse s.params r.data).seq ∧
      r.mlen = (parse s.params r.data).mlen ∧ r.value = 0 ∧ t.rp = (s.rp + 8 + lHead s) % s.cap ∧
      t.params = s.params ∧ t.mode = s.mode ∧ t.cap = s.cap ∧ t.wp = s.wp ∧ t.rpVis = s.rpVis ∧
      t.wpVis = s.wpVis ∧ (∀ x, ringByte t x = ringByte s x) ∧ sameEnvironment s t

/-- R98: an undersized read is answered `UNDERSIZED` with the head frame's length, and nothing is consumed. -/
def Obligations.UndersizedReadConsumesNothing : Prop :=
  ∀ (s : State) (n : Nat) (sl : Slot) (cap : Word),
    slotOf s (.q n) = some sl → sl.req = some (.read cap) → capInStorage s → readUndersized s cap.toNat →
    ∃ t v, runEvent (.serveR n) s = .next t ∧
      answered (.q n) { status := .undersized, ope := opRead, len := v } s t ∧ v.toNat = lHead s ∧
      sameBlock s t ∧ sameEnvironment s t

/-- R99: `TIMEOUT_R` is enabled exactly while the pending read is blocked; it answers `EMPTY`, and nothing else changes. -/
def Obligations.TimeoutReadAnswersEmpty : Prop :=
  ∀ (s : State) (n : Nat) (sl : Slot) (cap : Word),
    slotOf s (.q n) = some sl → sl.req = some (.read cap) → capInStorage s →
    (enabled (.timeoutR n) s = true ↔ readBlocked s cap.toNat) ∧
    (readBlocked s cap.toNat →
      ∃ t, runEvent (.timeoutR n) s = .next t ∧ answered (.q n) (bare .empty opRead) s t ∧ sameBlock s t ∧
        sameEnvironment s t)

/-- R103: an undersized answer does not move the head: the head frame's length stays, every other pending read meets the
same case as before, and one too small for the head frame is answered `UNDERSIZED` in its turn. -/
def Obligations.UndersizedAnswerLeavesTheHead : Prop :=
  ∀ (s t : State) (n m : Nat) (sl sl' : Slot) (cap cap' : Word),
    slotOf s (.q n) = some sl → sl.req = some (.read cap) → capInStorage s → readUndersized s cap.toNat → m ≠ n →
    slotOf s (.q m) = some sl' → sl'.req = some (.read cap') → runEvent (.serveR n) s = .next t →
    t.rp = s.rp ∧ lHead t = lHead s ∧ (readEligible t cap'.toNat ↔ readEligible s cap'.toNat) ∧
      (cap'.toNat < lHead s → ∃ u v, runEvent (.serveR m) t = .next u ∧
        answered (.q m) { status := .undersized, ope := opRead, len := v } t u ∧ v.toNat = lHead s ∧ u.rp = s.rp)

/-- R105: a payload shorter than the application header sets `SHORT` alone and gives zero fields; it is still returned
whole. -/
def Obligations.ShortPayloadParsesToZeroFields : Prop :=
  ∀ (p : Config.Params) (data : List Byte), data.length < 24 →
    parse p data =
      { pstat := { short := true, srcOor := false, dstOor := false }, src := 0, dst := 0, seq := 0, mlen := 0 } ∧
    (readResponse p data).data = data

/-- R106 and R107: a payload with a whole application header gives its three fields, the message length, and the
out-of-range flags. -/
def Obligations.PacketFieldsAndPortFlags : Prop :=
  ∀ (p : Config.Params) (data : List Byte), 24 ≤ data.length → data.length < 2 ^ 64 →
    let d := parse p data
    d.pstat.short = false ∧ d.src.toNat = leDecode (data.take 8) ∧ d.dst.toNat = leDecode ((data.drop 8).take 8) ∧
    d.seq.toNat = leDecode ((data.drop 16).take 8) ∧ d.mlen.toNat = data.length - 24 ∧
    (d.pstat.srcOor = true ↔ (d.src.toNat < p.portMin ∨ d.src.toNat > p.portMax)) ∧
    (d.pstat.dstOor = true ↔ (d.dst.toNat < p.portMin ∨ d.dst.toNat > p.portMax))

/-! ## Visibility and space -/

/-- R61: a commit is not visible to the other side until that side's synchronisation step: a write commit leaves
`rd_avail` as it was and `SYNC_R` then brings it to the readable space; likewise for a read commit and `wr_avail`. -/
def Obligations.CommitsBecomeVisibleOnlyBySync : Prop :=
  ∀ s t : State,
    (∀ n, runEvent (.serveW n) s = .next t → rdAvail t = rdAvail s) ∧
    (∀ n, runEvent (.serveR n) s = .next t → wrAvail t = wrAvail s) ∧
    (s.mode = .ready → runEvent .syncR s = .next t → rdAvail t = readableSpace s ∧ readableSpace t = readableSpace s) ∧
    (s.mode = .ready → runEvent .syncW s = .next t → wrAvail t = writableSpace s ∧ writableSpace t = writableSpace s)

/-- R31: readable and writable space add up to `C - 1`, neither exceeds it, and equal cursors mean an empty ring, never a
full one. -/
def Obligations.SpaceAddsUpToCapacityLessOne : Prop :=
  ∀ s : State, BlockInv s → s.mode = .ready →
    readableSpace s + writableSpace s = s.cap - 1 ∧ readableSpace s ≤ s.cap - 1 ∧
      (s.rp = s.wp ↔ readableSpace s = 0) ∧ (s.rp = s.wp → writableSpace s ≠ 0)

/-- R29: the two views' spaces, and neither side's view shows it more than there is. -/
def Obligations.ViewsOnlyUnderReport : Prop :=
  ∀ s : State, wrAvail s = s.cap - 1 - ringDist s.cap s.rpVis s.wp ∧ rdAvail s = ringDist s.cap s.rp s.wpVis ∧
    (BlockInv s → s.mode = .ready → wrAvail s ≤ writableSpace s ∧ rdAvail s ≤ readableSpace s)

/-- R92 and R102: a commit moves exactly its framed size from one space to the other, and they still add up. -/
def Obligations.CommitsMoveTheFramedSize : Prop :=
  ∀ s t : State, BlockInv s →
    (∀ n op payload, pendingWrite s n = some (op, payload) → enabled (.serveW n) s = true →
      runEvent (.serveW n) s = .next t →
      readableSpace t = readableSpace s + (8 + payload.length) ∧
        writableSpace s = writableSpace t + (8 + payload.length) ∧
        readableSpace t + writableSpace t = t.cap - 1) ∧
    (∀ n cap, pendingRead s n = some cap → readEligible s cap.toNat → runEvent (.serveR n) s = .next t →
      readableSpace s = readableSpace t + (8 + lHead s) ∧ writableSpace t = writableSpace s + (8 + lHead s) ∧
        readableSpace t + writableSpace t = t.cap - 1)

/-- R48: the offsets a write commit writes and the offsets the read side may read never meet. -/
def Obligations.WritesNeverTouchReadableBytes : Prop :=
  ∀ (s : State) (n : Nat) (op : BitVec 4) (payload : List Byte), BlockInv s →
    pendingWrite s n = some (op, payload) → enabled (.serveW n) s = true →
    ∀ k m, k < 8 + payload.length → m < ringDist s.cap s.rp s.wpVis →
      (s.wp + k) % s.cap ≠ (s.rp + m) % s.cap

/-- R43 and R140: no byte the read side may read is an unspecified one: each has been written by a write commit, and by
one of this buffer's life. After any run from an empty ring, the one `INIT` leaves among them, that neither resets nor
destroys it, every offset the read side may read is one the run's own write commits have written. -/
def Obligations.ReadableBytesHaveBeenWritten : Prop :=
  (∀ s : State, BlockInv s → s.mode = .ready →
    ∀ k, k < ringDist s.cap s.rp s.wpVis → ∃ b, ringLookup s.ring ((s.rp + k) % s.cap) = some b) ∧
  ∀ (es : List Event) (s : State), BlockInv s → s.mode = .ready → s.rp = s.wp → (∀ e ∈ es, keepsBuffer e) →
    ∃ t, runEvents es s = .next t ∧
      ∀ k, k < ringDist t.cap t.rp t.wpVis → (t.rp + k) % t.cap ∈ storedBy es s

/-- R101: when a header is visible, its whole frame is, so a read is blocked only while no header is visible. -/
def Obligations.VisibleHeaderMeansVisibleFrame : Prop :=
  ∀ s : State, BlockInv s →
    (headVis s → ringDist s.cap s.rp s.wpVis ≥ 8 + lHead s) ∧ ∀ cap : Nat, readBlocked s cap ↔ ¬ headVis s

/-- R23: the read side decides everything from `RP` and `wp_vis` and never reads `WP`; the write side from `WP` and
`rp_vis`, never from `RP`: with any other value in the cursor the side does not read, its steps are enabled alike and do
the same. -/
def Obligations.EachSideDecidesFromItsView : Prop :=
  ∀ (s t : State) (n x : Nat),
    (∀ e ∈ [Event.serveR n, .timeoutR n], enabled e { s with wp := x } = enabled e s ∧
      (runEvent e s = .next t → runEvent e { s with wp := x } = .next { t with wp := x })) ∧
    (∀ e ∈ [Event.serveW n, .timeoutW n], enabled e { s with rp := x } = enabled e s ∧
      (runEvent e s = .next t → runEvent e { s with rp := x } = .next { t with rp := x }))

/-- R12: no step reads `MESSAGE_SIZE`: with any other value of it every step is enabled alike and does the same. -/
def Obligations.NoStepReadsMessageSize : Prop :=
  ∀ (e : Event) (s t : State) (x : Nat),
    enabled e (withMessageSize x s) = enabled e s ∧
      (runEvent e s = .next t → runEvent e (withMessageSize x s) = .next (withMessageSize x t))

/-! ## Who writes what -/

/-- R19 to R23 over every step of every agent: the mode and the capacity are written only by `INIT`, `DESTROY` and
reset; `Ring` only by a write commit (reset leaves it unspecified); `WP`, `RP` and the views each only by their own
step, `INIT`, `DESTROY` and reset; the parameters by nothing. -/
def Obligations.EachElementHasItsWriters : Prop :=
  ∀ (e : Event) (s t : State), runEvent e s = .next t → e ≠ .reset →
    (∀ unit cap, e = .issue .k unit → decode unit ≠ .ok (.init cap) ∧ decode unit ≠ .ok .destroy) →
    t.params = s.params ∧ t.mode = s.mode ∧ t.cap = s.cap ∧
    ((∀ n, e ≠ .serveW n) → t.wp = s.wp ∧ t.ring = s.ring) ∧
    ((∀ n, e ≠ .serveR n) → t.rp = s.rp) ∧
    (e ≠ .syncR → t.wpVis = s.wpVis) ∧ (e ≠ .syncW → t.rpVis = s.rpVis)

/-- R112 and R123: a step that names a port leaves the slots of every other port as they were. -/
def Obligations.StepsLeaveOtherPortsAlone : Prop :=
  ∀ (e : Event) (p : Port) (s t : State), runEvent e s = .next t →
    ((∃ unit, e = .issue p unit) ∨ e = .take p ∨ e ∈ answers p) → sameOtherSlots p s t

/-- R120: no step gives a port another class or makes or removes a port. -/
def Obligations.PortsAreFixed : Prop :=
  ∀ s t : State, BlockInv s → step s = .next t →
    t.params = s.params ∧ ∀ p, (slotOf t p).isSome = (slotOf s p).isSome

/-! ## Invariants -/

/-- The reset state of every build meets the invariant (R43). -/
def Obligations.ResetMeetsTheInvariant : Prop :=
  ∀ p : Config.Params, p.valid = true → BlockInv (State.resetWith p)

/-- Every step keeps the invariant: R20, R22 to R24, R30, R32, R33, R34 and the storage's canonical form, from every
state that meets it and whatever step the schedule takes. -/
def Obligations.EveryStepKeepsTheInvariant : Prop :=
  ∀ s t : State, BlockInv s → step s = .next t → BlockInv t

/-- R126: the machine neither faults nor refuses from a state that meets the invariant, whatever step the schedule
takes. -/
def Obligations.NoFaultAndNoRefusal : Prop :=
  ∀ s : State, BlockInv s → ∃ t, step s = .next t

/-! ## The queue of frames -/

/-- R56, R57 and R58: the ring is a first-in first-out queue of payloads. A write commit appends its payload, out of the
read side's sight; `SYNC_R` brings all of it into sight; a read commit takes the oldest payload in sight and returns
exactly it; an undersized answer takes none and reports that payload's length; no other step but `INIT`, `DESTROY` and
reset changes the queue. -/
def Obligations.RingIsAQueueOfFrames : Prop :=
  ∀ (s t : State) (e : Event) (seen unseen : List (List Byte)), BlockInv s → s.mode = .ready →
    holdsQueue s seen unseen → enabled e s = true → runEvent e s = .next t →
    (∀ n op payload, e = .serveW n → pendingWrite s n = some (op, payload) →
      holdsQueue t seen (unseen ++ [payload])) ∧
    (e = .syncR → holdsQueue t (seen ++ unseen) []) ∧
    (∀ n cap, e = .serveR n → pendingRead s n = some cap →
      ∃ f rest, seen = f :: rest ∧
        (f.length ≤ cap.toNat → holdsQueue t rest unseen ∧
          ∃ r, slotOf t (.q n) = some { req := none, rsp := some r } ∧ r.status = .ok ∧ r.data = f ∧
            r.len.toNat = f.length) ∧
        (f.length > cap.toNat → holdsQueue t seen unseen ∧
          ∃ r, slotOf t (.q n) = some { req := none, rsp := some r } ∧ r.status = .undersized ∧
            r.len.toNat = f.length)) ∧
    ((∀ n, e ≠ .serveW n) → (∀ n, e ≠ .serveR n) → e ≠ .syncR → e ≠ .reset →
      (∀ unit cap, e = .issue .k unit → decode unit ≠ .ok (.init cap) ∧ decode unit ≠ .ok .destroy) →
      holdsQueue t seen unseen)

/-- R56 and R57: over any run from an empty ring that neither resets nor destroys it, the payloads the read commits return
are the payloads the write commits stored, in the order of their commits, byte for byte; what has not been returned is
what the ring still holds, in that order. -/
def Obligations.ReadCommitsReturnTheWriteCommits : Prop :=
  ∀ (es : List Event) (s : State), BlockInv s → s.mode = .ready → s.rp = s.wp →
    (∀ e ∈ es, keepsBuffer e) →
    ∃ t resident, runEvents es s = .next t ∧ writtenBy es s = returnedBy es s ++ resident ∧
      ∃ seen unseen, resident = seen ++ unseen ∧ holdsQueue t seen unseen

/-- R109: a packet written by `WRITE_PKT` on any producer port of an empty, synchronised ring in which it fits is
returned by a `READ` on any consumer port with enough capacity: the fields, the flags, the payload. -/
def Obligations.PacketRoundTrip : Prop :=
  ∀ (s : State) (n m : Nat) (src dst seq cap : Word) (msg : List Byte), BlockInv s → s.mode = .ready →
    portFree s (.p n) = true → portFree s (.q m) = true → s.rp = s.wp → s.rpVis = s.rp →
    8 + (24 + msg.length) ≤ s.cap - 1 → 24 + msg.length ≤ cap.toNat →
    ∃ t r,
      runEvents [.issue (.p n) (encode (.writePkt src dst seq msg)), .serveW n, .syncR,
        .issue (.q m) (encode (.read cap)), .serveR m] s = .next t ∧
      slotOf t (.p n) = some { req := none, rsp := some (bare .ok opWritePkt) } ∧
      slotOf t (.q m) = some { req := none, rsp := some r } ∧ r.status = .ok ∧ r.ope = opRead ∧
      r.len.toNat = 24 + msg.length ∧ r.src = src ∧ r.dst = dst ∧ r.seq = seq ∧ r.mlen.toNat = msg.length ∧
      r.data = leEncode 8 src.toNat ++ leEncode 8 dst.toNat ++ leEncode 8 seq.toNat ++ msg ∧
      r.pstat.short = false ∧
      (r.pstat.srcOor = true ↔ (src.toNat < s.params.portMin ∨ src.toNat > s.params.portMax)) ∧
      (r.pstat.dstOor = true ↔ (dst.toNat < s.params.portMin ∨ dst.toNat > s.params.portMax)) ∧
      t.rp = t.wp ∧ t.wp = (s.wp + 8 + (24 + msg.length)) % s.cap

/-! ## Every request is answered -/

/-- R85 with R88, R86 with R88, and R95 with R97, from the request to its answer: an accepted `WRITE` or `WRITE_PKT` whose
frame fits, served next, is answered `OK` with its frame in the ring behind the old `WP`; an accepted `READ` of the head
frame with enough capacity, served next, is answered `OK` with that frame's payload. -/
def Obligations.DataRequestsComplete : Prop :=
  ∀ s : State, BlockInv s → s.mode = .ready → portFree s s.port = true →
    (∀ n data, s.port = .p n → 8 + data.length ≤ s.cap - 1 - ringDist s.cap s.rpVis s.wp →
      ∃ t u, exec (.write data) s = .next t ∧ runEvent (.serveW n) t = .next u ∧
        answered (.p n) (bare .ok opWrite) s u ∧
        memRead u s.wp (8 + data.length) = leEncode 8 data.length ++ data ∧
        u.wp = (s.wp + 8 + data.length) % s.cap ∧ u.rp = s.rp) ∧
    (∀ n src dst seq msg, s.port = .p n →
      8 + (24 + msg.length) ≤ s.cap - 1 - ringDist s.cap s.rpVis s.wp →
      ∃ t u, exec (.writePkt src dst seq msg) s = .next t ∧ runEvent (.serveW n) t = .next u ∧
        answered (.p n) (bare .ok opWritePkt) s u ∧
        memRead u s.wp (8 + (24 + msg.length)) = leEncode 8 (24 + msg.length) ++ leEncode 8 src.toNat ++
          leEncode 8 dst.toNat ++ leEncode 8 seq.toNat ++ msg ∧
        u.wp = (s.wp + 8 + (24 + msg.length)) % s.cap ∧ u.rp = s.rp) ∧
    (∀ n cap, s.port = .q n → headVis s → lHead s ≤ cap.toNat →
      ∃ t u r, exec (.read cap) s = .next t ∧ runEvent (.serveR n) t = .next u ∧ answered (.q n) r s u ∧
        r.status = .ok ∧ r.len.toNat = lHead s ∧ r.data = memRead s (s.rp + 8) (lHead s) ∧
        u.rp = (s.rp + 8 + lHead s) % s.cap ∧ u.wp = s.wp)

/-- R40: in every state that meets the invariant, exactly one of the two steps that answer a pending request is enabled,
and taking it ends the request with a response. -/
def Obligations.PendingRequestsAlwaysHaveAnAnswer : Prop :=
  ∀ (s : State) (p : Port) (sl : Slot), BlockInv s → slotOf s p = some sl → sl.req ≠ none →
    ∃ e ∈ answers p, enabled e s = true ∧ (∀ e' ∈ answers p, enabled e' s = true → e' = e) ∧
      ∃ t r, runEvent e s = .next t ∧ slotOf t p = some { req := none, rsp := some r }

/-- R39 with R40: in every run in which `ANSWER(p)` is weakly fair, so in every fair run, a request pending at `p` stays
pending until a `SERVE` or `TIMEOUT` step of `p` answers it, or a reset discards it without an answer (R127); and one of
the two happens. -/
def Obligations.FairRunsAnswerEveryRequest : Prop :=
  ∀ (σ : Nat → Event) (s : State) (p : Port) (sl : Slot), BlockInv s → slotOf s p = some sl → sl.req ≠ none →
    weaklyFair (answers p) σ s →
    ∃ n, (∀ m, m ≤ n → ∃ sl', slotOf (stateAt σ s m) p = some sl' ∧ sl'.req = sl.req) ∧
      (σ n = .reset ∨
        (σ n ∈ answers p ∧ ∃ r, slotOf (stateAt σ s (n + 1)) p = some { req := none, rsp := some r }))

/-- R39 with R38: in every fair run the synchronisers keep up: from every point on there is a later one at which the read
side's view is the write cursor, and one at which the write side's view is the read cursor. -/
def Obligations.FairRunsBringEveryCommitInSight : Prop :=
  ∀ (σ : Nat → Event) (s : State), BlockInv s → fairRun σ s →
    ∀ k, (∃ n, k ≤ n ∧ (stateAt σ s n).wpVis = (stateAt σ s n).wp) ∧
      ∃ n, k ≤ n ∧ (stateAt σ s n).rpVis = (stateAt σ s n).rp

/-- The runs that fairness speaks of are the machine's own: with the first `n` steps of a run scheduled, `n` steps of
`step` take the machine to the run's `n`-th state. The schedule is the model's own: log entry 2. -/
def Obligations.RunsAreRunsOfStep : Prop :=
  ∀ (σ : Nat → Event) (s : State) (n : Nat), BlockInv s →
    steps n (scheduleFirst σ n s) = .next (stateAt σ s n)

/-- R86: once pending, a `WRITE_PKT` is a `WRITE` of its assembled payload: with one in the place of the other, the same
steps are enabled and the write arbiter's step leaves the same ring, cursors, views and other ports' slots; the answers
differ only in the echoed `OP`. -/
def Obligations.PendingWritesDifferOnlyInTheEcho : Prop :=
  ∀ (s : State) (n : Nat) (payload : List Byte) (e : Event), n < s.portsP.length → e ∈ answers (.p n) →
    let a := withSlot s (.p n) { req := some (.write opWrite payload) }
    let b := withSlot s (.p n) { req := some (.write opWritePkt payload) }
    (enabled e a = enabled e b) ∧
    ∀ t u, enabled e a = true → runEvent e a = .next t → runEvent e b = .next u →
      u.ring = t.ring ∧ u.wp = t.wp ∧ sameBlock t u ∧ sameOtherSlots (.p n) t u ∧
      ∃ r, slotOf t (.p n) = some { req := none, rsp := some r } ∧ r.ope = opWrite ∧
        slotOf u (.p n) = some { req := none, rsp := some { r with ope := opWritePkt } }
end

