-- ==== Sys2Proof/Laws/Bytes.lean ====
section
/-! SUPPORT. The little-endian coding (R14): length, bytes, and both round trips. -/

namespace Sys2Proof

@[simp] theorem leEncode_length (n v : Nat) : (leEncode n v).length = n := by
  induction n generalizing v with
  | zero => rfl
  | succ n ih => simp [leEncode, ih]

theorem leDecode_lt (bytes : List Byte) : leDecode bytes < 2 ^ (8 * bytes.length) := by
  induction bytes with
  | nil => simp [leDecode]
  | cons b bs ih =>
    have hb := b.isLt
    have : 2 ^ (8 * (b :: bs).length) = 256 * 2 ^ (8 * bs.length) := by
      rw [List.length_cons, Nat.mul_add, Nat.pow_add]; omega
    simp only [leDecode]
    omega

theorem leDecode_leEncode (n v : Nat) : leDecode (leEncode n v) = v % 2 ^ (8 * n) := by
  induction n generalizing v with
  | zero => simp [leEncode, leDecode, Nat.mod_one]
  | succ n ih =>
    have : 2 ^ (8 * (n + 1)) = 256 * 2 ^ (8 * n) := by rw [Nat.mul_add, Nat.pow_add]; omega
    simp only [leEncode, leDecode, ih, this, BitVec.toNat_ofNat, Nat.mod_mul]

theorem leDecode_leEncode_of_lt {n v : Nat} (h : v < 2 ^ (8 * n)) : leDecode (leEncode n v) = v := by
  rw [leDecode_leEncode, Nat.mod_eq_of_lt h]

theorem leEncode_leDecode (bytes : List Byte) : leEncode bytes.length (leDecode bytes) = bytes := by
  induction bytes with
  | nil => rfl
  | cons b bs ih =>
    have hb := b.isLt
    simp only [List.length_cons, leEncode, leDecode]
    congr 1
    · apply BitVec.eq_of_toNat_eq
      simp
      omega
    · rw [show (b.toNat + 256 * leDecode bs) / 256 = leDecode bs by omega, ih]

/-- Byte `k` of `le_encode_n(v)` (R14). -/
theorem leEncode_getElem? {n v k : Nat} (h : k < n) :
    (leEncode n v)[k]? = some (BitVec.ofNat 8 (v / 2 ^ (8 * k))) := by
  induction n generalizing v k with
  | zero => omega
  | succ n ih =>
    cases k with
    | zero => simp [leEncode]
    | succ k =>
      rw [leEncode, List.getElem?_cons_succ, ih (by omega), Nat.div_div_eq_div_mul]
      congr 3
      rw [Nat.mul_add, Nat.pow_add, Nat.mul_comm]

theorem leDecode_append (a b : List Byte) : leDecode (a ++ b) = leDecode a + 2 ^ (8 * a.length) * leDecode b := by
  induction a with
  | nil => simp [leDecode]
  | cons x xs ih =>
    have : 2 ^ (8 * (x :: xs).length) = 256 * 2 ^ (8 * xs.length) := by
      rw [List.length_cons, Nat.mul_add, Nat.pow_add]; omega
    simp only [List.cons_append, leDecode, ih, this]
    ring

theorem word_leEncode (w : Word) : leDecode (leEncode 8 w.toNat) = w.toNat :=
  leDecode_leEncode_of_lt (by simpa using w.isLt)

end Sys2Proof
end

