-- ==== Sys2Proof/Laws/State.lean ====
section
/-! SUPPORT. The small lemmas of the state's updates: what each field is after `withSlot`, `respond` and the schedule's pop, and what the slots of each port are. Later proofs use these and never unfold an update. -/

namespace Sys2Proof
namespace Machine

/-! Fields after the slots of one port are replaced. -/

@[simp] theorem withSlot_params (s : State) (p : Port) (sl : Slot) : (withSlot s p sl).params = s.params := by
  cases p <;> rfl

@[simp] theorem withSlot_mode (s : State) (p : Port) (sl : Slot) : (withSlot s p sl).mode = s.mode := by
  cases p <;> rfl

@[simp] theorem withSlot_cap (s : State) (p : Port) (sl : Slot) : (withSlot s p sl).cap = s.cap := by
  cases p <;> rfl

@[simp] theorem withSlot_ring (s : State) (p : Port) (sl : Slot) : (withSlot s p sl).ring = s.ring := by
  cases p <;> rfl

@[simp] theorem withSlot_rp (s : State) (p : Port) (sl : Slot) : (withSlot s p sl).rp = s.rp := by
  cases p <;> rfl

@[simp] theorem withSlot_wp (s : State) (p : Port) (sl : Slot) : (withSlot s p sl).wp = s.wp := by
  cases p <;> rfl

@[simp] theorem withSlot_rpVis (s : State) (p : Port) (sl : Slot) : (withSlot s p sl).rpVis = s.rpVis := by
  cases p <;> rfl

@[simp] theorem withSlot_wpVis (s : State) (p : Port) (sl : Slot) : (withSlot s p sl).wpVis = s.wpVis := by
  cases p <;> rfl

@[simp] theorem withSlot_port (s : State) (p : Port) (sl : Slot) : (withSlot s p sl).port = s.port := by
  cases p <;> rfl

@[simp] theorem withSlot_sched (s : State) (p : Port) (sl : Slot) : (withSlot s p sl).sched = s.sched := by
  cases p <;> rfl

@[simp] theorem withSlot_out (s : State) (p : Port) (sl : Slot) : (withSlot s p sl).out = s.out := by
  cases p <;> rfl

@[simp] theorem withSlot_draws (s : State) (p : Port) (sl : Slot) : (withSlot s p sl).draws = s.draws := by
  cases p <;> rfl

@[simp] theorem withSlot_ringDraw (s : State) (p : Port) (sl : Slot) : (withSlot s p sl).ringDraw = s.ringDraw := by
  cases p <;> rfl

/-! Fields after an answer. -/

@[simp] theorem respond_params (s : State) (p : Port) (r : Response) : (respond s p r).params = s.params := by
  simp [respond]

@[simp] theorem respond_mode (s : State) (p : Port) (r : Response) : (respond s p r).mode = s.mode := by
  simp [respond]

@[simp] theorem respond_cap (s : State) (p : Port) (r : Response) : (respond s p r).cap = s.cap := by
  simp [respond]

@[simp] theorem respond_ring (s : State) (p : Port) (r : Response) : (respond s p r).ring = s.ring := by
  simp [respond]

@[simp] theorem respond_rp (s : State) (p : Port) (r : Response) : (respond s p r).rp = s.rp := by
  simp [respond]

@[simp] theorem respond_wp (s : State) (p : Port) (r : Response) : (respond s p r).wp = s.wp := by
  simp [respond]

@[simp] theorem respond_rpVis (s : State) (p : Port) (r : Response) : (respond s p r).rpVis = s.rpVis := by
  simp [respond]

@[simp] theorem respond_wpVis (s : State) (p : Port) (r : Response) : (respond s p r).wpVis = s.wpVis := by
  simp [respond]

@[simp] theorem respond_port (s : State) (p : Port) (r : Response) : (respond s p r).port = s.port := by
  simp [respond]

@[simp] theorem respond_sched (s : State) (p : Port) (r : Response) : (respond s p r).sched = s.sched := by
  simp [respond]

@[simp] theorem respond_out (s : State) (p : Port) (r : Response) : (respond s p r).out = s.out := by
  simp [respond]

@[simp] theorem respond_draws (s : State) (p : Port) (r : Response) : (respond s p r).draws = s.draws := by
  simp [respond]

@[simp] theorem respond_ringDraw (s : State) (p : Port) (r : Response) : (respond s p r).ringDraw = s.ringDraw := by
  simp [respond]

/-! Slots. -/

/-- Replacing the slots of a port the block has. -/
theorem slotOf_withSlot_self {s : State} {p : Port} {old : Slot} (sl : Slot) (h : slotOf s p = some old) :
    slotOf (withSlot s p sl) p = some sl := by
  cases p with
  | k => rfl
  | p i =>
    obtain ⟨hi, -⟩ := List.getElem?_eq_some_iff.1 (show s.portsP[i]? = some old from h)
    simp [slotOf, withSlot, hi]
  | q j =>
    obtain ⟨hj, -⟩ := List.getElem?_eq_some_iff.1 (show s.portsQ[j]? = some old from h)
    simp [slotOf, withSlot, hj]

/-- Replacing the slots of one port leaves those of every other. -/
theorem slotOf_withSlot_ne (s : State) {p q : Port} (sl : Slot) (h : q ≠ p) :
    slotOf (withSlot s p sl) q = slotOf s q := by
  cases p <;> cases q <;> simp_all [slotOf, withSlot, Ne.symm]

/-- Replacing slots neither makes nor removes a port. -/
theorem slotOf_withSlot_isSome (s : State) (p q : Port) (sl : Slot) :
    (slotOf (withSlot s p sl) q).isSome = (slotOf s q).isSome := by
  by_cases h : q = p
  · subst h
    cases hs : slotOf s q with
    | some old => simp [slotOf_withSlot_self sl hs]
    | none => cases q <;> simp_all [slotOf, withSlot]
  · rw [slotOf_withSlot_ne s sl h]

/-- The slots of a state are those of any state with the same slot fields. -/
theorem slotOf_congr {s t : State} (hk : t.portK = s.portK) (hp : t.portsP = s.portsP) (hq : t.portsQ = s.portsQ)
    (p : Port) : slotOf t p = slotOf s p := by
  cases p <;> simp [slotOf, hk, hp, hq]

@[simp] theorem withSlot_portsP_length (s : State) (p : Port) (sl : Slot) :
    (withSlot s p sl).portsP.length = s.portsP.length := by
  cases p <;> simp [withSlot]

@[simp] theorem withSlot_portsQ_length (s : State) (p : Port) (sl : Slot) :
    (withSlot s p sl).portsQ.length = s.portsQ.length := by
  cases p <;> simp [withSlot]

/-- A port is free exactly when it exists and both its slots are empty (R36). -/
theorem portFree_iff (s : State) (p : Port) : portFree s p = true ↔ slotOf s p = some {} := by
  simp [portFree]

/-- `respond` fills the response slot and empties the request slot of a port the block has (R26). -/
theorem slotOf_respond_self {s : State} {p : Port} {old : Slot} (r : Response) (h : slotOf s p = some old) :
    slotOf (respond s p r) p = some { req := none, rsp := some r } :=
  slotOf_withSlot_self _ h

theorem slotOf_respond_ne (s : State) {p q : Port} (r : Response) (h : q ≠ p) :
    slotOf (respond s p r) q = slotOf s q :=
  slotOf_withSlot_ne s _ h

/-! Reset. -/

@[simp] theorem resetWith_params (p : Config.Params) : (State.resetWith p).params = p := rfl

@[simp] theorem resetWith_mode (p : Config.Params) : (State.resetWith p).mode = .uninit := rfl

@[simp] theorem resetWith_cap (p : Config.Params) : (State.resetWith p).cap = 0 := rfl

@[simp] theorem resetWith_ring (p : Config.Params) : (State.resetWith p).ring = [] := rfl

@[simp] theorem resetWith_rp (p : Config.Params) : (State.resetWith p).rp = 0 := rfl

@[simp] theorem resetWith_wp (p : Config.Params) : (State.resetWith p).wp = 0 := rfl

@[simp] theorem resetWith_rpVis (p : Config.Params) : (State.resetWith p).rpVis = 0 := rfl

@[simp] theorem resetWith_wpVis (p : Config.Params) : (State.resetWith p).wpVis = 0 := rfl

@[simp] theorem resetWith_portK (p : Config.Params) : (State.resetWith p).portK = {} := rfl

@[simp] theorem resetWith_portsP (p : Config.Params) : (State.resetWith p).portsP = List.replicate p.nW {} := rfl

@[simp] theorem resetWith_portsQ (p : Config.Params) : (State.resetWith p).portsQ = List.replicate p.nR {} := rfl

end Machine
end Sys2Proof
end

