-- ==== Sys2Proof/Laws/Answers.lean ====
section
/-! SUPPORT. What the shared operations `respond`, `raise` and `pend` do (R17, R26, R36), said once, and what they leave unchanged. -/

namespace Sys2Proof
namespace Machine

@[simp] theorem slotOf_withPort (s : State) (p q : Port) : slotOf { s with port := p } q = slotOf s q :=
  slotOf_congr rfl rfl rfl q

@[simp] theorem ringByte_withSlot (s : State) (p : Port) (sl : Slot) (x : Nat) :
    ringByte (withSlot s p sl) x = ringByte s x := by
  simp [ringByte]

@[simp] theorem ringByte_respond (s : State) (p : Port) (r : Response) (x : Nat) :
    ringByte (respond s p r) x = ringByte s x := by
  simp [respond]

theorem sameBlock_withSlot (s : State) (p : Port) (sl : Slot) : sameBlock s (withSlot s p sl) := by
  simp [sameBlock]

theorem sameEnvironment_withSlot (s : State) (p : Port) (sl : Slot) : sameEnvironment s (withSlot s p sl) := by
  simp [sameEnvironment]

theorem sameBlock_respond (s : State) (p : Port) (r : Response) : sameBlock s (respond s p r) :=
  sameBlock_withSlot s p _

theorem sameEnvironment_respond (s : State) (p : Port) (r : Response) : sameEnvironment s (respond s p r) :=
  sameEnvironment_withSlot s p _

theorem sameOtherSlots_withSlot (s : State) (p : Port) (sl : Slot) : sameOtherSlots p s (withSlot s p sl) :=
  fun _ hq => slotOf_withSlot_ne s sl hq

/-- `respond` answers the request of a port the block has (R26). -/
theorem answered_respond {s : State} {p : Port} {old : Slot} (r : Response) (h : slotOf s p = some old) :
    answered p r s (respond s p r) :=
  ⟨slotOf_respond_self r h, fun _ hq => slotOf_respond_ne s r hq⟩

/-- The same, from a state `u` that differs from `s` in no slot. -/
theorem answered_respond_of {s u : State} {p : Port} {old : Slot} (r : Response)
    (hk : u.portK = s.portK) (hp : u.portsP = s.portsP) (hq : u.portsQ = s.portsQ) (h : slotOf s p = some old) :
    answered p r s (respond u p r) :=
  ⟨slotOf_respond_self (s := u) r ((slotOf_congr hk hp hq p).trans h),
    fun q hne => (slotOf_respond_ne u r hne).trans (slotOf_congr hk hp hq q)⟩

/-- `raise` in an `ISSUE` step at a port the block has: the status, and nothing else (R17). -/
theorem raise_spec {s : State} {old : Slot} (st : Status) (ope : BitVec 4) (h : slotOf s s.port = some old) :
    ∃ t, raise s st ope = .next t ∧ answered s.port (bare st ope) s t ∧ sameBlock s t ∧ sameEnvironment s t :=
  ⟨_, rfl, answered_respond _ h, sameBlock_respond .., sameEnvironment_respond ..⟩

/-- `pend` in an `ISSUE` step at a port the block has: the request waits, and nothing else (R36). -/
theorem pend_spec {s : State} {old : Slot} (r : Pending) (h : slotOf s s.port = some old) :
    ∃ t, pend s r = .next t ∧ becamePending s.port r s t ∧ sameBlock s t ∧ sameEnvironment s t :=
  ⟨_, rfl, ⟨slotOf_withSlot_self _ h, sameOtherSlots_withSlot _ _ _⟩, sameBlock_withSlot .., sameEnvironment_withSlot ..⟩

/-- `SERVE_W`, `TIMEOUT_W` and the write's slots speak of the same pending write. -/
theorem pendingWrite_of_slot {s : State} {n : Nat} {sl : Slot} {op : BitVec 4} {payload : List Byte}
    (h : slotOf s (.p n) = some sl) (hr : sl.req = some (.write op payload)) :
    pendingWrite s n = some (op, payload) := by
  obtain ⟨rq, rs⟩ := sl
  cases hr
  simp [pendingWrite, h]

theorem slot_of_pendingWrite {s : State} {n : Nat} {op : BitVec 4} {payload : List Byte}
    (h : pendingWrite s n = some (op, payload)) :
    ∃ rsp, slotOf s (.p n) = some { req := some (.write op payload), rsp := rsp } := by
  unfold pendingWrite at h
  split at h
  · next op' pl' rsp heq =>
    cases h
    exact ⟨rsp, heq⟩
  · cases h

theorem pendingRead_of_slot {s : State} {n : Nat} {sl : Slot} {cap : Word}
    (h : slotOf s (.q n) = some sl) (hr : sl.req = some (.read cap)) : pendingRead s n = some cap := by
  obtain ⟨rq, rs⟩ := sl
  cases hr
  simp [pendingRead, h]

theorem slot_of_pendingRead {s : State} {n : Nat} {cap : Word} (h : pendingRead s n = some cap) :
    ∃ rsp, slotOf s (.q n) = some { req := some (.read cap), rsp := rsp } := by
  unfold pendingRead at h
  split at h
  · next cap' rsp heq =>
    cases h
    exact ⟨rsp, heq⟩
  · cases h

/-! Where a step is enabled, and what it then is. -/

theorem runEvent_enabled {e : Event} {s : State} (h : enabled e s = true) : runEvent e s = perform e s := by
  simp [runEvent, h]

theorem runEvent_disabled {e : Event} {s : State} (h : enabled e s = false) : runEvent e s = .next s := by
  simp [runEvent, h]

theorem enabled_serveW_of {s : State} {n : Nat} {op : BitVec 4} {payload : List Byte}
    (h : pendingWrite s n = some (op, payload)) : enabled (.serveW n) s = eligibleWrite s payload.length := by
  simp [enabled, h]

theorem enabled_timeoutW_of {s : State} {n : Nat} {op : BitVec 4} {payload : List Byte}
    (h : pendingWrite s n = some (op, payload)) : enabled (.timeoutW n) s = !eligibleWrite s payload.length := by
  simp [enabled, h]

theorem enabled_serveR_of {s : State} {n : Nat} {cap : Word} (h : pendingRead s n = some cap) :
    enabled (.serveR n) s = (readVerdict s cap.toNat != .blocked) := by
  simp [enabled, h]

theorem enabled_timeoutR_of {s : State} {n : Nat} {cap : Word} (h : pendingRead s n = some cap) :
    enabled (.timeoutR n) s = (readVerdict s cap.toNat == .blocked) := by
  simp [enabled, h]

/-- An eligible write fits (R87). -/
theorem eligibleWrite_iff (s : State) (len : Nat) :
    eligibleWrite s len = true ↔ s.mode = .ready ∧ 8 + len ≤ s.cap - 1 - ringDist s.cap s.rpVis s.wp := by
  rw [eligibleWrite, Bool.and_eq_true, decide_eq_true_eq, decide_eq_true_eq]
  rfl

/-- The ring's storage exists (R20, R21). -/
theorem storageOk_iff (s : State) : storageOk s = true ↔ 0 < s.cap ∧ s.cap ≤ s.params.cMax := by
  simp [storageOk]

/-- The effect of `SERVE_W` on a pending write whose storage exists (R88). -/
theorem serveW_spec {s : State} {n : Nat} {op : BitVec 4} {payload : List Byte}
    (h : pendingWrite s n = some (op, payload)) (hs : storageOk s = true) :
    serveW n s = .next (respond
      { s with ring := commitBytes s payload, wp := (s.wp + 8 + payload.length) % s.cap } (.p n) (bare .ok op)) := by
  simp [serveW, h, hs, Config.hdrBytes]

/-- The effect of `TIMEOUT_W` on a pending write (R89). -/
theorem timeoutW_spec {s : State} {n : Nat} {op : BitVec 4} {payload : List Byte}
    (h : pendingWrite s n = some (op, payload)) :
    timeoutW n s = .next (respond s (.p n) (bare .full op)) := by
  simp [timeoutW, h]

/-- The effect of `TIMEOUT_R` on a pending read (R99). -/
theorem timeoutR_spec {s : State} {n : Nat} {cap : Word} (h : pendingRead s n = some cap) :
    timeoutR n s = .next (respond s (.q n) (bare .empty opRead)) := by
  simp [timeoutR, h]

/-- The effect of `SERVE_R` on an eligible read (R97). -/
theorem serveR_eligible {s : State} {n : Nat} {cap : Word} {len : Nat} (h : pendingRead s n = some cap)
    (hv : readVerdict s cap.toNat = .eligible len) :
    serveR n s = .next (respond { s with rp := (s.rp + 8 + len) % s.cap } (.q n)
      (readResponse s.params (memRead s ((s.rp + 8) % s.cap) len))) := by
  simp only [serveR, h, hv, Config.hdrBytes]

/-- The effect of `SERVE_R` on an undersized read (R98). -/
theorem serveR_undersized {s : State} {n : Nat} {cap : Word} {len : Nat} (h : pendingRead s n = some cap)
    (hv : readVerdict s cap.toNat = .undersized len) :
    serveR n s = .next (respond s (.q n) { status := .undersized, ope := opRead, len := word64 len }) := by
  simp only [serveR, h, hv]

/-- The cases of R96 on storage that exists. -/
theorem readVerdict_cases (s : State) (cap : Nat) (hs : storageOk s = true) :
    (headVisible s = false ∧ readVerdict s cap = .blocked) ∨
    (headVisible s = true ∧ headLength s > cap ∧ readVerdict s cap = .undersized (headLength s)) ∨
    (headVisible s = true ∧ headLength s ≤ cap ∧ rdAvail s ≥ 8 + headLength s ∧
      readVerdict s cap = .eligible (headLength s)) ∨
    (headVisible s = true ∧ headLength s ≤ cap ∧ rdAvail s < 8 + headLength s ∧ readVerdict s cap = .blocked) := by
  unfold readVerdict
  cases hv : headVisible s <;> simp [hs, Config.hdrBytes]
  split_ifs <;> simp <;> omega

theorem headVisible_iff (s : State) :
    headVisible s = true ↔ s.mode = .ready ∧ 8 ≤ ringDist s.cap s.rp s.wpVis := by
  simp [headVisible, rdAvail, Config.hdrBytes]

/-- What the read side makes of a pending read, in the formulas of R96: one of three cases, where the storage of a `READY`
ring exists. -/
theorem readVerdict_spec {s : State} (h : capInStorage s) (cap : Nat) :
    (readBlocked s cap ∧ readVerdict s cap = .blocked) ∨
    (readUndersized s cap ∧ readVerdict s cap = .undersized (lHead s)) ∨
    (readEligible s cap ∧ readVerdict s cap = .eligible (lHead s)) := by
  cases hv : headVisible s with
  | false =>
    refine .inl ⟨.inl fun hh => ?_, by simp [readVerdict, hv]⟩
    rw [(headVisible_iff s).2 hh] at hv
    cases hv
  | true =>
    have hh : headVis s := (headVisible_iff s).1 hv
    rcases readVerdict_cases s cap ((storageOk_iff s).2 (h hh.1)) with ⟨a, -⟩ | ⟨-, b, e⟩ | ⟨-, b, c, e⟩ | ⟨-, b, c, e⟩
    · rw [hv] at a
      cases a
    · exact .inr (.inl ⟨⟨hh, b⟩, e⟩)
    · exact .inr (.inr ⟨⟨hh, b, c⟩, e⟩)
    · exact .inl ⟨.inr ⟨hh, b, c⟩, e⟩

/-- What the read side makes of a read depends on the shared state only (R96). -/
theorem readVerdict_congr {s t : State} (h : sameBlock s t) (cap : Nat) : readVerdict t cap = readVerdict s cap := by
  obtain ⟨h1, h2, h3, h4, -, -, h7, h8⟩ := h
  have e : headLength t = headLength s := by simp only [headLength, memRead, h3, h4, h8]
  have e1 : headVisible t = headVisible s := by
    rw [Bool.eq_iff_iff, headVisible_iff, headVisible_iff, h2, h3, h4, h7]
  have e2 : storageOk t = storageOk s := by rw [Bool.eq_iff_iff, storageOk_iff, storageOk_iff, h1, h3]
  have e3 : rdAvail t = rdAvail s := by simp only [rdAvail, h3, h4, h7]
  simp only [readVerdict, e, e1, e2, e3]

theorem headLength_lt (s : State) : headLength s < 2 ^ 64 := by
  have := leDecode_lt (memRead s s.rp 8)
  simpa [headLength, Config.hdrBytes, memRead] using this

/-- A number that fits its field is the number it holds. -/
theorem word64_toNat {v : Nat} (h : v < 2 ^ 64) : (word64 v).toNat = v := by
  simp only [word64, if_pos h, BitVec.toNat_ofNat, Nat.mod_eq_of_lt h]

end Machine
end Sys2Proof
end

