-- ==== Sys2Proof/Laws/Encoding.lean ====
section
/-! SUPPORT. The parts of a request unit (R69, R71): its length, its command word, its operand words, its data. -/

namespace Sys2Proof

@[simp] theorem encode_length_init (cap : Word) : (encode (.init cap)).length = 12 := by
  simp [encode, Instr.operandWords, Instr.dataBytes]

@[simp] theorem encode_length_read (cap : Word) : (encode (.read cap)).length = 12 := by
  simp [encode, Instr.operandWords, Instr.dataBytes]

@[simp] theorem encode_length_destroy : (encode .destroy).length = 4 := by
  simp [encode, Instr.operandWords, Instr.dataBytes]

@[simp] theorem encode_length_status (reg : Byte) : (encode (.status reg)).length = 4 := by
  simp [encode, Instr.operandWords, Instr.dataBytes]

@[simp] theorem encode_length_write (data : List Byte) : (encode (.write data)).length = 12 + data.length := by
  simp [encode, Instr.operandWords, Instr.dataBytes]
  omega

@[simp] theorem encode_length_writePkt (src dst seq : Word) (msg : List Byte) :
    (encode (.writePkt src dst seq msg)).length = 36 + msg.length := by
  simp [encode, Instr.operandWords, Instr.dataBytes]
  omega

theorem commandWord_lt (i : Instr) : i.commandWord < 2 ^ 32 := by
  have h1 := i.opcode.isLt
  have h2 := i.regField.isLt
  unfold Instr.commandWord
  omega

/-- The command word a decoder sees in a request's own unit. -/
theorem commandWordOf_encode (i : Instr) : commandWordOf (encode i) = BitVec.ofNat 32 i.commandWord := by
  have h : (encode i).take 4 = leEncode 4 i.commandWord := by
    rw [encode, List.append_assoc, List.take_left' (by simp)]
  rw [commandWordOf, h, leDecode_leEncode_of_lt (by simpa using commandWord_lt i)]

theorem encode_drop (i : Instr) :
    (encode i).drop 4 = (i.operandWords.map (leEncode 8)).flatten ++ i.dataBytes := by
  rw [encode, List.append_assoc, List.drop_left' (by simp)]

/-- An operand word read where one was written (R69, R72). -/
theorem operandWord_at {k v : Nat} {before rest : List Byte} (h : before.length = 8 * k) :
    operandWord k (before ++ (leEncode 8 v ++ rest)) = BitVec.ofNat 64 v := by
  rw [operandWord, List.drop_left' h, List.take_left' (by simp), leDecode_leEncode]
  apply BitVec.eq_of_toNat_eq
  simp

/-! The decoder. -/

/-- The fields of the command word as numbers (R70). -/
theorem command_fields {c : Nat} (hc : c < 2 ^ 32) :
    (cmdOp (BitVec.ofNat 32 c)).toNat = c % 2 ^ 4 ∧ (cmdRsv0 (BitVec.ofNat 32 c)).toNat = c / 2 ^ 4 % 2 ^ 4 ∧
      (cmdReg (BitVec.ofNat 32 c)).toNat = c / 2 ^ 8 % 2 ^ 8 ∧ (cmdRsv1 (BitVec.ofNat 32 c)).toNat = c / 2 ^ 16 := by
  refine ⟨?_, ?_, ?_, ?_⟩ <;> simp [cmdOp, cmdRsv0, cmdReg, cmdRsv1, Nat.shiftRight_eq_div_pow] <;> omega

theorem leDecode_take_lt (n : Nat) (bytes : List Byte) : leDecode (bytes.take n) < 2 ^ (8 * n) :=
  Nat.lt_of_lt_of_le (leDecode_lt _) (Nat.pow_le_pow_right (by omega) (by simp))

theorem leEncode_take {bytes : List Byte} {n : Nat} (h : n ≤ bytes.length) :
    leEncode n (leDecode (bytes.take n)) = bytes.take n := by
  simpa [h] using leEncode_leDecode (bytes.take n)

/-- An operand word is `le_decode` of its 8 bytes (R72). -/
theorem operandWord_toNat (k : Nat) (body : List Byte) :
    (operandWord k body).toNat = leDecode ((body.drop (8 * k)).take 8) := by
  rw [operandWord, BitVec.toNat_ofNat, Nat.mod_eq_of_lt (leDecode_take_lt 8 _)]

theorem leEncode_operandWord {k : Nat} {body : List Byte} (h : 8 * k + 8 ≤ body.length) :
    leEncode 8 (operandWord k body).toNat = (body.drop (8 * k)).take 8 := by
  rw [operandWord_toNat, leEncode_take]
  simp
  omega

theorem withLength_ok {b : Bool} {i j : Instr} (h : withLength b i = .ok j) : b = true ∧ j = i := by
  unfold withLength at h
  split at h <;> simp_all

/-- What a unit that decodes is made of: no reserved bit set, and the request its operands give. -/
theorem decode_ok {unit : List Byte} {i : Instr} (h : decode unit = .ok i) :
    4 ≤ unit.length ∧ cmdRsv0 (commandWordOf unit) = 0 ∧ cmdRsv1 (commandWordOf unit) = 0 ∧
      (cmdOp (commandWordOf unit) ≠ opStatus → cmdReg (commandWordOf unit) = 0) ∧
      decodeOperands (cmdOp (commandWordOf unit)) (cmdReg (commandWordOf unit)) (unit.drop 4) = .ok i := by
  unfold decode at h
  simp only at h
  split_ifs at h with h1 h2 h3 h4
  simp only [not_or, not_not] at h3
  exact ⟨by omega, h3.1, h3.2, fun h5 => by_contra fun h6 => h4 ⟨h6, h5⟩, h⟩

/-- `OP` of a decoded request is its opcode. -/
theorem decodeOperands_opcode {op : BitVec 4} {reg : Byte} {body : List Byte} {i : Instr}
    (h : decodeOperands op reg body = .ok i) : i.opcode = op := by
  unfold decodeOperands at h
  split_ifs at h with h1 h2 h3 h4 h5 h6 <;> obtain ⟨-, rfl⟩ := withLength_ok h <;> simp_all [Instr.opcode]

end Sys2Proof
end

