-- ==== Sys2Proof/Laws/Ring.lean ====
section
/-! SUPPORT. The ring storage (R16): read after write, the canonical form kept, and what `MemWrite` and `MemRead` do byte by byte; the ring distance (R15). -/

namespace Sys2Proof
namespace Machine

/-! One byte. -/

theorem ringLookup_ringStore (m : Memory) (x y : Nat) (v : Byte) :
    ringLookup (ringStore m x v) y = if y = x then some v else ringLookup m y := by
  induction m with
  | nil => simp [ringStore, ringLookup]
  | cons c m ih =>
    obtain ⟨a, b⟩ := c
    unfold ringStore
    split_ifs with h1 h2 <;> simp only [ringLookup, ih] <;> split_ifs <;> simp_all

theorem mem_ringStore {m : Memory} {x : Nat} {v : Byte} {c : Host.Cell} (h : c ∈ ringStore m x v) :
    c = (x, v) ∨ c ∈ m := by
  induction m with
  | nil => simpa [ringStore] using h
  | cons d m ih =>
    obtain ⟨a, b⟩ := d
    simp only [ringStore] at h
    split_ifs at h with h1 h2
    · simpa using h
    · rcases List.mem_cons.1 h with rfl | h
      · exact .inl (by rw [h2])
      · exact .inr (by simp [h])
    · rcases List.mem_cons.1 h with rfl | h
      · exact .inr (by simp)
      · rcases ih h with h | h
        · exact .inl h
        · exact .inr (by simp [h])

/-- `Ring[x] <- v` keeps the canonical form. -/
theorem ringStore_wf {limit : Nat} {m : Memory} {x : Nat} (v : Byte) (hx : x < limit) (h : Memory.wf limit m) :
    Memory.wf limit (ringStore m x v) := by
  refine ⟨?_, fun c hc => ?_⟩
  · obtain ⟨hs, -⟩ := h
    induction m with
    | nil => simp [ringStore]
    | cons d m ih =>
      obtain ⟨a, b⟩ := d
      simp only [List.map_cons, List.pairwise_cons] at hs
      simp only [ringStore]
      split_ifs with h1 h2
      · simp only [List.map_cons, List.pairwise_cons, List.mem_cons]
        refine ⟨fun y hy => ?_, hs.1, hs.2⟩
        rcases hy with rfl | hy
        · exact h1
        · exact Nat.lt_trans h1 (hs.1 y hy)
      · simp only [List.map_cons, List.pairwise_cons]
        exact ⟨hs.1, hs.2⟩
      · simp only [List.map_cons, List.pairwise_cons]
        refine ⟨fun y hy => ?_, ih hs.2⟩
        obtain ⟨c, hc, rfl⟩ := List.mem_map.1 hy
        rcases mem_ringStore hc with rfl | hc
        · show a < x
          omega
        · exact hs.1 _ (List.mem_map.2 ⟨c, hc, rfl⟩)
  · rcases mem_ringStore hc with rfl | hc
    · exact hx
    · exact h.2 c hc

/-- The storage after reset has the canonical form. -/
theorem reset_ring_wf (p : Config.Params) (limit : Nat) : Memory.wf limit (State.resetWith p).ring :=
  ⟨List.Pairwise.nil, fun _ h => nomatch h⟩

/-! A run of bytes. -/

/-- `MemWrite` keeps the canonical form of a storage that holds the ring. -/
theorem memWrite_wf {limit c : Nat} (hc : 0 < c) (hl : c ≤ limit) (bytes : List Byte) :
    ∀ {m : Memory} (a : Nat), Memory.wf limit m → Memory.wf limit (memWrite c m a bytes) := by
  induction bytes with
  | nil => exact fun a h => h
  | cons b bs ih =>
    intro m a h
    exact ih (a + 1) (ringStore_wf b (Nat.lt_of_lt_of_le (Nat.mod_lt _ hc) hl) h)

/-- A byte outside the written run is unchanged. -/
theorem ringLookup_memWrite_other {c : Nat} {bytes : List Byte} {x : Nat} :
    ∀ {m : Memory} {a : Nat}, (∀ k, k < bytes.length → x ≠ (a + k) % c) →
      ringLookup (memWrite c m a bytes) x = ringLookup m x := by
  induction bytes with
  | nil => exact fun _ => rfl
  | cons b bs ih =>
    intro m a h
    have h0 := h 0 (by simp)
    rw [memWrite, ih fun k hk => ?_, ringLookup_ringStore, if_neg (by simpa using h0)]
    have := h (k + 1) (by simpa using hk)
    rwa [show a + 1 + k = a + (k + 1) by omega]

/-- Two offsets of a run no longer than the ring are the same only where they stand at the same place of the run. -/
theorem offset_inj {c a j k : Nat} (hj : j < c) (hk : k < c) (h : (a + j) % c = (a + k) % c) : j = k := by
  have : j ≡ k [MOD c] := Nat.ModEq.add_left_cancel' a h
  exact Nat.ModEq.eq_of_lt_of_lt this hj hk

/-- Byte `k` of a written run that is no longer than the ring is where `MemWrite` put it. -/
theorem ringLookup_memWrite {c : Nat} {bytes : List Byte} :
    ∀ {m : Memory} {a k : Nat} (hk : k < bytes.length), bytes.length ≤ c →
      ringLookup (memWrite c m a bytes) ((a + k) % c) = some bytes[k] := by
  induction bytes with
  | nil => intro m a k hk; simp at hk
  | cons b bs ih =>
    intro m a k hk hc
    simp only [List.length_cons] at hk hc
    cases k with
    | zero =>
      rw [memWrite, ringLookup_memWrite_other fun j hj h => ?_, ringLookup_ringStore]
      · simp
      · have := offset_inj (c := c) (a := a) (j := 0) (k := j + 1) (by omega) (by omega)
          (by simpa [Nat.add_assoc, Nat.add_comm 1 j] using h)
        omega
    | succ k =>
      have := ih (m := ringStore m (a % c) b) (a := a + 1) (k := k) (by omega) (by omega)
      rw [memWrite, show a + (k + 1) = a + 1 + k by omega, this]
      simp

/-! `MemRead`. -/

@[simp] theorem memRead_length (s : State) (a n : Nat) : (memRead s a n).length = n := by simp [memRead]

/-- `MemRead` sees only the bytes of its run. -/
theorem memRead_congr {s t : State} {a n : Nat} (hc : t.cap = s.cap)
    (h : ∀ k, k < n → ringByte t ((a + k) % s.cap) = ringByte s ((a + k) % s.cap)) :
    memRead t a n = memRead s a n := by
  simp only [memRead, hc]
  exact List.map_congr_left fun k hk => h k (List.mem_range.1 hk)

/-- A run read in two parts. -/
theorem memRead_add (s : State) (a m n : Nat) : memRead s a (m + n) = memRead s a m ++ memRead s (a + m) n := by
  simp [memRead, List.range_add, Function.comp_def, Nat.add_assoc]

/-- The start of a run may be taken mod `C`. -/
theorem memRead_mod (s : State) (a n : Nat) : memRead s (a % s.cap) n = memRead s a n := by
  simp [memRead]

theorem memRead_take (s : State) {a m n : Nat} (h : m ≤ n) : (memRead s a n).take m = memRead s a m := by
  obtain ⟨d, rfl⟩ := Nat.exists_eq_add_of_le h
  rw [memRead_add, List.take_left' (by simp)]

theorem memRead_drop (s : State) {a m n : Nat} (h : m ≤ n) :
    (memRead s a n).drop m = memRead s (a + m) (n - m) := by
  obtain ⟨d, rfl⟩ := Nat.exists_eq_add_of_le h
  rw [memRead_add, List.drop_left' (by simp), Nat.add_sub_cancel_left]

/-- `MemRead` of a run whose bytes are known. -/
theorem memRead_eq_of_lookup {s : State} {a : Nat} {bytes : List Byte}
    (h : ∀ k, (hk : k < bytes.length) → ringLookup s.ring ((a + k) % s.cap) = some bytes[k]) :
    memRead s a bytes.length = bytes := by
  apply List.ext_getElem (by simp)
  intro k h1 h2
  simp [memRead, ringByte, h k h2]

/-! Ring distance. -/

theorem ringDist_lt {c a b : Nat} (ha : a < c) (hb : b < c) : ringDist c a b < c := by
  unfold ringDist; split <;> omega

/-- Going `dist(a, b)` bytes forward from `a` leads to `b`. -/
theorem add_ringDist_mod {c a b : Nat} (ha : a < c) (hb : b < c) : (a + ringDist c a b) % c = b := by
  unfold ringDist
  split
  · rw [show a + (b - a) = b by omega, Nat.mod_eq_of_lt hb]
  · rw [show a + (c - a + b) = b + c by omega, Nat.add_mod_right, Nat.mod_eq_of_lt hb]

/-- The distance to a place `n < C` bytes forward is `n`. -/
theorem ringDist_add_mod {c a n : Nat} (ha : a < c) (hn : n < c) : ringDist c a ((a + n) % c) = n := by
  unfold ringDist
  rcases Nat.lt_or_ge (a + n) c with h | h
  · rw [Nat.mod_eq_of_lt h]; split <;> omega
  · rw [Nat.mod_eq_sub_mod h, Nat.mod_eq_of_lt (by omega)]; split <;> omega

/-- A place moved `n` bytes forward is `n` further from `a`, while that stays within the ring. -/
theorem ringDist_step {c a b n : Nat} (ha : a < c) (hb : b < c) (h : ringDist c a b + n < c) :
    ringDist c a ((b + n) % c) = ringDist c a b + n := by
  have hab := add_ringDist_mod ha hb
  rw [← ringDist_add_mod ha h, ← Nat.add_assoc]
  congr 1
  conv_rhs => rw [Nat.add_mod, hab]
  rw [Nat.add_mod, Nat.mod_eq_of_lt hb]

@[simp] theorem ringDist_self (c a : Nat) : ringDist c a a = 0 := by simp [ringDist]

theorem ringDist_eq_zero {c a b : Nat} (ha : a < c) (hb : b < c) : ringDist c a b = 0 ↔ a = b := by
  constructor
  · intro h
    have := add_ringDist_mod ha hb
    rwa [h, Nat.add_zero, Nat.mod_eq_of_lt ha] at this
  · rintro rfl; simp

end Machine
end Sys2Proof
end

