-- ==== Sys2Proof/Laws/Invariant.lean ====
section
/-! SUPPORT. Lemmas under the invariant: how the ring distances move with the cursors, what a frame at the head is, what a write commit stores, and which parts of the invariant a change of slots or of the model's own fields cannot touch. -/

namespace Sys2Proof
namespace Machine

/-! Distances. -/

/-- Two distances one after the other, within the ring. -/
theorem ringDist_trans {c a b d : Nat} (ha : a < c) (hb : b < c) (hd : d < c) (h : ringDist c a b + ringDist c b d < c) :
    ringDist c a d = ringDist c a b + ringDist c b d := by
  have := ringDist_step ha hb h
  rwa [add_ringDist_mod hb hd] at this

/-- A start moved forward by a part of the distance leaves the rest of it. -/
theorem ringDist_advance {c a b n : Nat} (ha : a < c) (hb : b < c) (h : n ≤ ringDist c a b) :
    ringDist c ((a + n) % c) b = ringDist c a b - n := by
  have hlt := ringDist_lt ha hb
  have e : b = ((a + n) % c + (ringDist c a b - n)) % c := by
    rw [Nat.mod_add_mod, Nat.add_assoc, Nat.add_sub_cancel' h, add_ringDist_mod ha hb]
  conv_lhs => rw [e]
  exact ringDist_add_mod (Nat.mod_lt _ (by omega)) (by omega)

/-- A place `y` beyond the place `x` beyond `a`. -/
theorem offset_shift {c a b x : Nat} (h : (a + x) % c = b) (y : Nat) : (b + y) % c = (a + (x + y)) % c := by
  rw [← h, Nat.mod_add_mod, Nat.add_assoc]

/-- In a `READY` state the space a write sees is what is left behind the occupied bytes and the lag of its view. -/
theorem ReadyInv.wrAvail_eq {s : State} (h : ReadyInv s) :
    wrAvail s = s.cap - 1 - (ringDist s.cap s.rpVis s.rp + ringDist s.cap s.rp s.wp) := by
  have := h.capLow
  have := h.writeView
  rw [wrAvail, ringDist_trans h.rpVisRange h.rpRange h.wpRange (by omega)]

/-! Frames. -/

@[simp] theorem frame_length (payload : List Byte) : (frame payload).length = 8 + payload.length := by
  simp [frame, Config.hdrBytes]

theorem maxPayload_eq : maxPayload = 2 ^ 64 - 1 := rfl

/-- The head of a non-empty run of frames: its header gives its payload's length (R34, R67). -/
theorem framesAt_head {s : State} {a n : Nat} {payloads : List (List Byte)} (h : framesAt s a n payloads)
    (hn : 8 ≤ n) :
    ∃ f rest, payloads = f :: rest ∧ 8 + f.length ≤ n ∧ f.length ≤ maxPayload ∧
      leDecode (memRead s a 8) = f.length ∧ memRead s (a + 8) f.length = f ∧
      framesAt s (a + (8 + f.length)) (n - (8 + f.length)) rest := by
  obtain ⟨hm, hl⟩ := h
  have hlen : n = ((payloads.map frame).flatten).length := by rw [← hm, memRead_length]
  cases payloads with
  | nil => simp at hlen; omega
  | cons f rest =>
    simp only [List.map_cons, List.flatten_cons] at hm hlen
    have hfl := hl f (by simp)
    have hle : 8 + f.length ≤ n := by rw [hlen]; simp
    refine ⟨f, rest, rfl, hle, hfl, ?_, ?_, ?_, fun g hg => hl g (by simp [hg])⟩
    · rw [← memRead_take s (show 8 ≤ n by omega), hm, frame, List.append_assoc, List.take_left' (by simp [Config.hdrBytes])]
      exact leDecode_leEncode_of_lt (Nat.lt_of_le_of_lt hfl (by decide))
    · have h1 := memRead_drop s (a := a) (m := 8) (n := 8 + f.length) (by omega)
      rw [← memRead_take s hle, hm, List.take_left' (by simp), frame, List.drop_left' (by simp [Config.hdrBytes]),
        Nat.add_sub_cancel_left] at h1
      exact h1.symm
    · rw [← memRead_drop s hle, hm, List.drop_left' (by simp)]

theorem framesAt_nil (s : State) (a : Nat) : framesAt s a 0 [] := ⟨by simp [memRead], by simp⟩

/-- Runs of frames one after the other. -/
theorem framesAt_append {s : State} {a m n : Nat} {fs gs : List (List Byte)} (h1 : framesAt s a m fs)
    (h2 : framesAt s (a + m) n gs) : framesAt s a (m + n) (fs ++ gs) := by
  refine ⟨?_, fun f hf => ?_⟩
  · rw [memRead_add, h1.1, h2.1]; simp
  · rcases List.mem_append.1 hf with hf | hf
    · exact h1.2 f hf
    · exact h2.2 f hf

/-- Where a run starts only counts mod `C`. -/
theorem framesAt_mod {s : State} {a n : Nat} {fs : List (List Byte)} :
    framesAt s (a % s.cap) n fs ↔ framesAt s a n fs := by
  simp only [framesAt, memRead_mod]

/-- A run of frames is read from its bytes alone. -/
theorem framesAt_congr {s t : State} {a n : Nat} {fs : List (List Byte)} (hc : t.cap = s.cap)
    (h : ∀ k, k < n → ringByte t ((a + k) % s.cap) = ringByte s ((a + k) % s.cap)) (hf : framesAt s a n fs) :
    framesAt t a n fs :=
  ⟨(memRead_congr hc h).trans hf.1, hf.2⟩

/-! A write commit (R88). -/

/-- The bytes a write commit stores: the frame from `WP` forward, and no other. -/
theorem commitBytes_lookup {s : State} {payload : List Byte} (hc : 8 + payload.length ≤ s.cap) :
    (∀ k, (h : k < (frame payload).length) →
      ringLookup (commitBytes s payload) ((s.wp + k) % s.cap) = some (frame payload)[k]) ∧
    ∀ x, (∀ k, k < 8 + payload.length → x ≠ (s.wp + k) % s.cap) →
      ringLookup (commitBytes s payload) x = ringLookup s.ring x := by
  have e : ∀ k, ((s.wp + 8) % s.cap + k) % s.cap = (s.wp + (8 + k)) % s.cap := fun k => by
    rw [Nat.mod_add_mod, Nat.add_assoc]
  unfold commitBytes
  simp only [frame, Config.hdrBytes]
  refine ⟨fun k h => ?_, fun x h => ?_⟩
  · simp only [List.length_append, leEncode_length] at h
    rcases Nat.lt_or_ge k 8 with hk | hk
    · rw [ringLookup_memWrite_other fun j hj hh => ?_, List.getElem_append_left (by simpa using hk)]
      · exact ringLookup_memWrite (by simpa using hk) (by simp; omega)
      · rw [e] at hh
        have := offset_inj (by omega) (by omega) hh
        omega
    · rw [List.getElem_append_right (by simpa using hk)]
      have := ringLookup_memWrite (c := s.cap) (m := memWrite s.cap s.ring s.wp (leEncode 8 payload.length))
        (a := (s.wp + 8) % s.cap) (bytes := payload) (k := k - 8) (by omega) (by omega)
      rw [e, show 8 + (k - 8) = k by omega] at this
      simpa using this
  · rw [ringLookup_memWrite_other fun j hj => ?_, ringLookup_memWrite_other fun j hj => ?_]
    · simp only [leEncode_length] at hj
      exact h j (by omega)
    · rw [e]; exact h (8 + j) (by omega)

/-- A write commit keeps the canonical form of the storage. -/
theorem commitBytes_wf {s : State} {payload : List Byte} (hs : storageOk s = true)
    (h : Memory.wf s.params.cMax s.ring) : Memory.wf s.params.cMax (commitBytes s payload) := by
  obtain ⟨h0, h1⟩ := (storageOk_iff s).1 hs
  exact memWrite_wf h0 h1 _ _ (memWrite_wf h0 h1 _ _ h)

/-! Changes that leave the block's shared state alone. -/

/-- The part of the invariant about a `READY` ring depends on the shared state only. -/
theorem ReadyInv.congr {s t : State} (h : ReadyInv s) (hp : t.params = s.params) (hc : t.cap = s.cap)
    (hr : t.ring = s.ring) (h1 : t.rp = s.rp) (h2 : t.wp = s.wp) (h3 : t.rpVis = s.rpVis) (h4 : t.wpVis = s.wpVis)
    (hd : t.ringDraw = s.ringDraw) : ReadyInv t := by
  have hb : ∀ x, ringByte t x = ringByte s x := fun x => by simp [ringByte, hr, hd]
  have hm : ∀ a n, memRead t a n = memRead s a n := fun a n => by simp only [memRead, hc, hb]
  refine ⟨?_, ?_, ?_, ?_, ?_, ?_, ?_, ?_, ?_, ?_, ?_⟩ <;>
    simp only [hp, hc, hr, h1, h2, h3, h4, holdsQueue, framesAt, hm]
  exacts [h.capLow, h.capHigh, h.capWord, h.rpRange, h.wpRange, h.rpVisRange, h.wpVisRange, h.writeView, h.readView,
    h.frames, h.written]

/-- What the request slot of a port may hold (R24). -/
def requestOk : Port → Slot → Prop
  | .k, sl => sl.req = none
  | .p _, sl => producerSlotOk sl
  | .q _, sl => consumerSlotOk sl

/-- What the slots of a port may hold (R24, R25, R36). -/
structure SlotOk (p : Port) (sl : Slot) : Prop where
  request : requestOk p sl
  oneAtATime : sl.req = none ∨ sl.rsp = none
  response : ∀ r, sl.rsp = some r → ResponseOk r

theorem requestOk_of_idle {p : Port} {sl : Slot} (h : sl.req = none) : requestOk p sl := by
  cases p <;> simp [requestOk, producerSlotOk, consumerSlotOk, h]

theorem slotOk_of_answer {p : Port} {r : Response} (hr : ResponseOk r) : SlotOk p { rsp := some r } :=
  ⟨requestOk_of_idle rfl, .inl rfl, fun r' h => by cases h; exact hr⟩

/-- An answer that carries a status and an opcode only is one of the block's where R111 lets that opcode have it. -/
theorem responseOk_bare {st : Status} {ope : BitVec 4} (h1 : st = .ok → 1 ≤ ope.toNat ∧ ope.toNat ≤ 6 ∧ ope ≠ opRead)
    (h2 : st = .full → ope = opWrite ∨ ope = opWritePkt) (h3 : st = .empty → ope = opRead)
    (h4 : st = .undersized → ope = opRead)
    (h5 : st = .badArg → ope = opInit ∨ ope = opStatus ∨ ope = opWrite ∨ ope = opWritePkt)
    (h6 : st = .badState → ope ≠ opStatus ∧ 1 ≤ ope.toNat ∧ ope.toNat ≤ 5) : ResponseOk (bare st ope) :=
  ⟨fun _ => ⟨rfl, rfl, rfl, rfl, rfl, rfl⟩, fun _ => rfl, fun _ => rfl, fun ho hs => absurd ho (h1 hs).2.2, h2, h3, h4,
    h5, h6, fun hs => ⟨(h1 hs).1, (h1 hs).2.1⟩⟩

/-- The answer to a read commit is one of the block's. -/
theorem responseOk_read (p : Config.Params) {data : List Byte} (h : data.length < 2 ^ 64) :
    ResponseOk (readResponse p data) :=
  ⟨fun hn => absurd ⟨rfl, rfl⟩ hn, fun hn => absurd ⟨rfl, .inl rfl⟩ hn, fun _ => rfl, fun _ _ => word64_toNat h,
    nofun, nofun, nofun, nofun, nofun, fun _ => show 1 ≤ opRead.toNat ∧ opRead.toNat ≤ 6 by decide⟩

/-- The answer to an undersized read is one of the block's. -/
theorem responseOk_undersized (v : Word) : ResponseOk { status := .undersized, ope := opRead, len := v } :=
  ⟨fun _ => ⟨rfl, rfl, rfl, rfl, rfl, rfl⟩, fun hn => absurd ⟨rfl, .inr rfl⟩ hn, fun _ => rfl, nofun, nofun, nofun,
    fun _ => rfl, nofun, nofun, nofun⟩

/-- The answer to a status read is one of the block's. -/
theorem responseOk_status (v : Word) : ResponseOk { status := .ok, ope := opStatus, value := v } :=
  ⟨fun _ => ⟨rfl, rfl, rfl, rfl, rfl, rfl⟩, fun _ => rfl, fun hn => absurd ⟨rfl, rfl⟩ hn, nofun, nofun, nofun, nofun,
    nofun, nofun, fun _ => show 1 ≤ opStatus.toNat ∧ opStatus.toNat ≤ 6 by decide⟩

/-- Replacing one port's slots by allowed ones keeps the slots' invariant. -/
theorem SlotsInv.withSlot {s : State} (h : SlotsInv s) {p : Port} {sl : Slot} (hs : SlotOk p sl) :
    SlotsInv (withSlot s p sl) := by
  have found : ∀ q sl', slotOf (Machine.withSlot s p sl) q = some sl' → sl' = sl ∨ slotOf s q = some sl' := by
    intro q sl' hq
    by_cases e : q = p
    · subst e
      cases ho : slotOf s q with
      | none =>
        have := slotOf_withSlot_isSome s q q sl
        simp [ho, hq] at this
      | some old =>
        rw [slotOf_withSlot_self sl ho] at hq
        cases hq
        exact .inl rfl
    · rw [slotOf_withSlot_ne s sl e] at hq
      exact .inr hq
  refine ⟨by simpa using h.producers, by simpa using h.consumers, ?_, ?_, ?_, ?_, ?_⟩
  · cases p with
    | k => exact hs.request
    | p i => exact h.control
    | q j => exact h.control
  · cases p with
    | k => exact h.producerReqs
    | p i =>
      intro sl' hm
      rcases List.mem_or_eq_of_mem_set hm with hm | rfl
      · exact h.producerReqs sl' hm
      · exact hs.request
    | q j => exact h.producerReqs
  · cases p with
    | k => exact h.consumerReqs
    | p i => exact h.consumerReqs
    | q j =>
      intro sl' hm
      rcases List.mem_or_eq_of_mem_set hm with hm | rfl
      · exact h.consumerReqs sl' hm
      · exact hs.request
  · intro q sl' hq
    rcases found q sl' hq with rfl | hq
    · exact hs.oneAtATime
    · exact h.oneAtATime q sl' hq
  · intro q sl' r hq hr
    rcases found q sl' hq with rfl | hq
    · exact hs.response r hr
    · exact h.responses q sl' r hq hr

/-- The invariant of the slots depends on the slots and the parameters only. -/
theorem SlotsInv.congr {s t : State} (h : SlotsInv s) (hp : t.params = s.params) (hk : t.portK = s.portK)
    (hps : t.portsP = s.portsP) (hqs : t.portsQ = s.portsQ) : SlotsInv t := by
  refine ⟨by rw [hps, hp]; exact h.producers, by rw [hqs, hp]; exact h.consumers, by rw [hk]; exact h.control,
    by rw [hps]; exact h.producerReqs, by rw [hqs]; exact h.consumerReqs, fun p sl e => ?_, fun p sl r e => ?_⟩ <;>
    rw [slotOf_congr hk hps hqs] at e
  · exact h.oneAtATime p sl e
  · exact h.responses p sl r e

/-- The slots of a port the block has are allowed ones. -/
theorem SlotsInv.slotOk {s : State} (h : SlotsInv s) {p : Port} {sl : Slot} (hs : slotOf s p = some sl) :
    SlotOk p sl := by
  refine ⟨?_, h.oneAtATime p sl hs, fun r => h.responses p sl r hs⟩
  cases p with
  | k =>
    simp only [slotOf, Option.some.injEq] at hs
    exact hs ▸ h.control
  | p i => exact h.producerReqs sl (List.mem_of_getElem? hs)
  | q j => exact h.consumerReqs sl (List.mem_of_getElem? hs)

/-- The invariant of the slots, from the slots of each class. -/
theorem SlotsInv.of_slots {s : State} (hp : s.portsP.length = s.params.nW) (hq : s.portsQ.length = s.params.nR)
    (k : SlotOk .k s.portK) (p : ∀ sl ∈ s.portsP, SlotOk (.p 0) sl) (q : ∀ sl ∈ s.portsQ, SlotOk (.q 0) sl) :
    SlotsInv s := by
  have all : ∀ x sl, slotOf s x = some sl → (sl.req = none ∨ sl.rsp = none) ∧ ∀ r, sl.rsp = some r → ResponseOk r := by
    intro x sl h
    cases x with
    | k =>
      simp only [slotOf, Option.some.injEq] at h
      exact h ▸ ⟨k.oneAtATime, k.response⟩
    | p i => exact ⟨(p sl (List.mem_of_getElem? h)).oneAtATime, (p sl (List.mem_of_getElem? h)).response⟩
    | q j => exact ⟨(q sl (List.mem_of_getElem? h)).oneAtATime, (q sl (List.mem_of_getElem? h)).response⟩
  exact ⟨hp, hq, k.request, fun sl h => (p sl h).request, fun sl h => (q sl h).request, fun x sl h => (all x sl h).1,
    fun x sl r h => (all x sl h).2 r⟩

/-- A slot filled with a request is the only way to a pending request. -/
theorem somePending_withSlot {s : State} {p : Port} {sl : Slot} (h : somePending (withSlot s p sl))
    (hs : sl.req = none) : somePending s := by
  obtain ⟨q, sl', hq, hr⟩ := h
  by_cases e : q = p
  · subst e
    cases ho : slotOf s q with
    | none =>
      have := slotOf_withSlot_isSome s q q sl
      simp [ho, hq] at this
    | some old =>
      rw [slotOf_withSlot_self sl ho] at hq
      cases hq
      exact absurd hs hr
  · exact ⟨q, sl', by rw [← hq, slotOf_withSlot_ne s sl e], hr⟩

/-- Replacing one port's slots by allowed ones keeps the invariant. -/
theorem BlockInv.withSlot {s : State} (h : BlockInv s) {p : Port} {sl : Slot} (hs : SlotOk p sl)
    (hu : s.mode = .uninit → sl.req = none) : BlockInv (withSlot s p sl) := by
  refine ⟨by simpa using h.params, by simpa using h.memory, h.slots.withSlot hs, fun hm => ?_, fun hm => ?_⟩
  · exact (h.ready (by simpa using hm)).congr (by simp) (by simp) (by simp) (by simp) (by simp) (by simp) (by simp)
      (by simp)
  · have hm' : s.mode = .uninit := by simpa using hm
    have := h.uninit hm'
    exact ⟨by simpa using this.cap, by simpa using this.rp, by simpa using this.wp, by simpa using this.rpVis,
      by simpa using this.wpVis, fun hp => this.idle (somePending_withSlot hp (hu hm'))⟩

/-- An answer the block may give keeps the invariant. -/
theorem BlockInv.respond {s : State} (h : BlockInv s) (p : Port) {r : Response} (hr : ResponseOk r) :
    BlockInv (respond s p r) :=
  h.withSlot (slotOk_of_answer hr) fun _ => rfl

/-- The model's own fields play no part in the invariant, but for the draw of a `READY` ring's unspecified bytes. -/
theorem BlockInv.congr {s t : State} (h : BlockInv s) (hp : t.params = s.params) (hm : t.mode = s.mode) (hc : t.cap = s.cap)
    (hr : t.ring = s.ring) (h1 : t.rp = s.rp) (h2 : t.wp = s.wp) (h3 : t.rpVis = s.rpVis) (h4 : t.wpVis = s.wpVis)
    (hk : t.portK = s.portK) (hps : t.portsP = s.portsP) (hqs : t.portsQ = s.portsQ)
    (hd : s.mode = .ready → t.ringDraw = s.ringDraw) : BlockInv t := by
  refine ⟨hp ▸ h.params, by rw [hp, hr]; exact h.memory, h.slots.congr hp hk hps hqs, fun e => ?_, fun e => ?_⟩
  · exact (h.ready (hm ▸ e)).congr hp hc hr h1 h2 h3 h4 (hd (hm ▸ e))
  · have := h.uninit (hm ▸ e)
    refine ⟨hc.trans this.cap, h1.trans this.rp, h2.trans this.wp, h3.trans this.rpVis, h4.trans this.wpVis, ?_⟩
    rintro ⟨p, sl, hsl, hreq⟩
    rw [slotOf_congr hk hps hqs] at hsl
    exact this.idle ⟨p, sl, hsl, hreq⟩

end Machine
end Sys2Proof
end

