-- ==== Sys2Proof/Laws/PerInstr.lean ====
section
/-! SUPPORT. Statements made per instruction: the length and the command word of a request's unit (R70, R71). -/

namespace Sys2Proof
namespace Laws
namespace UnitShape

/-- A request's unit has the length R71 gives it and begins with its command word (R69, R70). -/
def Statement (i : Instr) : Prop :=
  (encode i).length = i.unitLength ∧ (encode i).take 4 = leEncode 4 i.commandWord

theorem take_commandWord (i : Instr) : (encode i).take 4 = leEncode 4 i.commandWord := by
  rw [encode, List.append_assoc, List.take_left' (by simp)]

theorem init (cap : Word) : Statement (.init cap) := ⟨by simp [Instr.unitLength], take_commandWord _⟩

theorem write (data : List Byte) : Statement (.write data) := ⟨by simp [Instr.unitLength], take_commandWord _⟩

theorem read (cap : Word) : Statement (.read cap) := ⟨by simp [Instr.unitLength], take_commandWord _⟩

theorem destroy : Statement .destroy := ⟨by simp [Instr.unitLength], take_commandWord _⟩

theorem writePkt (src dst seq : Word) (msg : List Byte) : Statement (.writePkt src dst seq msg) :=
  ⟨by simp [Instr.unitLength], take_commandWord _⟩

theorem status (reg : Byte) : Statement (.status reg) := ⟨by simp [Instr.unitLength], take_commandWord _⟩

end UnitShape
end Laws
end Sys2Proof
end

