-- ==== Sys2Proof/Laws/Queue.lean ====
section
/-! SUPPORT. What a write commit and a read commit do to the cursors and to the queue of frames (R34, R53, R88, R97), said once; and what a `READY` state's storage and a pending request anywhere amount to. -/

namespace Sys2Proof
namespace Machine

/-- The check of R83, over the slots as the model walks them and over the ports. -/
theorem anyPending_iff (s : State) : anyPending s = true ↔ somePending s := by
  have pend : ∀ sl : Slot, sl.isPending = true ↔ sl.req ≠ none := fun sl => by
    simp [Slot.isPending, Option.isSome_iff_ne_none]
  simp only [anyPending, Bool.or_eq_true, List.any_eq_true, pend]
  constructor
  · rintro ((h | ⟨sl, hm, h⟩) | ⟨sl, hm, h⟩)
    · exact ⟨.k, s.portK, rfl, h⟩
    · obtain ⟨n, hn⟩ := List.mem_iff_getElem?.1 hm
      exact ⟨.p n, sl, hn, h⟩
    · obtain ⟨n, hn⟩ := List.mem_iff_getElem?.1 hm
      exact ⟨.q n, sl, hn, h⟩
  · rintro ⟨p, sl, h, hr⟩
    cases p with
    | k =>
      simp only [slotOf, Option.some.injEq] at h
      exact .inl (.inl (h ▸ hr))
    | p n => exact .inl (.inr ⟨sl, List.mem_of_getElem? h, hr⟩)
    | q n => exact .inr ⟨sl, List.mem_of_getElem? h, hr⟩

/-- A `READY` ring's storage exists (R20, R21). -/
theorem ReadyInv.storage {s : State} (h : ReadyInv s) : storageOk s = true := by
  rw [storageOk_iff]
  exact ⟨Nat.lt_of_lt_of_le (by decide) h.capLow, h.capHigh⟩

theorem BlockInv.capInStorage {s : State} (h : BlockInv s) : capInStorage s := fun hm =>
  (storageOk_iff s).1 (h.ready hm).storage

/-- The queue a `READY` ring holds is read from the shared state alone. -/
theorem holdsQueue_congr {s t : State} {seen unseen : List (List Byte)} (hc : t.cap = s.cap) (h1 : t.rp = s.rp)
    (h2 : t.wp = s.wp) (h4 : t.wpVis = s.wpVis) (hb : ∀ x, ringByte t x = ringByte s x)
    (hq : holdsQueue s seen unseen) : holdsQueue t seen unseen := by
  unfold holdsQueue
  rw [hc, h1, h2, h4]
  exact ⟨framesAt_congr hc (fun _ _ => hb _) hq.1, framesAt_congr hc (fun _ _ => hb _) hq.2⟩

/-- An answer leaves the queue as it was. -/
theorem holdsQueue_respond {s : State} {seen unseen : List (List Byte)} (p : Port) (r : Response)
    (hq : holdsQueue s seen unseen) : holdsQueue (respond s p r) seen unseen :=
  holdsQueue_congr (by simp) (by simp) (by simp) (by simp) (ringByte_respond s p r) hq

/-- A write commit of a payload that fits, told by the fields it leaves behind (R88): `WP` is its framed size further
from every cursor behind it, and the queue has the payload at its unseen end. -/
theorem ReadyInv.commit {s t : State} (h : ReadyInv s) {payload : List Byte} (hpl : payload.length ≤ maxPayload)
    (hf : 8 + payload.length ≤ wrAvail s) (hc : t.cap = s.cap) (hp : t.params = s.params)
    (hr : t.ring = commitBytes s payload) (h1 : t.rp = s.rp) (h2 : t.wp = (s.wp + (8 + payload.length)) % s.cap)
    (h3 : t.rpVis = s.rpVis) (h4 : t.wpVis = s.wpVis) (hd : t.ringDraw = s.ringDraw) :
    ReadyInv t ∧ ringDist t.cap t.rp t.wp = ringDist s.cap s.rp s.wp + (8 + payload.length) ∧
      ∀ seen unseen, holdsQueue s seen unseen → holdsQueue t seen (unseen ++ [payload]) := by
  have hw := h.wrAvail_eq
  have hlow := h.capLow
  have hwv := h.writeView
  have hrv := h.readView
  have c0 : 0 < s.cap := Nat.lt_of_lt_of_le (by decide) hlow
  obtain ⟨l1, l2⟩ := commitBytes_lookup (s := s) (payload := payload) (by omega)
  have hwp := add_ringDist_mod h.rpRange h.wpRange
  have hvis := add_ringDist_mod h.rpRange h.wpVisRange
  set b := ringDist s.cap s.rp s.wp with hb
  have old : ∀ k, k < b →
      ringLookup t.ring ((s.rp + k) % s.cap) = ringLookup s.ring ((s.rp + k) % s.cap) := fun k hk => by
    rw [hr]
    refine l2 _ fun j hj e => ?_
    rw [offset_shift hwp] at e
    have := offset_inj (by omega) (by omega) e
    omega
  have oldByte : ∀ k, k < b → ringByte t ((s.rp + k) % s.cap) = ringByte s ((s.rp + k) % s.cap) := fun k hk => by
    simp [ringByte, old k hk, hd]
  have new : ∀ k, (hk : k < (frame payload).length) →
      ringLookup t.ring ((s.rp + (b + k)) % s.cap) = some (frame payload)[k] := fun k hk => by
    rw [hr, ← l1 k hk, offset_shift hwp]
  have e1 : ringDist s.cap s.rp ((s.wp + (8 + payload.length)) % s.cap) = b + (8 + payload.length) :=
    ringDist_step h.rpRange h.wpRange (by omega)
  have e2 : ringDist s.cap s.wpVis ((s.wp + (8 + payload.length)) % s.cap) =
      ringDist s.cap s.wpVis s.wp + (8 + payload.length) := ringDist_step h.wpVisRange h.wpRange (by omega)
  have hq : ∀ seen unseen, holdsQueue s seen unseen → holdsQueue t seen (unseen ++ [payload]) := by
    rintro seen unseen ⟨q1, q2⟩
    unfold holdsQueue
    rw [hc, h1, h2, h4, e2]
    refine ⟨framesAt_congr hc (fun k hk => oldByte k (by omega)) q1, framesAt_append ?_ ⟨?_, by simpa using hpl⟩⟩
    · refine framesAt_congr hc (fun k hk => ?_) q2
      rw [offset_shift hvis]
      exact oldByte _ (by omega)
    · have := memRead_eq_of_lookup (s := t) (a := s.wpVis + ringDist s.cap s.wpVis s.wp) (bytes := frame payload)
        fun k hk => by
          rw [← new k hk, hc, Nat.add_assoc, offset_shift hvis]
          congr 2
          omega
      simpa using this
  refine ⟨⟨?_, ?_, ?_, ?_, ?_, ?_, ?_, ?_, ?_, ?_, ?_⟩, by rw [hc, h1, h2, e1], hq⟩ <;>
    try simp only [hc, hp, h1, h2, h3, h4, e1, e2]
  · exact hlow
  · exact h.capHigh
  · exact h.capWord
  · exact h.rpRange
  · exact Nat.mod_lt _ c0
  · exact h.rpVisRange
  · exact h.wpVisRange
  · omega
  · omega
  · obtain ⟨x, y, hxy⟩ := h.frames
    exact ⟨_, _, hq _ _ hxy⟩
  · intro k hk
    rcases Nat.lt_or_ge k b with hkb | hkb
    · rw [old k hkb]
      exact h.written k hkb
    · have := new (k - b) (by simp; omega)
      rw [show b + (k - b) = k by omega] at this
      rw [this]
      rfl

/-- In a `READY` state whose read side sees a header, the whole head frame is in sight (R34, R101). -/
theorem ReadyInv.headFits {s : State} (h : ReadyInv s) (hv : 8 ≤ ringDist s.cap s.rp s.wpVis) :
    8 + headLength s ≤ ringDist s.cap s.rp s.wpVis := by
  obtain ⟨seen, unseen, q1, -⟩ := h.frames
  obtain ⟨f, rest, -, hf, -, hl, -⟩ := framesAt_head q1 hv
  exact (show headLength s = f.length from hl) ▸ hf

/-- A read commit, told by the fields it leaves behind (R97): `RP` is the head frame's size further on, and the queue has
lost its oldest payload, which is what the ring held behind the header. -/
theorem ReadyInv.readCommit {s t : State} (h : ReadyInv s) (hv : 8 ≤ ringDist s.cap s.rp s.wpVis) (hc : t.cap = s.cap)
    (hp : t.params = s.params) (hr : t.ring = s.ring) (h1 : t.rp = (s.rp + (8 + headLength s)) % s.cap)
    (h2 : t.wp = s.wp) (h3 : t.rpVis = s.rpVis) (h4 : t.wpVis = s.wpVis) (hd : t.ringDraw = s.ringDraw) :
    ReadyInv t ∧ ringDist s.cap s.rp s.wp = ringDist t.cap t.rp t.wp + (8 + headLength s) ∧
      ∀ seen unseen, holdsQueue s seen unseen →
        ∃ f rest, seen = f :: rest ∧ headLength s = f.length ∧ memRead s (s.rp + 8) f.length = f ∧
          holdsQueue t rest unseen := by
  have hlow := h.capLow
  have hwv := h.writeView
  have hrv := h.readView
  have hF := h.headFits hv
  have c0 : 0 < s.cap := Nat.lt_of_lt_of_le (by decide) hlow
  have hb : ∀ x, ringByte t x = ringByte s x := fun x => by simp [ringByte, hr, hd]
  have e1 : ringDist s.cap ((s.rp + (8 + headLength s)) % s.cap) s.wpVis =
      ringDist s.cap s.rp s.wpVis - (8 + headLength s) := ringDist_advance h.rpRange h.wpVisRange (by omega)
  have e2 : ringDist s.cap ((s.rp + (8 + headLength s)) % s.cap) s.wp =
      ringDist s.cap s.rp s.wp - (8 + headLength s) := ringDist_advance h.rpRange h.wpRange (by omega)
  have e3 : ringDist s.cap s.rpVis ((s.rp + (8 + headLength s)) % s.cap) =
      ringDist s.cap s.rpVis s.rp + (8 + headLength s) := ringDist_step h.rpVisRange h.rpRange (by omega)
  have hq : ∀ seen unseen, holdsQueue s seen unseen →
      ∃ f rest, seen = f :: rest ∧ headLength s = f.length ∧ memRead s (s.rp + 8) f.length = f ∧
        holdsQueue t rest unseen := by
    rintro seen unseen ⟨q1, q2⟩
    obtain ⟨f, rest, rfl, -, -, c, d, e⟩ := framesAt_head q1 hv
    have hl : headLength s = f.length := c
    refine ⟨f, rest, rfl, hl, d, ?_⟩
    unfold holdsQueue
    rw [hc, h1, h2, h4, e1, hl]
    refine ⟨?_, framesAt_congr hc (fun _ _ => hb _) q2⟩
    have := (framesAt_mod (s := t) (a := s.rp + (8 + f.length))).2 (framesAt_congr hc (fun _ _ => hb _) e)
    rwa [hc] at this
  refine ⟨⟨?_, ?_, ?_, ?_, ?_, ?_, ?_, ?_, ?_, ?_, ?_⟩, by rw [hc, h1, h2, e2]; omega, hq⟩ <;>
    try simp only [hc, hp, h1, h2, h3, h4, e1, e2, e3]
  · exact hlow
  · exact h.capHigh
  · exact h.capWord
  · exact Nat.mod_lt _ c0
  · exact h.wpRange
  · exact h.rpVisRange
  · exact h.wpVisRange
  · omega
  · omega
  · obtain ⟨seen, unseen, hxy⟩ := h.frames
    obtain ⟨_, _, -, -, -, hh⟩ := hq _ _ hxy
    exact ⟨_, _, hh⟩
  · intro k hk
    have := h.written (8 + headLength s + k) (by omega)
    rw [hr, Nat.mod_add_mod]
    rwa [← Nat.add_assoc] at this

end Machine
end Sys2Proof
end

