-- ==== Sys2Proof/Machine/Assembler.lean ====
section
/-! DEFINITION. The textual syntax of R79: a line of text to a request at a port, an environment line or a named step, and the steps such a line schedules. -/

namespace Sys2Proof
namespace Machine

/-! Characters and numbers. -/

/-- The value of a hexadecimal digit. -/
def hexDigit (c : Char) : Option Nat :=
  if '0' ≤ c ∧ c ≤ '9' then some (c.toNat - '0'.toNat)
  else if 'a' ≤ c ∧ c ≤ 'f' then some (c.toNat - 'a'.toNat + 10)
  else if 'A' ≤ c ∧ c ≤ 'F' then some (c.toNat - 'A'.toNat + 10)
  else none

/-- The digits of a number in base `base`, most significant first, after those that make `acc`. -/
def digitsFrom (base : Nat) : Nat → List Char → Option Nat
  | acc, [] => some acc
  | acc, c :: cs =>
    match hexDigit c with
    | some d => if d < base then digitsFrom base (base * acc + d) cs else none
    | none => none

/-- A number, decimal or `0x` hexadecimal (R79). -/
def numeral : List Char → Option Nat
  | [] => none
  | ['0', 'x'] => none
  | '0' :: 'x' :: cs => digitsFrom 16 0 cs
  | cs => digitsFrom 10 0 cs

/-- A number that fits an operand word (R72). -/
def wordNumeral (cs : List Char) : Option Word :=
  match numeral cs with
  | some v => if v < 2 ^ 64 then some (BitVec.ofNat 64 v) else none
  | none => none

/-- The bytes of a quoted ASCII string, one byte a character, no terminator (R79). -/
def asciiBytes : List Char → Option (List Byte)
  | [] => some []
  | c :: cs =>
    if c.toNat < 128 then (asciiBytes cs).map (BitVec.ofNat 8 c.toNat :: ·) else none

/-- The bytes of `x"…"`, two hexadecimal digits a byte (R79). -/
def hexBytes : List Char → Option (List Byte)
  | [] => some []
  | [_] => none
  | c :: d :: cs =>
    match hexDigit c, hexDigit d with
    | some hi, some lo => (hexBytes cs).map (BitVec.ofNat 8 (16 * hi + lo) :: ·)
    | _, _ => none

/-! Tokens. -/

/-- A token of a line: a word or number, one of the signs `:` `,` `@` `(` `)`, or a byte string. -/
inductive Token where
  | word (cs : List Char)
  | sign (c : Char)
  | bytes (bs : List Byte)
deriving DecidableEq, Repr

/-- Where the scanner stands: in a word whose characters so far are held in reverse, or inside quotes. -/
inductive Scan where
  | plain (acc : List Char)
  | quoted (hex : Bool) (acc : List Char)
deriving DecidableEq, Repr

def isWordChar (c : Char) : Bool := c.isAlphanum || c == '_'

/-- The word the scanner has gathered, as a token, before those that follow. -/
def wordBefore (acc : List Char) (rest : List Token) : List Token :=
  match acc with
  | [] => rest
  | _ => .word acc.reverse :: rest

/-- The tokens of a line; `none` for a character R79 does not use or an open quote. -/
def tokens : Scan → List Char → Option (List Token)
  | .plain acc, [] => some (wordBefore acc [])
  | .quoted _ _, [] => none
  | .plain acc, c :: cs =>
    if isWordChar c then tokens (.plain (c :: acc)) cs
    else if c = '"' then
      if acc = ['x'] then tokens (.quoted true []) cs
      else (tokens (.quoted false []) cs).map (wordBefore acc)
    else if c = ' ' then (tokens (.plain []) cs).map (wordBefore acc)
    else if c = ':' ∨ c = ',' ∨ c = '@' ∨ c = '(' ∨ c = ')' then
      (tokens (.plain []) cs).map fun ts => wordBefore acc (.sign c :: ts)
    else none
  | .quoted hex acc, c :: cs =>
    if c = '"' then
      match if hex then hexBytes acc.reverse else asciiBytes acc.reverse with
      | some bs => (tokens (.plain []) cs).map (.bytes bs :: ·)
      | none => none
    else tokens (.quoted hex (c :: acc)) cs

/-! Names. -/

/-- `K`, `P<i>` or `Q<j>` (R79). -/
def portName : List Char → Option Port
  | ['K'] => some .k
  | 'P' :: c :: cs => (digitsFrom 10 0 (c :: cs)).map .p
  | 'Q' :: c :: cs => (digitsFrom 10 0 (c :: cs)).map .q
  | _ => none

/-- The names of the status registers, in the order of their indices 0x00 to 0x0E (R42). -/
def registerNames : List (List Char) :=
  ["STATE".toList, "CAPACITY".toList, "RD_SPACE".toList, "WR_SPACE".toList, "RPTR".toList, "WPTR".toList,
   "HDR_BYTES".toList, "FIELD_BYTES".toList, "PORT_MIN".toList, "PORT_MAX".toList, "CAP_MAX".toList,
   "PEND_W".toList, "PEND_R".toList, "NUM_P".toList, "NUM_Q".toList]

/-- The register a `STATUS` line names: by its name, or by its index, as vector L-12 of 95_test_vectors.md writes it. -/
def registerIndex (cs : List Char) : Option Byte :=
  match registerNames.findIdx? (· == cs) with
  | some n => some (BitVec.ofNat 8 n)
  | none =>
    match numeral cs with
    | some n => if n < 256 then some (BitVec.ofNat 8 n) else none
    | none => none

/-- The names of the status codes (R74). -/
def statusName (cs : List Char) : Option Status :=
  if cs = "OK".toList then some .ok
  else if cs = "FULL".toList then some .full
  else if cs = "EMPTY".toList then some .empty
  else if cs = "UNDERSIZED".toList then some .undersized
  else if cs = "BADCMD".toList then some .badCmd
  else if cs = "BADARG".toList then some .badArg
  else if cs = "BADSTATE".toList then some .badState
  else none

/-! Lines. -/

/-- A line of R79. -/
inductive Line where
  /-- `<port>: <mnemonic> <operands>` -/
  | request (p : Port) (i : Instr)
  /-- `TAKE <port>` -/
  | takeFrom (p : Port)
  /-- `@<step>` -/
  | internal (e : Event)
  /-- `REPEAT <line> UNTIL <status>`, of a request line -/
  | repeatUntil (p : Port) (i : Instr) (st : Status)
deriving DecidableEq, Repr

/-- The mnemonic and operands of a request line, with the pseudo-instruction `WRITE <bytes>` (R79). -/
def requestOf : List Token → Option Instr
  | [.word m] => if m = "DESTROY".toList then some .destroy else none
  | [.word m, .word n] =>
    if m = "INIT".toList then (wordNumeral n).map .init
    else if m = "READ".toList then (wordNumeral n).map .read
    else if m = "STATUS".toList then (registerIndex n).map .status
    else none
  | [.word m, .bytes bs] => if m = "WRITE".toList then some (.write bs) else none
  | [.word m, .word n, .sign ',', .bytes bs] =>
    if m = "WRITE".toList ∧ numeral n = some bs.length then some (.write bs) else none
  | [.word m, .word a, .sign ',', .word b, .sign ',', .word c, .sign ',', .bytes bs] =>
    if m = "WRITE_PKT".toList then
      match wordNumeral a, wordNumeral b, wordNumeral c with
      | some src, some dst, some seq => some (.writePkt src dst seq bs)
      | _, _, _ => none
    else none
  | _ => none

/-- `<port>: <request>`. -/
def requestLine : List Token → Option (Port × Instr)
  | .word p :: .sign ':' :: rest =>
    match portName p, requestOf rest with
    | some p, some i => some (p, i)
    | _, _ => none
  | _ => none

/-- The step an `@` line names. -/
def stepNamed : List Token → Option Event
  | [.word s] =>
    if s = "SYNC_R".toList then some .syncR else if s = "SYNC_W".toList then some .syncW else none
  | [.word s, .sign '(', .word p, .sign ')'] =>
    match portName p with
    | some (.p n) =>
      if s = "SERVE_W".toList then some (.serveW n)
      else if s = "TIMEOUT_W".toList then some (.timeoutW n) else none
    | some (.q n) =>
      if s = "SERVE_R".toList then some (.serveR n)
      else if s = "TIMEOUT_R".toList then some (.timeoutR n) else none
    | _ => none
  | _ => none

/-- A line from its tokens. -/
def lineOf (ts : List Token) : Option Line :=
  match ts with
  | .sign '@' :: rest => (stepNamed rest).map .internal
  | .word w :: rest =>
    if w = "TAKE".toList then
      match rest with
      | [.word p] => (portName p).map .takeFrom
      | _ => none
    else if w = "REPEAT".toList then
      match rest.reverse with
      | .word st :: .word u :: line =>
        if u = "UNTIL".toList then
          match requestLine line.reverse, statusName st with
          | some (p, i), some st => some (.repeatUntil p i st)
          | _, _ => none
        else none
      | _ => none
    else (requestLine ts).map fun r => .request r.1 r.2
  | _ => none

/-- A line of text (R79); `none` where it is none. -/
def assemble (text : List Char) : Option Line := (tokens (.plain []) text).bind lineOf

/-! The steps of a line. -/

/-- The tries of a `REPEAT` line: each issues the request, lets the schedule take the steps listed for that try, and takes
the response. -/
def repeatSteps (p : Port) (i : Instr) (tries : List (List Event)) : List Event :=
  (tries.map fun between => .issue p (encode i) :: between ++ [.take p]).flatten

/-- The steps a line schedules; of a `REPEAT`, one try for each list of steps between. -/
def Line.steps (tries : List (List Event)) : Line → List Event
  | .request p i => [.issue p (encode i)]
  | .takeFrom p => [.take p]
  | .internal e => [e]
  | .repeatUntil p i _ => repeatSteps p i tries

/-- A `REPEAT` ends with the try whose response has the status it names; every other line is done at once. -/
def Line.doneAfter (r : Response) : Line → Bool
  | .repeatUntil _ _ st => r.status == st
  | _ => true

end Machine
end Sys2Proof
end

