-- ==== Sys2Proof/Tests/Slice0.lean ====
section
/-! SUPPORT. Tests on expected results taken from 95_test_vectors.md or worked out by hand from the rules, and one witness for the hypotheses of every obligation that has some. -/

namespace Sys2Proof
namespace Tests
open Machine

/-! ## Ill-formed requests (WellFormed) -/

/-- A string of bytes one too long for a 64-bit length word. -/
def tooLong : List Byte := List.replicate (2 ^ 64) 0

theorem tooLong_length : tooLong.length = 2 ^ 64 := List.length_replicate

theorem test_wellFormed_write_too_long : (Instr.write tooLong).wellFormed = false := by
  rw [Instr.wellFormed, fitsLengthWord, tooLong_length]
  decide

theorem test_wellFormed_writePkt_too_long : (Instr.writePkt 1 7 0 tooLong).wellFormed = false := by
  rw [Instr.wellFormed, fitsLengthWord, tooLong_length]
  decide

theorem test_wellFormed_accepts : (Instr.write [0x61]).wellFormed = true ∧ (Instr.writePkt 1 7 0 []).wellFormed = true ∧
    (Instr.init 64).wellFormed = true ∧ (Instr.read 0).wellFormed = true ∧ Instr.destroy.wellFormed = true ∧
    (Instr.status 0xFF).wellFormed = true := by decide

/-! ## Decoding: units written out byte by byte from R69 to R72 (vectors E-20 to E-25), and refusals by name -/

theorem test_decode_init : decode [0x01, 0, 0, 0, 0x40, 0, 0, 0, 0, 0, 0, 0] = .ok (.init 64) := by decide

theorem test_decode_write :
    decode [0x02, 0, 0, 0, 0x05, 0, 0, 0, 0, 0, 0, 0, 0x68, 0x65, 0x6C, 0x6C, 0x6F] =
      .ok (.write [0x68, 0x65, 0x6C, 0x6C, 0x6F]) := by decide

/-- Every byte of an operand word counts, the first the least (R14, R72). -/
theorem test_decode_read_byte_order :
    decode [0x03, 0, 0, 0, 0x08, 0x07, 0x06, 0x05, 0x04, 0x03, 0x02, 0x01] = .ok (.read 0x0102030405060708) := by decide

theorem test_decode_destroy : decode [0x04, 0, 0, 0] = .ok .destroy := by decide

theorem test_decode_writePkt :
    decode [0x05, 0, 0, 0, 0x01, 0, 0, 0, 0, 0, 0, 0, 0x07, 0, 0, 0, 0, 0, 0, 0, 0x09, 0, 0, 0, 0, 0, 0, 0,
      0x02, 0, 0, 0, 0, 0, 0, 0, 0x41, 0x42] = .ok (.writePkt 1 7 9 [0x41, 0x42]) := by decide

theorem test_decode_status : decode [0x06, 0x02, 0, 0] = .ok (.status 2) := by decide

/-- E-1 to E-3, and the first reserved opcode above `STATUS`. -/
theorem test_decode_reserved_op : decode [0x00, 0, 0, 0] = .error .reservedOp ∧
    decode [0x07, 0, 0, 0] = .error .reservedOp ∧ decode [0x0F, 0, 0, 0] = .error .reservedOp := by decide

/-- E-4 and E-5. -/
theorem test_decode_reserved_bits :
    decode [0x11, 0, 0, 0, 0x40, 0, 0, 0, 0, 0, 0, 0] = .error .reservedBits ∧
    decode [0x01, 0, 0x01, 0, 0x40, 0, 0, 0, 0, 0, 0, 0] = .error .reservedBits ∧
    decode [0x06, 0x02, 0, 0x80] = .error .reservedBits := by decide

/-- E-6. -/
theorem test_decode_reg_not_zero :
    decode [0x01, 0x02, 0, 0, 0x40, 0, 0, 0, 0, 0, 0, 0] = .error .regNotZero := by decide

/-- E-15, and units a byte too long or too short. -/
theorem test_decode_bad_length :
    decode [0x02, 0, 0, 0, 0x05, 0, 0, 0, 0, 0, 0, 0, 0x61, 0x61, 0x61, 0x61] = .error .badLength ∧
    decode [0x04, 0, 0, 0, 0] = .error .badLength ∧ decode [0x03, 0, 0, 0, 0x05] = .error .badLength ∧
    decode [0x05, 0, 0, 0] = .error .badLength := by decide

theorem test_decode_no_command_word : decode [] = .error .noCommandWord ∧
    decode [0x04, 0, 0] = .error .noCommandWord := by decide

/-- The host's numbering: bits 31..0 the command word, the operand words above it. -/
theorem test_decodeTableWord : decodeTableWord 32 0x00000206 = some (.status 2) ∧
    decodeTableWord 96 0x0000000000000040_00000001 = some (.init 64) ∧
    decodeTableWord 32 0x00000005 = some (.writePkt 0 0 0 []) ∧ decodeTableWord 32 0x00000007 = none := by decide

/-! ## The textual syntax (R79) -/

theorem test_assemble_write :
    assemble "P0: WRITE 5, \"hello\"".toList = some (.request (.p 0) (.write [0x68, 0x65, 0x6C, 0x6C, 0x6F])) := by decide

theorem test_assemble_writePkt :
    assemble "P1: WRITE_PKT 1, 0x10, 0, \"AB\"".toList = some (.request (.p 1) (.writePkt 1 16 0 [0x41, 0x42])) := by decide

/-- The pseudo-instruction, hexadecimal bytes, and a length that is not the byte count. -/
theorem test_assemble_bytes :
    assemble "P0: WRITE x\"0aFF\"".toList = some (.request (.p 0) (.write [0x0A, 0xFF])) ∧
    assemble "P0: WRITE 3, \"ab\"".toList = none := by decide

theorem test_assemble_names :
    assemble "K: STATUS WR_SPACE".toList = some (.request .k (.status 3)) ∧
    assemble "K: STATUS 0x0F".toList = some (.request .k (.status 0x0F)) ∧
    assemble "K: INIT 64".toList = some (.request .k (.init 64)) ∧
    assemble "Q1: READ 0x40".toList = some (.request (.q 1) (.read 64)) ∧
    assemble "K: DESTROY".toList = some (.request .k .destroy) := by decide

theorem test_assemble_environment :
    assemble "@TIMEOUT_R(Q0)".toList = some (.internal (.timeoutR 0)) ∧
    assemble "@SYNC_W".toList = some (.internal .syncW) ∧ assemble "TAKE P0".toList = some (.takeFrom (.p 0)) ∧
    assemble "REPEAT P0: WRITE 1, \"W\" UNTIL OK".toList = some (.repeatUntil (.p 0) (.write [0x57]) .ok) := by decide

/-! ## Small states -/

/-- A `READY` state of the build of 95_test_vectors.md, every slot empty. -/
def ready (cap rp wp rpVis wpVis : Nat) (ring : Memory) : State :=
  { State.reset with mode := .ready, cap := cap, ring := ring, rp := rp, wp := wp, rpVis := rpVis, wpVis := wpVis }

/-- Written bytes from offset `a` on. -/
def cells : Nat → List Byte → Memory
  | _, [] => []
  | a, b :: bs => (a, b) :: cells (a + 1) bs

def helloBytes : List Byte := [0x68, 0x65, 0x6C, 0x6C, 0x6F]

/-- After `INIT 64`. -/
def empty64 : State := ready 64 0 0 0 0 []

/-- W-1's end: one frame `"hello"`, not yet in the read side's sight. -/
def helloUnseen : State := ready 64 0 13 0 0 (cells 0 ([5, 0, 0, 0, 0, 0, 0, 0] ++ helloBytes))

/-- W-1's end, then `SYNC_R`. -/
def hello : State := { helloUnseen with wpVis := 13 }

/-- `helloUnseen` with a `READ` pending at `Q0`, which is blocked. -/
def unseenRead : State := withSlot helloUnseen (.q 0) { req := some (.read 64) }

/-- `hello` with a `READ` of capacity `cap` pending at `Q0`. -/
def helloRead (cap : Word) : State := withSlot hello (.q 0) { req := some (.read cap) }

/-- W-3's end, then `SYNC_R`: one packet `1, 7, 0, "AB"`. -/
def packetSeen : State :=
  ready 64 0 34 0 34 (cells 0 ([0x1A, 0, 0, 0, 0, 0, 0, 0] ++ [1, 0, 0, 0, 0, 0, 0, 0] ++ [7, 0, 0, 0, 0, 0, 0, 0] ++
    [0, 0, 0, 0, 0, 0, 0, 0] ++ [0x41, 0x42]))

/-- P1 after step 5, with the write of step 6 pending at `P0`: the ring is empty and its next frame wraps. -/
def wrapPending : State :=
  withSlot (ready 32 18 18 18 18 [])
    (.p 0) { req := some (.write opWrite [0x41, 0x42, 0x43, 0x44, 0x45, 0x46, 0x47, 0x48, 0x49, 0x4A]) }

/-- `empty64` with a write of `"hello"` pending at `P0`. -/
def helloPending : State := withSlot empty64 (.p 0) { req := some (.write opWrite helloBytes) }

/-- W-9: `INIT 32` with 28 bytes resident and a write of 4 bytes pending at `P0`, which does not fit. -/
def fullPending : State :=
  withSlot (ready 32 0 28 0 0 []) (.p 0) { req := some (.write opWrite [0x57, 0x58, 0x59, 0x5A]) }

/-- A fact about the next state, where there is one. -/
def after {α : Type} (r : Result) (f : State → α) : Option α :=
  match r with
  | .next t => some (f t)
  | _ => none

/-- The response words the ports hold (R73). -/
def answerWord (s : State) (p : Port) : Option Nat := (waitingResponse s p).map Response.word

/-! ## One request or one step each -/

/-- L-2: `INIT 64`. -/
theorem test_init_ok : after (exec (.init 64) State.reset) (fun t =>
    (answerWord t .k, t.mode, t.cap, readableSpace t, writableSpace t)) = some (some 0x100, .ready, 64, 0, 63) := by decide

/-- L-4 to L-8 and E-9: the bounds 9 and 256 are accepted, 8 and 257 are `BADARG`; on `P0` it is `BADCMD`. -/
theorem test_init_refused : after (exec (.init 8) State.reset) (answerWord · .k) = some (some 0x105) ∧
    after (exec (.init 257) State.reset) (answerWord · .k) = some (some 0x105) ∧
    after (exec (.init 256) State.reset) (answerWord · .k) = some (some 0x100) ∧
    after (exec (.init 9) State.reset) (answerWord · .k) = some (some 0x100) ∧
    after (exec (.init 0) empty64) (answerWord · .k) = some (some 0x106) ∧
    after (runEvent (.issue (.p 0) (encode (.init 64))) State.reset) (answerWord · (.p 0)) = some (some 0x104) := by decide

/-- L-9 and L-10: `DESTROY` in `UNINIT`, and with a `READ` pending. -/
theorem test_destroy_refused : after (exec .destroy State.reset) (answerWord · .k) = some (some 0x406) ∧
    after (exec .destroy (helloRead 5)) (fun t => (answerWord t .k, t.mode)) = some (some 0x406, .ready) := by decide

/-- L-11: `DESTROY` with a frame resident; its bytes stay in `Ring`. -/
theorem test_destroy_ok : after (exec .destroy hello) (fun t =>
    (answerWord t .k, t.mode, t.cap, t.wp, ringLookup t.ring 12)) = some (some 0x400, .uninit, 0, 0, some 0x6F) := by decide

/-- L-11, L-13 and E-12 to E-14: registers by value, in both modes, and the first and last reserved index. -/
theorem test_status_values : regValue hello 2 = some 13 ∧ regValue (ready 32 18 18 0 18 []) 3 = some 31 ∧
    regValue (helloRead 5) 12 = some 1 ∧ regValue State.reset 10 = some 256 ∧ regValue State.reset 1 = some 0 ∧
    regValue hello 15 = none := by decide

theorem test_status_answers : after (exec (.status 0x0F) State.reset) (answerWord · .k) = some (some 0x605) ∧
    after (exec (.status 0xFF) State.reset) (answerWord · .k) = some (some 0x605) ∧
    after (runEvent (.issue (.p 0) (encode (.status 0))) State.reset) (answerWord · (.p 0)) = some (some 0x600) := by decide

/-- W-8, E-8 and an accepted `WRITE`. -/
theorem test_write_issue :
    after (runEvent (.issue (.p 0) (encode (.write helloBytes))) State.reset) (answerWord · (.p 0)) = some (some 0x206) ∧
    after (runEvent (.issue (.q 0) (encode (.write [0x61]))) State.reset) (answerWord · (.q 0)) = some (some 0x204) ∧
    after (runEvent (.issue (.p 0) (encode (.write helloBytes))) empty64) (fun t => (answerWord t (.p 0), pendingWrite t 0)) =
      some (none, some (opWrite, helloBytes)) := by decide

/-- P1 step 6: the header at 18 to 25, the payload at 26 to 31 and 0 to 3. -/
theorem test_write_wraps : after (runEvent (.serveW 0) wrapPending) (fun t =>
    (answerWord t (.p 0), t.wp, [18, 25, 26, 31, 0, 3, 4].map (ringLookup t.ring))) =
    some (some 0x200, 4, [some 10, some 0, some 0x41, some 0x46, some 0x47, some 0x4A, none]) := by decide

/-- W-8 and W-3: the assembled payload of a `WRITE_PKT`. -/
theorem test_writePkt_issue :
    after (runEvent (.issue (.p 0) (encode (.writePkt 1 2 3 []))) State.reset) (answerWord · (.p 0)) = some (some 0x506) ∧
    after (runEvent (.issue (.p 1) (encode (.writePkt 1 7 0 [0x41, 0x42]))) empty64) (fun t => pendingWrite t 1) =
      some (some (opWritePkt, [1, 0, 0, 0, 0, 0, 0, 0, 7, 0, 0, 0, 0, 0, 0, 0, 0, 0, 0, 0, 0, 0, 0, 0, 0x41, 0x42])) := by
  decide

/-- W-9: a write that does not fit is not served and times out `FULL`. -/
theorem test_write_full : after (runEvent (.serveW 0) fullPending) id = some fullPending ∧
    after (runEvent (.timeoutW 0) fullPending) (fun t => (answerWord t (.p 0), t.wp)) = some (some 0x201, 28) := by decide

/-- R-17, E-7, and an accepted `READ`. -/
theorem test_read_issue :
    after (runEvent (.issue (.q 0) (encode (.read 64))) State.reset) (answerWord · (.q 0)) = some (some 0x306) ∧
    after (runEvent (.issue .k (encode (.read 64))) State.reset) (answerWord · .k) = some (some 0x304) ∧
    after (runEvent (.issue (.q 1) (encode (.read 64))) empty64) (fun t => pendingRead t 1) = some (some 64) := by decide

/-- R-1 and R-2, with the response unit of E-30, and E-31. -/
theorem test_read_served :
    after (runEvent (.serveR 0) (helloRead 5)) (fun t => (t.rp, (waitingResponse t (.q 0)).map Response.unit)) =
      some (13, some ([0x00, 0x13, 0, 0] ++ [5, 0, 0, 0, 0, 0, 0, 0] ++ List.replicate 32 0 ++ helloBytes)) ∧
    after (runEvent (.serveR 0) (helloRead 4)) (fun t => (t.rp, (waitingResponse t (.q 0)).map Response.unit)) =
      some (0, some ([0x03, 0x03, 0, 0] ++ [5, 0, 0, 0, 0, 0, 0, 0])) := by decide

/-- R-5: a packet's fields. -/
theorem test_read_packet :
    after (runEvent (.serveR 0) (withSlot packetSeen (.q 0) { req := some (.read 64) })) (fun t =>
      (t.rp, (waitingResponse t (.q 0)).map fun r => (r.word, [r.len, r.src, r.dst, r.seq, r.mlen], r.data.drop 24))) =
    some (34, some (0x300, [26, 1, 7, 0, 2], [0x41, 0x42])) := by decide

/-- R-4: a committed frame not yet in sight; the read times out `EMPTY`. -/
theorem test_read_empty :
    after (runEvent (.serveR 0) unseenRead) id = some unseenRead ∧
    after (runEvent (.timeoutR 0) unseenRead) (fun t => (answerWord t (.q 0), t.rp)) = some (some 0x302, 0) := by decide

/-- R-6 to R-10: the flags at and beyond the bounds of the port range. -/
theorem test_parser_flags :
    parseFlags Config.build (packetPayload 5 200 3 [0x78]) = { dstOor := true } ∧
    parseFlags Config.build (packetPayload 200 5 3 [0x78]) = { srcOor := true } ∧
    parseFlags Config.build (packetPayload 101 101 0 []) = { srcOor := true, dstOor := true } ∧
    parseFlags Config.build (packetPayload 100 0 0 []) = {} ∧
    parseFlags { Config.build with portMin := 10 } (packetPayload 9 10 0 []) = { srcOor := true } ∧
    parseFlags Config.build (List.replicate 23 0) = { short := true } := by decide

/-- Placed by the host's word, the very next step runs the request: its answer from reset, by R128. -/
theorem test_withFetchWord : [1, 2, 3, 4, 5, 0x206].map (fun w =>
    after (step (State.reset.withFetchWord 32 w)) fun t => [answerWord t .k, answerWord t (.p 0), answerWord t (.q 0)]) =
    [some [some 0x105, none, none], some [none, some 0x206, none], some [none, none, some 0x306],
     some [some 0x406, none, none], some [none, some 0x506, none], some [some 0x600, none, none]] := by decide

/-! ## The invariant holds of the small states -/

theorem idle_ok (p : Port) : SlotOk p {} := ⟨requestOk_of_idle rfl, .inl rfl, nofun⟩

theorem slots_ready (cap rp wp rpVis wpVis : Nat) (ring : Memory) : SlotsInv (ready cap rp wp rpVis wpVis ring) := by
  refine SlotsInv.of_slots rfl rfl (idle_ok _) (fun sl h => ?_) fun sl h => ?_
  · cases List.eq_of_mem_replicate h
    exact idle_ok _
  · cases List.eq_of_mem_replicate h
    exact idle_ok _

/-- An empty ring whose cursors and views stand at 0. -/
theorem inv_empty64 : BlockInv empty64 where
  params := by decide
  memory := by decide
  slots := slots_ready ..
  ready _ :=
    { capLow := by decide, capHigh := by decide, capWord := by decide, rpRange := by decide, wpRange := by decide
      rpVisRange := by decide, wpVisRange := by decide, writeView := by decide, readView := by decide
      frames := ⟨[], [], by constructor <;> exact framesAt_nil _ _⟩, written := by decide }
  uninit := nofun

theorem queue_hello : holdsQueue hello [helloBytes] [] :=
  ⟨⟨by decide, by decide⟩, framesAt_nil _ _⟩

theorem queue_helloUnseen : holdsQueue helloUnseen [] [helloBytes] :=
  ⟨framesAt_nil _ _, ⟨by decide, by decide⟩⟩

theorem inv_hello : BlockInv hello where
  params := by decide
  memory := by decide
  slots := slots_ready 64 0 13 0 13 _
  ready _ :=
    { capLow := by decide, capHigh := by decide, capWord := by decide, rpRange := by decide, wpRange := by decide
      rpVisRange := by decide, wpVisRange := by decide, writeView := by decide, readView := by decide
      frames := ⟨_, _, queue_hello⟩, written := by decide }
  uninit := nofun

theorem inv_helloUnseen : BlockInv helloUnseen where
  params := by decide
  memory := by decide
  slots := slots_ready ..
  ready _ :=
    { capLow := by decide, capHigh := by decide, capWord := by decide, rpRange := by decide, wpRange := by decide
      rpVisRange := by decide, wpVisRange := by decide, writeView := by decide, readView := by decide
      frames := ⟨_, _, queue_helloUnseen⟩, written := by decide }
  uninit := nofun

theorem inv_helloPending : BlockInv helloPending :=
  inv_empty64.withSlot ⟨fun _ h => by cases h; exact ⟨_, _, rfl, .inl rfl, by decide⟩, .inr rfl, nofun⟩ nofun

theorem inv_helloRead (cap : Word) : BlockInv (helloRead cap) :=
  inv_hello.withSlot ⟨fun _ h => by cases h; exact ⟨_, rfl⟩, .inr rfl, nofun⟩ nofun

theorem inv_unseenRead : BlockInv unseenRead :=
  inv_helloUnseen.withSlot ⟨fun _ h => by cases h; exact ⟨_, rfl⟩, .inr rfl, nofun⟩ nofun

/-- `hello` served to `Q0`: the response waits to be taken. -/
def helloAnswered : State := withSlot hello (.q 0) { rsp := some (readResponse Config.build helloBytes) }

theorem inv_helloAnswered : BlockInv helloAnswered :=
  inv_hello.withSlot (slotOk_of_answer (responseOk_read _ (by decide))) nofun

/-! ## Witnesses: for every obligation with hypotheses, a state and operands that meet them all -/

/-- The greatest value two bytes hold, and their least significant byte first. -/
theorem witness_LittleEndianCodingOfR14 : 65534 < 2 ^ (8 * 2) ∧ leEncode 2 65534 = [0xFE, 0xFF] := by decide

theorem witness_DecodeOfEncodedRequest :
    ∀ i ∈ [Instr.init (-1), .write [], .read 0, .destroy, .writePkt (-1) 0 (-1) [0x41], .status 0xFF],
      i.wellFormed = true := by decide

theorem witness_DecodedUnitIsTheRequestsOwn :
    decode [0x06, 0xFF, 0, 0] = .ok (.status 0xFF) ∧
    decode [0x02, 0, 0, 0, 0, 0, 0, 0, 0, 0, 0, 0] = .ok (.write []) := by decide

/-- One unit for each condition of R76, each meeting that condition alone, all on a free port `K` of the reset state. -/
theorem witness_DecoderIsTotalOnCommandWords_bad :
    portFree State.reset .k = true ∧ badCommand [0x07, 0, 0, 0] .k ∧ badCommand [0x14, 0, 0, 0] .k ∧
    badCommand [0x04, 0, 0, 0x80] .k ∧ badCommand [0x04, 0x01, 0, 0] .k ∧
    badCommand [0x03, 0, 0, 0, 0, 0, 0, 0, 0, 0, 0, 0] .k ∧ badCommand [0x04, 0, 0, 0, 0] .k := by
  simp [badCommand, leDecode, legalPort, rightLength]
  decide

theorem witness_DecoderIsTotalOnCommandWords_good :
    portFree State.reset .k = true ∧ ¬ badCommand [0x04, 0, 0, 0] .k ∧ ¬ badCommand [0x06, 0xFF, 0, 0] .k := by
  simp [badCommand, leDecode, legalPort, rightLength]
  decide

theorem witness_ShortUnitsAreBadCommands : portFree State.reset .k = true ∧ ([] : List Byte).length < 4 ∧
    ([0x04, 0, 0] : List Byte).length < 4 := by decide

/-- A response with a flag set: `"hello"` is too short for a packet. -/
theorem witness_ResponseUnitLayoutOfR73 : BlockInv helloAnswered ∧
    slotOf helloAnswered (.q 0) = some { rsp := some (readResponse Config.build helloBytes) } ∧
    leDecode ((readResponse Config.build helloBytes).unit.take 4) / 2 ^ 12 % 2 ^ 3 ≠ 0 :=
  ⟨inv_helloAnswered, by decide, by decide⟩

/-- One response for each row of R73's table of result words. -/
theorem witness_ResponseUnitLayoutOfR73_rows :
    (readResponse Config.build helloBytes).ope = opRead ∧ (readResponse Config.build helloBytes).status = .ok ∧
    (bare .undersized opRead).status = .undersized ∧ (bare .ok opStatus).ope = opStatus ∧
    ¬ ((bare .full opWrite).ope = opRead ∨ (bare .full opWrite).ope = opStatus) := by decide

/-- `empty64` with the `ISSUE` of `K: DESTROY` scheduled. -/
def scheduled : State := { empty64 with sched := [.issue .k [0x04, 0, 0, 0]] }

theorem witness_StepRunsTheDecodedRequest : scheduled.sched = .issue .k [0x04, 0, 0, 0] :: [] ∧
    portFree scheduled .k = true ∧ decode [0x04, 0, 0, 0] = .ok .destroy := by decide

/-- A scheduled step that is enabled, one that is not, and no scheduled step. -/
theorem witness_StepTakesTheScheduledStep :
    enabled (.issue .k [0x04, 0, 0, 0]) { scheduled with sched := [] } = true ∧
    enabled .syncR { empty64 with sched := [] } = false ∧ empty64.sched = [] := by decide

/-- A port held by its request, one held by its response, and a free one. -/
theorem witness_HeldPortDoesNotIssue :
    slotOf helloPending (.p 0) = some { req := some (.write opWrite helloBytes) } ∧
    slotOf helloAnswered (.q 0) = some { rsp := some (readResponse Config.build helloBytes) } ∧
    slotOf helloAnswered (.q 1) = some {} := by decide

theorem witness_TakeHandsOverTheResponse :
    slotOf helloAnswered (.q 0) = some { rsp := some (readResponse Config.build helloBytes) } := by decide

theorem witness_SynchronisersCopyTheCursors : enabled .syncR helloUnseen = true ∧ enabled .syncR hello = false ∧
    enabled .syncW (ready 32 18 18 0 18 []) = true ∧ enabled .syncW empty64 = false := by decide

/-- The issuing port on which the clauses below run. -/
def at_ (p : Port) (s : State) : State := { s with port := p }

/-- `INIT`: off `K`; in `READY`; a capacity just below and just above the range; the least and the greatest in it. -/
theorem witness_InitEstablishesAnEmptyRing :
    (portFree (at_ (.p 0) State.reset) (.p 0) = true ∧ (at_ (.p 0) State.reset).port ≠ .k) ∧
    (portFree empty64 empty64.port = true ∧ empty64.port = .k ∧ empty64.mode = .ready) ∧
    (portFree State.reset State.reset.port = true ∧ State.reset.port = .k ∧ State.reset.mode = .uninit) ∧
    (8 : Word).toNat < 9 ∧ (257 : Word).toNat > State.reset.params.cMax ∧ 9 ≤ (9 : Word).toNat ∧
    (9 : Word).toNat ≤ State.reset.params.cMax ∧ 9 ≤ (256 : Word).toNat ∧
    (256 : Word).toNat ≤ State.reset.params.cMax := by decide

theorem witness_LifecycleKeepsRingBytes : ∃ cap, Instr.init cap = .init 64 := ⟨64, rfl⟩

theorem witness_DestroyEndsTheBuffer :
    (portFree (at_ (.q 0) hello) (.q 0) = true ∧ (at_ (.q 0) hello).port ≠ .k) ∧
    (portFree State.reset .k = true ∧ State.reset.port = .k ∧ State.reset.mode = .uninit) ∧
    (portFree hello hello.port = true ∧ hello.port = .k ∧ hello.mode = .ready ∧ anyPending hello = false) := by decide

theorem witness_DestroyEndsTheBuffer_pending : portFree (helloRead 5) (helloRead 5).port = true ∧
    (helloRead 5).port = .k ∧ (helloRead 5).mode = .ready ∧ somePending (helloRead 5) :=
  ⟨by decide, by decide, by decide, (anyPending_iff _).1 (by decide)⟩

theorem witness_DestroyEndsTheBuffer_idle : ¬ somePending hello := fun h => by
  have := (anyPending_iff _).2 h
  revert this
  decide

/-- `STATUS`: the last defined index and the first reserved one, and a table entry for each defined index. -/
theorem witness_StatusAnswersTheRegister : portFree hello hello.port = true ∧ (0x0F : Byte).toNat > 0x0E ∧
    (0x0E : Byte).toNat ≤ 0x0E ∧ (registerTable hello)[14]? = some 2 ∧ (registerTable State.reset)[14]? = some 2 ∧
    2 < 2 ^ 64 := by decide

/-- The states in which the data requests are refused or accepted. -/
theorem witness_WriteBecomesPending :
    (portFree (at_ (.q 0) empty64) (.q 0) = true ∧ ∀ n, (at_ (.q 0) empty64).port ≠ .p n) ∧
    (portFree (at_ (.p 0) State.reset) (.p 0) = true ∧ (at_ (.p 0) State.reset).mode = .uninit) ∧
    (portFree (at_ (.p 1) empty64) (.p 1) = true ∧ (at_ (.p 1) empty64).port = .p 1 ∧ (at_ (.p 1) empty64).mode = .ready) ∧
    tooLong.length > 2 ^ 64 - 1 ∧ ([] : List Byte).length ≤ 2 ^ 64 - 1 := by
  refine ⟨⟨by decide, fun n => nofun⟩, by decide, by decide, ?_, by decide⟩
  rw [tooLong_length]
  decide

/-- A message one too long, and the longest that fits. -/
theorem witness_WritePktBecomesPending :
    (List.replicate (2 ^ 64 - 24) (0 : Byte)).length > 2 ^ 64 - 25 ∧
    (List.replicate (2 ^ 64 - 25) (0 : Byte)).length ≤ 2 ^ 64 - 25 ∧
    portFree (at_ (.p 0) empty64) (at_ (.p 0) empty64).port = true ∧ (at_ (.p 0) empty64).mode = .ready ∧
    portFree (at_ (.p 0) State.reset) (at_ (.p 0) State.reset).port = true ∧ (at_ (.p 0) State.reset).mode = .uninit := by
  rw [List.length_replicate, List.length_replicate]
  decide

theorem witness_WritePktBecomesPending_off : portFree (at_ .k empty64) .k = true ∧ ∀ n, (at_ .k empty64).port ≠ .p n :=
  ⟨by decide, fun n => nofun⟩

theorem witness_ReadBecomesPending :
    (portFree (at_ (.p 0) empty64) (.p 0) = true ∧ ∀ n, (at_ (.p 0) empty64).port ≠ .q n) ∧
    (portFree (at_ (.q 1) empty64) (.q 1) = true ∧ (at_ (.q 1) empty64).mode = .ready) ∧
    portFree (at_ (.q 0) State.reset) (.q 0) = true ∧ (at_ (.q 0) State.reset).mode = .uninit :=
  ⟨⟨by decide, fun n => nofun⟩, by decide, by decide⟩

/-- A state with a request pending, on which `DESTROY` is refused. -/
def busy : State := helloRead 5

/-- Each check of R114 as the first that holds. -/
theorem witness_FirstFailingCheckAnswers :
    firstFailing (checks (.init 64) (at_ (.p 0) State.reset)) .badCmd ∧
    firstFailing (checks (.status 0x0F) State.reset) .badArg ∧
    firstFailing (checks (.init 0) empty64) .badState ∧
    firstFailing (checks (.init 8) State.reset) .badArg ∧
    firstFailing (checks .destroy busy) .badState := by
  have pending : somePending busy := (anyPending_iff _).1 (by decide)
  have m1 : empty64.mode = .ready := rfl
  have m2 : busy.mode = .ready := rfl
  have p0 : (at_ (.p 0) State.reset).port = .p 0 := rfl
  have p1 : State.reset.port = .k := rfl
  have p2 : empty64.port = .k := rfl
  have p3 : busy.port = .k := rfl
  have m3 : State.reset.mode = .uninit := rfl
  refine ⟨?_, ?_, ?_, ?_, ?_⟩ <;>
    simp [firstFailing, checks, legalPort, Instr.opcode, opInit, opStatus, opDestroy, wrongMode, badOperand, pending,
      m1, m2, m3, p0, p1, p2, p3]

theorem witness_FirstFailingCheckAnswers_pass : portFree State.reset State.reset.port = true ∧
    allPass (checks (.init 9) State.reset) := by
  refine ⟨by decide, ?_⟩
  have p1 : State.reset.port = .k := rfl
  have m1 : State.reset.mode = .uninit := rfl
  have c1 : State.reset.params.cMax = 256 := rfl
  simp [allPass, checks, legalPort, Instr.opcode, opInit, wrongMode, badOperand, p1, m1, c1]

theorem witness_DataRequestsChangeOnlyTheirPort : (∀ cap, Instr.write [] ≠ .init cap) ∧ Instr.write [] ≠ .destroy :=
  ⟨fun _ => nofun, nofun⟩

/-- A pending write that fits, one that does not. -/
theorem witness_WriteIsEligibleExactlyWhenItFits :
    slotOf helloPending (.p 0) = some { req := some (.write opWrite helloBytes) } ∧
    enabled (.serveW 0) helloPending = true ∧ enabled (.timeoutW 0) fullPending = true := by decide

/-- The frame of the write to be served wraps, and W-5's frame fills the ring. -/
theorem witness_ServeWriteCommitsTheFrame :
    enabled (.serveW 0) wrapPending = true ∧ wrapPending.cap ≤ wrapPending.params.cMax ∧
    enabled (.serveW 0) (withSlot (ready 32 0 0 0 0 []) (.p 0) { req := some (.write opWrite (List.replicate 23 0)) }) =
      true := by decide

theorem witness_TimeoutWriteAnswersFull :
    slotOf fullPending (.p 0) = some { req := some (.write opWrite [0x57, 0x58, 0x59, 0x5A]) } ∧
    enabled (.timeoutW 0) fullPending = true ∧ enabled (.timeoutW 0) helloPending = false := by decide

/-- W-7: 24 bytes in a ring of 32. -/
theorem witness_OversizedWriteIsOnlyAnsweredFull :
    slotOf (withSlot (ready 32 0 0 0 0 []) (.p 0) { req := some (.write opWrite (List.replicate 24 0)) }) (.p 0) =
      some { req := some (.write opWrite (List.replicate 24 0)) } ∧
    8 + (List.replicate 24 (0 : Byte)).length > 32 - 1 := by decide

/-- A capacity equal to the head frame's length is eligible, one less is undersized, a frame not in sight is blocked. -/
theorem witness_ReadCasesAreExclusiveAndComplete :
    (slotOf (helloRead 5) (.q 0) = some { req := some (.read 5) } ∧ capInStorage (helloRead 5)) ∧
    readEligible (helloRead 5) 5 ∧ readUndersized (helloRead 4) 4 ∧ capInStorage unseenRead ∧
    readBlocked unseenRead 64 :=
  ⟨⟨by decide, (inv_helloRead 5).capInStorage⟩, ⟨⟨rfl, by decide⟩, by decide, by decide⟩, ⟨⟨rfl, by decide⟩, by decide⟩,
    inv_unseenRead.capInStorage, .inl fun h => absurd h.2 (by decide)⟩

theorem witness_ServeReadTakesTheHeadFrame : slotOf (helloRead 5) (.q 0) = some { req := some (.read 5) } ∧
    capInStorage (helloRead 5) ∧ readEligible (helloRead 5) (5 : Word).toNat :=
  ⟨by decide, (inv_helloRead 5).capInStorage, ⟨rfl, by decide⟩, by decide, by decide⟩

theorem witness_UndersizedReadConsumesNothing : slotOf (helloRead 4) (.q 0) = some { req := some (.read 4) } ∧
    capInStorage (helloRead 4) ∧ readUndersized (helloRead 4) (4 : Word).toNat :=
  ⟨by decide, (inv_helloRead 4).capInStorage, ⟨rfl, by decide⟩, by decide⟩

theorem witness_TimeoutReadAnswersEmpty : slotOf unseenRead (.q 0) = some { req := some (.read 64) } ∧
    capInStorage unseenRead ∧ readBlocked unseenRead (64 : Word).toNat :=
  ⟨by decide, inv_unseenRead.capInStorage, .inl fun h => absurd h.2 (by decide)⟩

/-- Two undersized reads pending at once (R-16). -/
def twoReads : State := withSlot (helloRead 4) (.q 1) { req := some (.read 3) }

theorem witness_UndersizedAnswerLeavesTheHead : slotOf twoReads (.q 0) = some { req := some (.read 4) } ∧
    slotOf twoReads (.q 1) = some { req := some (.read 3) } ∧ capInStorage twoReads ∧
    readUndersized twoReads (4 : Word).toNat ∧ (3 : Word).toNat < lHead twoReads ∧
    (after (runEvent (.serveR 0) twoReads) id).isSome = true :=
  ⟨by decide, by decide, fun _ => by decide, ⟨⟨rfl, by decide⟩, by decide⟩, by decide, by decide⟩

theorem witness_ShortPayloadParsesToZeroFields : (List.replicate 23 (0 : Byte)).length < 24 := by decide

theorem witness_PacketFieldsAndPortFlags : 24 ≤ (List.replicate 24 (0 : Byte)).length ∧
    (List.replicate 24 (0 : Byte)).length < 2 ^ 64 := by decide

/-- Each clause's step happens, and shows what it is about: the space on one side before and after. -/
theorem witness_CommitsBecomeVisibleOnlyBySync :
    after (runEvent (.serveW 0) helloPending) (fun t => (readableSpace t, rdAvail t)) = some (13, 0) ∧
    after (runEvent (.serveR 0) (helloRead 5)) (fun t => (writableSpace t, wrAvail t)) = some (63, 50) ∧
    after (runEvent .syncR helloUnseen) rdAvail = some 13 ∧ helloUnseen.mode = .ready ∧
    after (runEvent .syncW (ready 32 18 18 0 18 [])) wrAvail = some 31 ∧ (ready 32 18 18 0 18 []).mode = .ready := by
  decide

theorem witness_SpaceAddsUpToCapacityLessOne : BlockInv hello ∧ hello.mode = .ready ∧ hello.rp ≠ hello.wp ∧
    BlockInv empty64 ∧ empty64.mode = .ready ∧ empty64.rp = empty64.wp :=
  ⟨inv_hello, by decide, by decide, inv_empty64, by decide, by decide⟩

theorem witness_ViewsOnlyUnderReport : BlockInv helloUnseen ∧ helloUnseen.mode = .ready :=
  ⟨inv_helloUnseen, by decide⟩

theorem witness_CommitsMoveTheFramedSize :
    (BlockInv helloPending ∧ pendingWrite helloPending 0 = some (opWrite, helloBytes) ∧
      enabled (.serveW 0) helloPending = true ∧ (after (runEvent (.serveW 0) helloPending) id).isSome = true) ∧
    (BlockInv (helloRead 5) ∧ pendingRead (helloRead 5) 0 = some 5 ∧ readEligible (helloRead 5) (5 : Word).toNat ∧
      (after (runEvent (.serveR 0) (helloRead 5)) id).isSome = true) :=
  ⟨⟨inv_helloPending, by decide, by decide, by decide⟩, inv_helloRead 5, by decide,
    ⟨⟨rfl, by decide⟩, by decide, by decide⟩, by decide⟩

/-- `hello` with another write pending, so that both sides have bytes. -/
def helloAgain : State := withSlot hello (.p 0) { req := some (.write opWrite helloBytes) }

theorem inv_helloAgain : BlockInv helloAgain :=
  inv_hello.withSlot ⟨fun _ h => by cases h; exact ⟨_, _, rfl, .inl rfl, by decide⟩, .inr rfl, nofun⟩ nofun

theorem witness_WritesNeverTouchReadableBytes : BlockInv helloAgain ∧
    pendingWrite helloAgain 0 = some (opWrite, helloBytes) ∧ enabled (.serveW 0) helloAgain = true ∧
    12 < 8 + helloBytes.length ∧ 12 < ringDist helloAgain.cap helloAgain.rp helloAgain.wpVis :=
  ⟨inv_helloAgain, by decide, by decide, by decide, by decide⟩

/-- A state with readable bytes, and a run from an empty ring that ends with some. -/
theorem witness_ReadableBytesHaveBeenWritten :
    (BlockInv hello ∧ hello.mode = .ready ∧ 12 < ringDist hello.cap hello.rp hello.wpVis) ∧
    (BlockInv helloPending ∧ helloPending.mode = .ready ∧ helloPending.rp = helloPending.wp ∧
      (∀ e ∈ [Event.serveW 0, .syncR], keepsBuffer e) ∧
      after (runEvents [.serveW 0, .syncR] helloPending) rdAvail = some 13) := by
  refine ⟨⟨inv_hello, by decide, by decide⟩, inv_helloPending, by decide, by decide, fun e he => ?_, by decide⟩
  simp only [List.mem_cons, List.not_mem_nil, or_false] at he
  rcases he with rfl | rfl <;> exact ⟨nofun, fun _ _ h => nomatch h⟩

theorem witness_NoStepReadsMessageSize : (after (runEvent (.serveW 0) helloPending) id).isSome = true ∧
    withMessageSize 5 helloPending ≠ helloPending := by decide

theorem witness_VisibleHeaderMeansVisibleFrame : BlockInv hello ∧ headVis hello :=
  ⟨inv_hello, rfl, by decide⟩

theorem witness_EachSideDecidesFromItsView :
    (after (runEvent (.serveR 0) (helloRead 5)) id).isSome = true ∧ enabled (.serveR 0) (helloRead 5) = true ∧
    (after (runEvent (.serveW 0) helloPending) id).isSome = true ∧ enabled (.serveW 0) helloPending = true := by decide

theorem witness_EachElementHasItsWriters : (after (runEvent (.serveW 0) helloPending) id).isSome = true ∧
    Event.serveW 0 ≠ .reset ∧ ∀ unit cap, Event.serveW 0 = .issue .k unit →
      decode unit ≠ .ok (.init cap) ∧ decode unit ≠ .ok .destroy :=
  ⟨by decide, nofun, nofun⟩

theorem witness_StepsLeaveOtherPortsAlone : (after (runEvent (.serveW 0) helloPending) id).isSome = true ∧
    Event.serveW 0 ∈ answers (.p 0) ∧ (after (runEvent (.take (.q 0)) helloAnswered) id).isSome = true := by decide

/-- The steps the invariant's statements run over: one the schedule names. -/
theorem witness_EveryStepKeepsTheInvariant :
    BlockInv { hello with sched := [.syncW] } ∧ (after (step { hello with sched := [.syncW] }) id).isSome = true :=
  ⟨inv_hello.congr rfl rfl rfl rfl rfl rfl rfl rfl rfl rfl rfl fun _ => rfl, by decide⟩

theorem witness_PortsAreFixed :
    BlockInv { hello with sched := [.reset] } ∧ (after (step { hello with sched := [.reset] }) id).isSome = true :=
  ⟨inv_hello.congr rfl rfl rfl rfl rfl rfl rfl rfl rfl rfl rfl fun _ => rfl, by decide⟩

theorem witness_NoFaultAndNoRefusal : BlockInv helloPending := inv_helloPending

theorem witness_ResetMeetsTheInvariant : Config.build.valid = true ∧
    { Config.build with cMax := 9, nW := 1, nR := 1 }.valid = true := by decide

/-- A write commit, a synchronisation, a read commit, an undersized answer, and a step that leaves the queue alone. -/
theorem witness_RingIsAQueueOfFrames :
    (BlockInv helloPending ∧ helloPending.mode = .ready ∧ holdsQueue helloPending [] [] ∧
      enabled (.serveW 0) helloPending = true) ∧
    (holdsQueue helloUnseen [] [helloBytes] ∧ enabled .syncR helloUnseen = true) ∧
    (BlockInv (helloRead 5) ∧ holdsQueue (helloRead 5) [helloBytes] [] ∧ enabled (.serveR 0) (helloRead 5) = true) ∧
    (BlockInv (helloRead 4) ∧ enabled (.serveR 0) (helloRead 4) = true) ∧
    enabled (.timeoutR 0) unseenRead = true :=
  ⟨⟨inv_helloPending, by decide, ⟨framesAt_nil _ _, framesAt_nil _ _⟩, by decide⟩, ⟨queue_helloUnseen, by decide⟩,
    ⟨inv_helloRead 5, holdsQueue_congr rfl rfl rfl rfl (ringByte_withSlot _ _ _) queue_hello, by decide⟩,
    ⟨inv_helloRead 4, by decide⟩, by decide⟩

/-- A run that writes, synchronises and reads: none of its steps can end the buffer's life, and it returns a payload. -/
theorem witness_ReadCommitsReturnTheWriteCommits :
    BlockInv helloPending ∧ helloPending.mode = .ready ∧ helloPending.rp = helloPending.wp ∧
    (∀ e ∈ [Event.serveW 0, .syncR, .issue (.q 0) (encode (.read 5)), .serveR 0], keepsBuffer e) ∧
    returnedBy [Event.serveW 0, .syncR, .issue (.q 0) (encode (.read 5)), .serveR 0] helloPending = [helloBytes] := by
  refine ⟨inv_helloPending, by decide, by decide, fun e he => ?_, by decide⟩
  simp only [List.mem_cons, List.not_mem_nil, or_false] at he
  rcases he with rfl | rfl | rfl | rfl
  · exact ⟨nofun, fun _ _ h => nomatch h⟩
  · exact ⟨nofun, fun _ _ h => nomatch h⟩
  · refine ⟨nofun, fun p unit h => ?_⟩
    cases h
    decide
  · exact ⟨nofun, fun _ _ h => nomatch h⟩

/-- The largest message that fits a ring of 64 bytes, and the least capacity that takes it. -/
theorem witness_PacketRoundTrip : BlockInv empty64 ∧ empty64.mode = .ready ∧ portFree empty64 (.p 1) = true ∧
    portFree empty64 (.q 0) = true ∧ empty64.rp = empty64.wp ∧ empty64.rpVis = empty64.rp ∧
    8 + (24 + (List.replicate 31 (0x41 : Byte)).length) ≤ empty64.cap - 1 ∧
    24 + (List.replicate 31 (0x41 : Byte)).length ≤ (55 : Word).toNat :=
  ⟨inv_empty64, by decide, by decide, by decide, by decide, by decide, by decide, by decide⟩

theorem inv_at {s : State} (p : Port) (h : BlockInv s) : BlockInv (at_ p s) :=
  h.congr rfl rfl rfl rfl rfl rfl rfl rfl rfl rfl rfl fun _ => rfl

/-- A `WRITE` that fills the ring, a `WRITE_PKT` that does, and a `READ` with just enough capacity. -/
theorem witness_DataRequestsComplete :
    (BlockInv (at_ (.p 0) empty64) ∧ (at_ (.p 0) empty64).mode = .ready ∧ portFree (at_ (.p 0) empty64) (.p 0) = true ∧
      8 + (List.replicate 55 (0 : Byte)).length ≤ 64 - 1 - ringDist 64 0 0 ∧
      8 + (24 + (List.replicate 31 (0 : Byte)).length) ≤ 64 - 1 - ringDist 64 0 0) ∧
    (BlockInv (at_ (.q 0) hello) ∧ portFree (at_ (.q 0) hello) (.q 0) = true ∧ headVis (at_ (.q 0) hello) ∧
      lHead (at_ (.q 0) hello) ≤ (5 : Word).toNat) :=
  ⟨⟨inv_at _ inv_empty64, by decide, by decide, by decide, by decide⟩, inv_at _ inv_hello, by decide, ⟨rfl, by decide⟩,
    by decide⟩

theorem witness_PendingRequestsAlwaysHaveAnAnswer :
    (BlockInv helloPending ∧ slotOf helloPending (.p 0) = some { req := some (.write opWrite helloBytes) }) ∧
    (BlockInv unseenRead ∧ slotOf unseenRead (.q 0) = some { req := some (.read 64) }) :=
  ⟨⟨inv_helloPending, by decide⟩, inv_unseenRead, by decide⟩

/-- After the first step of the run that serves `P0` for ever, nothing changes any more. -/
theorem served_stays (m : Nat) : stateAt (fun _ => .serveW 0) helloPending (m + 1) =
    stateAt (fun _ => .serveW 0) helloPending 1 := by
  induction m with
  | zero => rfl
  | succ m ih =>
    rw [stateAt, ih]
    decide

/-- A fair run: `P0`'s write is served, and from then on nothing waits there. -/
theorem witness_FairRunsAnswerEveryRequest : BlockInv helloPending ∧
    slotOf helloPending (.p 0) = some { req := some (.write opWrite helloBytes) } ∧
    weaklyFair (answers (.p 0)) (fun _ => .serveW 0) helloPending := by
  refine ⟨inv_helloPending, by decide, fun n h => ?_⟩
  obtain ⟨e, he, hen⟩ := h (n + 1) (Nat.le_succ n)
  rw [served_stays] at hen
  simp only [answers, List.mem_cons, List.not_mem_nil, or_false] at he
  rcases he with rfl | rfl <;> exact absurd hen (by decide)

/-- `P0`'s write is served, then the read side synchronises. -/
def serveThenSync (n : Nat) : Event := if n = 0 then .serveW 0 else .syncR

/-- After two steps of that run nothing changes any more. -/
theorem synced_stays (m : Nat) : stateAt serveThenSync helloPending (m + 2) = stateAt serveThenSync helloPending 2 := by
  induction m with
  | zero => rfl
  | succ m ih =>
    rw [stateAt, ih, show serveThenSync (m + 2) = .syncR from rfl]
    decide

/-- Steps that the run's last state does not enable are weakly fair in it. -/
theorem synced_fair {acts : List Event}
    (h : ∀ e ∈ acts, enabled e (stateAt serveThenSync helloPending 2) = false) :
    weaklyFair acts serveThenSync helloPending := by
  intro n hen
  obtain ⟨e, he, hx⟩ := hen (n + 2) (by omega)
  rw [synced_stays, h e he] at hx
  cases hx

/-- A fair run: in the end no request is pending and both views are their cursors. -/
theorem witness_FairRunsBringEveryCommitInSight :
    BlockInv helloPending ∧ fairRun serveThenSync helloPending ∧ helloPending.wp ≠ (stateAt serveThenSync helloPending 2).wp := by
  refine ⟨inv_helloPending, ⟨synced_fair (by decide), synced_fair (by decide), fun p => synced_fair fun e he => ?_⟩,
    by decide⟩
  cases p with
  | k => cases he
  | p n => rcases n with _ | _ | n <;> simp only [answers, List.mem_cons, List.not_mem_nil, or_false] at he <;>
      rcases he with rfl | rfl <;> rfl
  | q n => rcases n with _ | _ | n <;> simp only [answers, List.mem_cons, List.not_mem_nil, or_false] at he <;>
      rcases he with rfl | rfl <;> rfl

/-- That run's first two steps, taken by `step`: the write is stored and in sight. -/
theorem witness_RunsAreRunsOfStep : BlockInv helloPending ∧
    after (steps 2 (scheduleFirst serveThenSync 2 helloPending)) (fun t => (t.wp, t.wpVis, t.sched)) =
      some (13, 13, []) := ⟨inv_helloPending, by decide⟩

theorem witness_PendingWritesDifferOnlyInTheEcho : 0 < empty64.portsP.length ∧ Event.serveW 0 ∈ answers (.p 0) ∧
    enabled (.serveW 0) (withSlot empty64 (.p 0) { req := some (.write opWrite helloBytes) }) = true ∧
    (after (runEvent (.serveW 0) (withSlot empty64 (.p 0) { req := some (.write opWrite helloBytes) })) id).isSome ∧
    (after (runEvent (.serveW 0) (withSlot empty64 (.p 0) { req := some (.write opWritePkt helloBytes) })) id).isSome := by
  decide

end Tests
end Sys2Proof
end

/-! ## Scope: the byte coding of R14 and the unread `MESSAGE_SIZE` of R12 -/

namespace Sys2Proof

/-! ### The little-endian sum -/

/-- Byte `k` of the encoding as a number (R14). -/
theorem leEncode_getElem?_toNat {n v k : Nat} (h : k < n) :
    ((leEncode n v)[k]?).map BitVec.toNat = some (v / 2 ^ (8 * k) % 256) := by
  simp [leEncode_getElem? h]

/-- `leDecode` is R14's sum: the last byte of `bs ++ [b]` weighs `2 ^ (8 * |bs|)`. -/
theorem leDecode_eq_sum (bytes : List Byte) :
    leDecode bytes = (bytes.mapIdx fun k b => b.toNat * 2 ^ (8 * k)).sum := by
  induction bytes using List.reverseRecOn with
  | nil => rfl
  | append_singleton bs b ih => simp [leDecode_append, leDecode, ih, Nat.mul_comm]

/-- Settles O1: the encoder's laws, and `leDecode_eq_sum`. -/
theorem littleEndianCodingOfR14 : Obligations.LittleEndianCodingOfR14 :=
  ⟨fun n v hv => ⟨leEncode_length n v, fun _ hk => leEncode_getElem?_toNat hk, leDecode_leEncode_of_lt hv⟩,
    leDecode_eq_sum⟩

namespace Machine

/-! ### What the state reads as with another `MESSAGE_SIZE`

No accessor looks at the field, so each of them is the same function of both states. -/

section Reads

variable (x : Nat) (s : State)

@[simp] theorem withMessageSize_port : (withMessageSize x s).port = s.port := rfl

@[simp] theorem slotOf_withMessageSize (p : Port) : slotOf (withMessageSize x s) p = slotOf s p := by
  cases p <;> rfl

@[simp] theorem portFree_withMessageSize (p : Port) : portFree (withMessageSize x s) p = portFree s p := by
  simp [portFree]

@[simp] theorem regValue_withMessageSize (reg : Nat) : regValue (withMessageSize x s) reg = regValue s reg := rfl

@[simp] theorem waitingResponse_withMessageSize (p : Port) :
    waitingResponse (withMessageSize x s) p = waitingResponse s p := by
  simp [waitingResponse]

@[simp] theorem pendingWrite_withMessageSize (i : Nat) : pendingWrite (withMessageSize x s) i = pendingWrite s i := rfl

@[simp] theorem pendingRead_withMessageSize (j : Nat) : pendingRead (withMessageSize x s) j = pendingRead s j := rfl

@[simp] theorem eligibleWrite_withMessageSize (len : Nat) :
    eligibleWrite (withMessageSize x s) len = eligibleWrite s len := rfl

@[simp] theorem readVerdict_withMessageSize (cap : Nat) :
    readVerdict (withMessageSize x s) cap = readVerdict s cap := rfl

/-- Every step is enabled alike: the enabling conditions are made of the accessors above. -/
@[simp] theorem enabled_withMessageSize (e : Event) : enabled e (withMessageSize x s) = enabled e s := by
  cases e with
  | issue p _ => exact portFree_withMessageSize x s p
  | take p => simp only [enabled, waitingResponse_withMessageSize]
  | serveW i | timeoutW i => simp only [enabled, pendingWrite_withMessageSize, eligibleWrite_withMessageSize]
  | serveR j | timeoutR j => simp only [enabled, pendingRead_withMessageSize, readVerdict_withMessageSize]
  | syncR | syncW | reset => rfl

end Reads

/-! ### What a step does with another `MESSAGE_SIZE`

Every function that makes a state or an outcome commutes with `withMessageSize x`. -/

/-- The outcome with its next state, if there is one, taken through `g`. -/
def mapNext (g : State → State) : Result → Result
  | .next s => .next (g s)
  | .fault f => .fault f
  | .refused r => .refused r

@[simp] theorem mapNext_next (g : State → State) (s : State) : mapNext g (.next s) = .next (g s) := rfl

/-- A check whose condition reads alike commutes with `g` where both its branches do. -/
theorem ite_mapNext {g : State → State} {c : Prop} [Decidable c] {a b a' b' : Result} (ha : a' = mapNext g a)
    (hb : b' = mapNext g b) : (if c then a' else b') = mapNext g (if c then a else b) := by
  rw [ha, hb, apply_ite (mapNext g)]

section Steps

variable (x : Nat) (s : State)

@[simp] theorem withSlot_withMessageSize (p : Port) (sl : Slot) :
    withSlot (withMessageSize x s) p sl = withMessageSize x (withSlot s p sl) := by
  cases p <;> rfl

@[simp] theorem respond_withMessageSize (p : Port) (r : Response) :
    respond (withMessageSize x s) p r = withMessageSize x (respond s p r) :=
  withSlot_withMessageSize x s p _

@[simp] theorem raise_withMessageSize (st : Status) (ope : BitVec 4) :
    raise (withMessageSize x s) st ope = mapNext (withMessageSize x) (raise s st ope) := by
  simp [raise]

@[simp] theorem pend_withMessageSize (r : Pending) :
    pend (withMessageSize x s) r = mapNext (withMessageSize x) (pend s r) := by
  simp [pend]

/-- An answer given from an updated state, where the update commutes with `withMessageSize x`. -/
theorem next_respond_withMessageSize {x : Nat} {s u : State} (p : Port) (r : Response) (h : u = withMessageSize x s) :
    .next (respond u p r) = mapNext (withMessageSize x) (.next (respond s p r)) := by
  rw [h, respond_withMessageSize, mapNext_next]

/-! The requests. -/

theorem execInit_withMessageSize (cap : Word) :
    execInit cap (withMessageSize x s) = mapNext (withMessageSize x) (execInit cap s) :=
  ite_mapNext (raise_withMessageSize ..) <| ite_mapNext (raise_withMessageSize ..) <|
    ite_mapNext (raise_withMessageSize ..) (next_respond_withMessageSize _ _ rfl)

theorem execDestroy_withMessageSize :
    execDestroy (withMessageSize x s) = mapNext (withMessageSize x) (execDestroy s) :=
  ite_mapNext (raise_withMessageSize ..) <| ite_mapNext (raise_withMessageSize ..) <|
    ite_mapNext (raise_withMessageSize ..) (next_respond_withMessageSize _ _ rfl)

theorem execStatus_withMessageSize (reg : Byte) :
    execStatus reg (withMessageSize x s) = mapNext (withMessageSize x) (execStatus reg s) := by
  simp only [execStatus, regValue_withMessageSize]
  cases regValue s reg.toNat with
  | none => exact raise_withMessageSize ..
  | some v => exact next_respond_withMessageSize _ _ rfl

theorem execRead_withMessageSize (cap : Word) :
    execRead cap (withMessageSize x s) = mapNext (withMessageSize x) (execRead cap s) :=
  ite_mapNext (raise_withMessageSize ..) <| ite_mapNext (raise_withMessageSize ..) (pend_withMessageSize ..)

theorem execWrite_withMessageSize (data : List Byte) :
    execWrite data (withMessageSize x s) = mapNext (withMessageSize x) (execWrite data s) :=
  ite_mapNext (raise_withMessageSize ..) <| ite_mapNext (raise_withMessageSize ..) <|
    ite_mapNext (raise_withMessageSize ..) (pend_withMessageSize ..)

theorem execWritePkt_withMessageSize (src dst seq : Word) (msg : List Byte) :
    execWritePkt src dst seq msg (withMessageSize x s) =
      mapNext (withMessageSize x) (execWritePkt src dst seq msg s) :=
  ite_mapNext (raise_withMessageSize ..) <| ite_mapNext (raise_withMessageSize ..) <|
    ite_mapNext (raise_withMessageSize ..) <| ite_mapNext (raise_withMessageSize ..) (pend_withMessageSize ..)

theorem exec_withMessageSize (i : Instr) :
    exec i (withMessageSize x s) = mapNext (withMessageSize x) (exec i s) := by
  cases i with
  | init cap => exact execInit_withMessageSize x s cap
  | write data => exact execWrite_withMessageSize x s data
  | read cap => exact execRead_withMessageSize x s cap
  | destroy => exact execDestroy_withMessageSize x s
  | writePkt src dst seq msg => exact execWritePkt_withMessageSize x s src dst seq msg
  | status reg => exact execStatus_withMessageSize x s reg

/-! The steps of the agents. -/

theorem answerRejected_withMessageSize (unit : List Byte) :
    answerRejected unit (withMessageSize x s) = mapNext (withMessageSize x) (answerRejected unit s) := by
  cases unit <;> exact next_respond_withMessageSize _ _ rfl

theorem issue_withMessageSize (p : Port) (unit : List Byte) :
    issue p unit (withMessageSize x s) = mapNext (withMessageSize x) (issue p unit s) := by
  unfold issue
  cases decode unit with
  | ok i => exact exec_withMessageSize x { s with port := p } i
  | error _ => exact answerRejected_withMessageSize x { s with port := p } unit

theorem take_withMessageSize (p : Port) :
    take p (withMessageSize x s) = mapNext (withMessageSize x) (take p s) := by
  simp only [take, slotOf_withMessageSize]
  split
  · next q r _ =>
    exact congrArg _ (withSlot_withMessageSize x { s with out := s.out ++ [(p, r.unit)] } p { req := q })
  · rfl

theorem serveW_withMessageSize (i : Nat) :
    serveW i (withMessageSize x s) = mapNext (withMessageSize x) (serveW i s) := by
  simp only [serveW, pendingWrite_withMessageSize]
  cases pendingWrite s i with
  | none => rfl
  | some w => exact ite_mapNext (next_respond_withMessageSize _ _ rfl) rfl

theorem timeoutW_withMessageSize (i : Nat) :
    timeoutW i (withMessageSize x s) = mapNext (withMessageSize x) (timeoutW i s) := by
  simp only [timeoutW, pendingWrite_withMessageSize]
  cases pendingWrite s i with
  | none => rfl
  | some _ => exact next_respond_withMessageSize _ _ rfl

theorem serveR_withMessageSize (j : Nat) :
    serveR j (withMessageSize x s) = mapNext (withMessageSize x) (serveR j s) := by
  simp only [serveR, pendingRead_withMessageSize, readVerdict_withMessageSize]
  cases pendingRead s j with
  | none => rfl
  | some cap =>
    simp only
    cases readVerdict s cap.toNat with
    | eligible _ | undersized _ => exact next_respond_withMessageSize _ _ rfl
    | blocked | noStorage => rfl

theorem timeoutR_withMessageSize (j : Nat) :
    timeoutR j (withMessageSize x s) = mapNext (withMessageSize x) (timeoutR j s) := by
  simp only [timeoutR, pendingRead_withMessageSize]
  cases pendingRead s j with
  | none => rfl
  | some _ => exact next_respond_withMessageSize _ _ rfl

/-- One case per agent; `SYNC_R`, `SYNC_W` and reset copy the parameters and read none but the port counts. -/
theorem perform_withMessageSize (e : Event) :
    perform e (withMessageSize x s) = mapNext (withMessageSize x) (perform e s) := by
  cases e with
  | issue p unit => exact issue_withMessageSize x s p unit
  | take p => exact take_withMessageSize x s p
  | serveW i => exact serveW_withMessageSize x s i
  | timeoutW i => exact timeoutW_withMessageSize x s i
  | serveR j => exact serveR_withMessageSize x s j
  | timeoutR j => exact timeoutR_withMessageSize x s j
  | syncR => rfl
  | syncW => rfl
  | reset => rfl

theorem runEvent_withMessageSize (e : Event) :
    runEvent e (withMessageSize x s) = mapNext (withMessageSize x) (runEvent e s) := by
  simp only [runEvent, enabled_withMessageSize]
  exact ite_mapNext (perform_withMessageSize x s e) rfl

end Steps

/-- Settles O42: enabling reads no `MESSAGE_SIZE`, and the step commutes with the change of it. -/
theorem noStepReadsMessageSize : Obligations.NoStepReadsMessageSize := fun e s t x =>
  ⟨enabled_withMessageSize x s e, fun h => by rw [runEvent_withMessageSize, h, mapNext_next]⟩

end Machine
end Sys2Proof

/-! ## State: what a step can do, the invariant every step keeps (R19 to R34), and what fair runs bring (R35 to R40) -/

namespace Sys2Proof
namespace Machine

/-! ### The space of the ring (R28 to R31) -/

theorem ReadyInv.readable_lt {s : State} (h : ReadyInv s) : readableSpace s < s.cap :=
  ringDist_lt h.rpRange h.wpRange

/-- Settles O35: the readable space stays below `C`, and is 0 exactly at equal cursors. -/
theorem spaceAddsUpToCapacityLessOne : Obligations.SpaceAddsUpToCapacityLessOne := by
  intro s hb hm
  have h := hb.ready hm
  have hlt := h.readable_lt
  have hcap : 9 ≤ s.cap := h.capLow
  have hzero : readableSpace s = 0 ↔ s.rp = s.wp := ringDist_eq_zero h.rpRange h.wpRange
  have hw : writableSpace s = s.cap - 1 - readableSpace s := rfl
  exact ⟨by omega, by omega, hzero.symm, fun e => by rw [hw, hzero.2 e]; omega⟩

/-- Settles O36: each view stands behind its cursor on the arc that `writeView` and `readView` give. -/
theorem viewsOnlyUnderReport : Obligations.ViewsOnlyUnderReport := by
  refine fun s => ⟨rfl, rfl, fun hb hm => ?_⟩
  have h := hb.ready hm
  have hr : rdAvail s + ringDist s.cap s.wpVis s.wp = readableSpace s := h.readView
  have hw : writableSpace s = s.cap - 1 - ringDist s.cap s.rp s.wp := rfl
  rw [h.wrAvail_eq]
  exact ⟨by omega, by omega⟩

/-! ### Single steps of the ports and the synchronisers (R36 to R38) -/

/-- The `ISSUE` of a unit that decodes runs its request at that port (R36). -/
theorem issue_of_decode {p : Port} {unit : List Byte} {i : Instr} (s : State) (h : decode unit = .ok i) :
    issue p unit s = exec i { s with port := p } := by
  simp [issue, h]

theorem step_of_sched {s : State} {e : Event} {es : List Event} (h : s.sched = e :: es) :
    step s = runEvent e { s with sched := es } := by
  simp [step, nextEvent, h]

/-- Settles O8: the schedule's oldest step is enabled at a free port, and `issue` runs what the unit decodes to. -/
theorem stepRunsTheDecodedRequest : Obligations.StepRunsTheDecodedRequest := by
  intro s p unit es i hs hf hd
  have he : enabled (.issue p unit) { s with sched := es } = true :=
    (portFree_iff _ p).2 ((slotOf_congr rfl rfl rfl p).trans ((portFree_iff s p).1 hf))
  rw [step_of_sched hs, runEvent_enabled he]
  exact issue_of_decode _ hd

theorem enabled_issue_iff {s : State} {p : Port} {sl : Slot} (unit : List Byte) (h : slotOf s p = some sl) :
    enabled (.issue p unit) s = true ↔ sl.req = none ∧ sl.rsp = none := by
  obtain ⟨rq, rs⟩ := sl
  rw [enabled, portFree_iff, h]
  simp

/-- Settles O10: `ISSUE` is enabled at empty slots only, and a disabled step is not taken. -/
theorem heldPortDoesNotIssue : Obligations.HeldPortDoesNotIssue := by
  intro s p unit sl h
  have he := enabled_issue_iff unit h
  refine ⟨he, fun held => runEvent_disabled (Bool.eq_false_iff.2 fun hen => ?_)⟩
  obtain ⟨h1, h2⟩ := he.1 hen
  exact held.elim (absurd h1) (absurd h2)

theorem enabled_take_iff {s : State} {p : Port} {sl : Slot} (h : slotOf s p = some sl) :
    enabled (.take p) s = true ↔ sl.rsp ≠ none := by
  simp [enabled, waitingResponse, h, Option.isSome_iff_ne_none]

/-- The effect of `TAKE` on a waiting response (R37). -/
theorem take_spec {s : State} {p : Port} {sl : Slot} {r : Response} (h : slotOf s p = some sl) (hr : sl.rsp = some r) :
    take p s = .next (withSlot { s with out := s.out ++ [(p, r.unit)] } p { req := sl.req }) := by
  obtain ⟨rq, rs⟩ := sl
  cases hr
  simp [take, h]

/-- Settles O11: `take_spec`, and what `withSlot` leaves unchanged. -/
theorem takeHandsOverTheResponse : Obligations.TakeHandsOverTheResponse := by
  intro s p sl h
  refine ⟨enabled_take_iff h, fun r hr => ?_⟩
  have he : enabled (.take p) s = true := (enabled_take_iff h).2 (by simp [hr])
  have hu : ∀ q, slotOf { s with out := s.out ++ [(p, r.unit)] } q = slotOf s q := slotOf_congr rfl rfl rfl
  refine ⟨_, (runEvent_enabled he).trans (take_spec h hr), by simp, slotOf_withSlot_self _ ((hu p).trans h),
    fun q hq => (slotOf_withSlot_ne _ _ hq).trans (hu q), sameBlock_withSlot _ p _, ?_⟩
  simp

theorem enabled_syncR_iff (s : State) : enabled .syncR s = true ↔ s.mode = .ready ∧ s.wpVis ≠ s.wp := by
  simp [enabled]

theorem enabled_syncW_iff (s : State) : enabled .syncW s = true ↔ s.mode = .ready ∧ s.rpVis ≠ s.rp := by
  simp [enabled]

/-- Settles O12: the enabling conditions, and `syncR` and `syncW` where they hold. -/
theorem synchronisersCopyTheCursors : Obligations.SynchronisersCopyTheCursors := fun s =>
  ⟨enabled_syncR_iff s, runEvent_enabled, enabled_syncW_iff s, runEvent_enabled⟩

/-! ### Each side decides from its view (R23) -/

/-- The state with another write cursor. -/
def withWp (x : Nat) (s : State) : State := { s with wp := x }

/-- The state with another read cursor. -/
def withRp (x : Nat) (s : State) : State := { s with rp := x }

theorem serveR_withWp (x j : Nat) (s : State) : serveR j (withWp x s) = mapNext (withWp x) (serveR j s) := by
  have hp : pendingRead (withWp x s) j = pendingRead s j := rfl
  have hv : ∀ cap, readVerdict (withWp x s) cap = readVerdict s cap := fun _ => rfl
  simp only [serveR, hp, hv]
  cases pendingRead s j with
  | none => rfl
  | some cap =>
    simp only
    cases readVerdict s cap.toNat <;> rfl

theorem timeoutR_withWp (x j : Nat) (s : State) : timeoutR j (withWp x s) = mapNext (withWp x) (timeoutR j s) := by
  have hp : pendingRead (withWp x s) j = pendingRead s j := rfl
  simp only [timeoutR, hp]
  cases pendingRead s j <;> rfl

theorem serveW_withRp (x i : Nat) (s : State) : serveW i (withRp x s) = mapNext (withRp x) (serveW i s) := by
  have hp : pendingWrite (withRp x s) i = pendingWrite s i := rfl
  simp only [serveW, hp]
  cases pendingWrite s i with
  | none => rfl
  | some w => exact ite_mapNext rfl rfl

theorem timeoutW_withRp (x i : Nat) (s : State) : timeoutW i (withRp x s) = mapNext (withRp x) (timeoutW i s) := by
  have hp : pendingWrite (withRp x s) i = pendingWrite s i := rfl
  simp only [timeoutW, hp]
  cases pendingWrite s i <;> rfl

/-- A step that is enabled alike in `g s`, and whose effect commutes with `g`, does the same in `g s`. -/
theorem runEvent_mapNext {g : State → State} {e : Event} {s t : State} (he : enabled e (g s) = enabled e s)
    (hp : perform e (g s) = mapNext g (perform e s)) (h : runEvent e s = .next t) : runEvent e (g s) = .next (g t) := by
  have : runEvent e (g s) = mapNext g (runEvent e s) := by
    simp only [runEvent, he]
    exact ite_mapNext hp rfl
  rw [this, h, mapNext_next]

/-- Settles O41: the read arbiter's steps commute with `withWp`, the write arbiter's with `withRp`. -/
theorem eachSideDecidesFromItsView : Obligations.EachSideDecidesFromItsView := by
  intro s t n x
  refine ⟨fun e he => ?_, fun e he => ?_⟩ <;>
    simp only [List.mem_cons, List.not_mem_nil, or_false] at he <;> rcases he with rfl | rfl
  · exact ⟨rfl, runEvent_mapNext (g := withWp x) rfl (serveR_withWp x n s)⟩
  · exact ⟨rfl, runEvent_mapNext (g := withWp x) rfl (timeoutR_withWp x n s)⟩
  · exact ⟨rfl, runEvent_mapNext (g := withRp x) rfl (serveW_withRp x n s)⟩
  · exact ⟨rfl, runEvent_mapNext (g := withRp x) rfl (timeoutW_withRp x n s)⟩

/-! ### What a request does in its `ISSUE` step (R36, R114) -/

/-- The outcome fills the slots of the issuing port with what they may hold, pending only while `READY`, and changes
nothing else: what `raise`, `pend` and an answer have in common. -/
def FillsOwnSlot (s : State) (out : Result) : Prop :=
  ∃ sl, out = .next (withSlot s s.port sl) ∧ SlotOk s.port sl ∧ (s.mode = .uninit → sl.req = none)

theorem fillsOwnSlot_respond {s : State} {r : Response} (hr : ResponseOk r) :
    FillsOwnSlot s (.next (respond s s.port r)) :=
  ⟨_, rfl, slotOk_of_answer hr, fun _ => rfl⟩

theorem fillsOwnSlot_pend {s : State} {r : Pending} (hm : s.mode = .ready)
    (hr : requestOk s.port { req := some r }) : FillsOwnSlot s (pend s r) :=
  ⟨_, rfl, ⟨hr, .inr rfl, nofun⟩, fun h => by rw [hm] at h; cases h⟩

theorem fillsOwnSlot_badCmd (s : State) (ope : BitVec 4) : FillsOwnSlot s (raise s .badCmd ope) :=
  fillsOwnSlot_respond (responseOk_bare nofun nofun nofun nofun nofun nofun)

theorem fillsOwnSlot_badState (s : State) {ope : BitVec 4} (h : ope ≠ opStatus ∧ 1 ≤ ope.toNat ∧ ope.toNat ≤ 5) :
    FillsOwnSlot s (raise s .badState ope) :=
  fillsOwnSlot_respond (responseOk_bare nofun nofun nofun nofun nofun fun _ => h)

theorem fillsOwnSlot_badArg (s : State) {ope : BitVec 4}
    (h : ope = opInit ∨ ope = opStatus ∨ ope = opWrite ∨ ope = opWritePkt) : FillsOwnSlot s (raise s .badArg ope) :=
  fillsOwnSlot_respond (responseOk_bare nofun nofun nofun nofun (fun _ => h) nofun)

/-- A mode that is not one of the two is the other (R19). -/
theorem mode_ready_of_not_uninit {m : Mode} (h : m ≠ .uninit) : m = .ready := by
  cases m <;> simp_all

theorem requestOk_write {p : Port} {op : BitVec 4} {payload : List Byte} (hp : isProducer p = true)
    (hop : op = opWrite ∨ op = opWritePkt) (hl : payload.length ≤ maxPayload) :
    requestOk p { req := some (.write op payload) } := by
  cases p with
  | k | q _ => cases hp
  | p i =>
    intro r hr
    cases hr
    exact ⟨op, payload, rfl, hop, hl⟩

theorem requestOk_read {p : Port} (cap : Word) (hp : isConsumer p = true) :
    requestOk p { req := some (.read cap) } := by
  cases p with
  | k | p _ => cases hp
  | q j =>
    intro r hr
    cases hr
    exact ⟨cap, rfl⟩

@[simp] theorem packetPayload_length (src dst seq : Word) (msg : List Byte) :
    (packetPayload src dst seq msg).length = Config.appBytes + msg.length := by
  simp [packetPayload, Config.appBytes]
  omega

theorem execWrite_fills (data : List Byte) (s : State) : FillsOwnSlot s (execWrite data s) := by
  unfold execWrite
  split_ifs with hport hmode hlen
  · exact fillsOwnSlot_badCmd s _
  · exact fillsOwnSlot_badState s (by decide)
  · exact fillsOwnSlot_badArg s (by decide)
  · exact fillsOwnSlot_pend (by simpa using hmode) (requestOk_write (by simpa using hport) (.inl rfl) (by omega))

theorem execWritePkt_fills (src dst seq : Word) (msg : List Byte) (s : State) :
    FillsOwnSlot s (execWritePkt src dst seq msg s) := by
  unfold execWritePkt
  split_ifs with hport hmode hfield hlen
  · exact fillsOwnSlot_badCmd s _
  · exact fillsOwnSlot_badState s (by decide)
  · exact fillsOwnSlot_badArg s (by decide)
  · exact fillsOwnSlot_badArg s (by decide)
  · exact fillsOwnSlot_pend (by simpa using hmode)
      (requestOk_write (by simpa using hport) (.inr rfl) (by rw [packetPayload_length]; omega))

theorem execRead_fills (cap : Word) (s : State) : FillsOwnSlot s (execRead cap s) := by
  unfold execRead
  split_ifs with hport hmode
  · exact fillsOwnSlot_badCmd s _
  · exact fillsOwnSlot_badState s (by decide)
  · exact fillsOwnSlot_pend (by simpa using hmode) (requestOk_read cap (by simpa using hport))

theorem execStatus_fills (reg : Byte) (s : State) : FillsOwnSlot s (execStatus reg s) := by
  unfold execStatus
  cases regValue s reg.toNat with
  | none => exact fillsOwnSlot_badArg s (by decide)
  | some v => exact fillsOwnSlot_respond (responseOk_status _)

theorem port_of_isControl {p : Port} (h : isControl p = true) : p = .k := by
  cases p <;> simp_all [isControl]

/-- `INIT` either only answers, or starts an empty ring of an allowed capacity from `K` (R80, R81). -/
theorem execInit_cases (cap : Word) (s : State) :
    FillsOwnSlot s (execInit cap s) ∨
    (s.port = .k ∧ Config.hdrBytes + 1 ≤ cap.toNat ∧ cap.toNat ≤ s.params.cMax ∧
      execInit cap s = .next (respond
        { s with mode := .ready, cap := cap.toNat, rp := 0, wp := 0, rpVis := 0, wpVis := 0 }
        s.port (bare .ok opInit))) := by
  unfold execInit
  split_ifs with hport hmode hcap
  · exact .inl (fillsOwnSlot_badCmd s _)
  · exact .inl (fillsOwnSlot_badState s (by decide))
  · exact .inl (fillsOwnSlot_badArg s (by decide))
  · exact .inr ⟨port_of_isControl (by simpa using hport), by omega, by omega, rfl⟩

/-- `DESTROY` either only answers, or ends the buffer from `K` with no request pending (R83). -/
theorem execDestroy_cases (s : State) :
    FillsOwnSlot s (execDestroy s) ∨
    (s.port = .k ∧ ¬ somePending s ∧
      execDestroy s = .next (respond { s with mode := .uninit, cap := 0, rp := 0, wp := 0, rpVis := 0, wpVis := 0 }
        s.port (bare .ok opDestroy))) := by
  unfold execDestroy
  split_ifs with hport hmode hpend
  · exact .inl (fillsOwnSlot_badCmd s _)
  · exact .inl (fillsOwnSlot_badState s (by decide))
  · exact .inl (fillsOwnSlot_badState s (by decide))
  · exact .inr ⟨port_of_isControl (by simpa using hport), fun h => hpend ((anyPending_iff s).2 h), rfl⟩

/-! ### What a step can do, said once -/

/-- The enabled step `e` takes the machine from `s` to the state: one constructor for each effect a step can have. -/
inductive Effect (s : State) : Event → State → Prop
  /-- an `ISSUE` answered at once or made pending -/
  | issued (p : Port) (unit : List Byte) (draws : Nat) (sl : Slot) (free : portFree s p = true) (ok : SlotOk p sl)
      (idle : s.mode = .uninit → sl.req = none) :
      Effect s (.issue p unit) (withSlot { s with port := p, draws := draws } p sl)
  /-- an accepted `INIT` (R80, R81) -/
  | started (unit : List Byte) (cap : Word) (free : portFree s .k = true) (decoded : decode unit = .ok (.init cap))
      (low : Config.hdrBytes + 1 ≤ cap.toNat) (high : cap.toNat ≤ s.params.cMax) :
      Effect s (.issue .k unit)
        (respond { s with port := .k, mode := .ready, cap := cap.toNat, rp := 0, wp := 0, rpVis := 0, wpVis := 0 }
          .k (bare .ok opInit))
  /-- an accepted `DESTROY` (R83) -/
  | ended (unit : List Byte) (free : portFree s .k = true) (decoded : decode unit = .ok .destroy)
      (idle : ¬ somePending s) :
      Effect s (.issue .k unit)
        (respond { s with port := .k, mode := .uninit, cap := 0, rp := 0, wp := 0, rpVis := 0, wpVis := 0 }
          .k (bare .ok opDestroy))
  /-- `TAKE` (R37) -/
  | taken (p : Port) (sl : Slot) (r : Response) (slot : slotOf s p = some sl) (waits : sl.rsp = some r) :
      Effect s (.take p) (withSlot { s with out := s.out ++ [(p, r.unit)] } p { req := sl.req })
  /-- a write commit (R88) -/
  | writeCommit (n : Nat) (op : BitVec 4) (payload : List Byte) (pending : pendingWrite s n = some (op, payload))
      (mode : s.mode = .ready) (fits : 8 + payload.length ≤ wrAvail s) (storage : storageOk s = true) :
      Effect s (.serveW n)
        (respond { s with ring := commitBytes s payload, wp := (s.wp + 8 + payload.length) % s.cap }
          (.p n) (bare .ok op))
  /-- a write answered `FULL` (R89) -/
  | full (n : Nat) (op : BitVec 4) (payload : List Byte) (pending : pendingWrite s n = some (op, payload)) :
      Effect s (.timeoutW n) (respond s (.p n) (bare .full op))
  /-- a read commit (R97) -/
  | readCommit (n : Nat) (cap : Word) (pending : pendingRead s n = some cap) (mode : s.mode = .ready)
      (header : 8 ≤ rdAvail s) :
      Effect s (.serveR n)
        (respond { s with rp := (s.rp + 8 + headLength s) % s.cap } (.q n)
          (readResponse s.params (memRead s ((s.rp + 8) % s.cap) (headLength s))))
  /-- a read answered `UNDERSIZED` (R98) -/
  | undersized (n : Nat) (cap : Word) (pending : pendingRead s n = some cap) :
      Effect s (.serveR n) (respond s (.q n) { status := .undersized, ope := opRead, len := word64 (headLength s) })
  /-- a read answered `EMPTY` (R99) -/
  | empty (n : Nat) (cap : Word) (pending : pendingRead s n = some cap) :
      Effect s (.timeoutR n) (respond s (.q n) (bare .empty opRead))
  /-- `SYNC_R` (R38) -/
  | syncR (mode : s.mode = .ready) : Effect s .syncR { s with wpVis := s.wp }
  /-- `SYNC_W` (R38) -/
  | syncW (mode : s.mode = .ready) : Effect s .syncW { s with rpVis := s.rp }
  /-- reset (R127) -/
  | reset : Effect s .reset
      { State.resetWith s.params with
        port := s.port, sched := s.sched, out := s.out, draws := s.draws + 1, ringDraw := s.draws + 1 }

/-- An outcome that fills the issuing port's slots, as an effect of its `ISSUE` step. -/
theorem effect_of_fills {s t : State} {p : Port} (unit : List Byte) (hf : portFree s p = true)
    (h : FillsOwnSlot { s with port := p } (.next t)) : Effect s (.issue p unit) t := by
  obtain ⟨sl, e, hok, hidle⟩ := h
  cases e
  exact .issued p unit s.draws sl hf hok hidle

/-- `ISSUE`: by what the unit decodes to, and for `INIT` and `DESTROY` by whether they are accepted. -/
theorem effect_of_issue {s t : State} {p : Port} {unit : List Byte} (hf : portFree s p = true)
    (h : issue p unit s = .next t) : Effect s (.issue p unit) t := by
  unfold issue at h
  cases hd : decode unit with
  | error d =>
    rw [hd] at h
    cases h
    exact .issued p unit (s.draws + 1) _ hf
      (slotOk_of_answer (responseOk_bare nofun nofun nofun nofun nofun nofun)) fun _ => rfl
  | ok i =>
    rw [hd] at h
    cases i with
    | init cap =>
      rcases execInit_cases cap { s with port := p } with hfill | ⟨rfl, hlow, hhigh, he⟩
      · exact effect_of_fills unit hf (h ▸ hfill)
      · cases he.symm.trans h
        exact .started unit cap hf hd hlow hhigh
    | destroy =>
      rcases execDestroy_cases { s with port := p } with hfill | ⟨rfl, hidle, he⟩
      · exact effect_of_fills unit hf (h ▸ hfill)
      · cases he.symm.trans h
        refine .ended unit hf hd fun ⟨q, sl, hq, hr⟩ => hidle ⟨q, sl, ?_, hr⟩
        rwa [slotOf_withPort]
    | write data => exact effect_of_fills unit hf (h ▸ execWrite_fills data _)
    | read cap => exact effect_of_fills unit hf (h ▸ execRead_fills cap _)
    | writePkt src dst seq msg => exact effect_of_fills unit hf (h ▸ execWritePkt_fills src dst seq msg _)
    | status reg => exact effect_of_fills unit hf (h ▸ execStatus_fills reg _)

theorem effect_of_take {s t : State} {p : Port} (hen : enabled (.take p) s = true) (h : take p s = .next t) :
    Effect s (.take p) t := by
  cases hs : slotOf s p with
  | none => simp [enabled, waitingResponse, hs] at hen
  | some sl =>
    obtain ⟨r, hr⟩ := Option.ne_none_iff_exists'.1 ((enabled_take_iff hs).1 hen)
    cases (take_spec hs hr).symm.trans h
    exact .taken p sl r hs hr

theorem effect_of_serveW {s t : State} {n : Nat} (hen : enabled (.serveW n) s = true) (h : serveW n s = .next t) :
    Effect s (.serveW n) t := by
  cases hp : pendingWrite s n with
  | none => simp [enabled, hp] at hen
  | some w =>
    obtain ⟨op, payload⟩ := w
    rw [enabled_serveW_of hp] at hen
    obtain ⟨hm, hfit⟩ := (eligibleWrite_iff s _).1 hen
    cases hs : storageOk s with
    | false => simp [serveW, hp, hs] at h
    | true =>
      cases (serveW_spec hp hs).symm.trans h
      exact .writeCommit n op payload hp hm hfit hs

theorem effect_of_timeoutW {s t : State} {n : Nat} (hen : enabled (.timeoutW n) s = true) (h : timeoutW n s = .next t) :
    Effect s (.timeoutW n) t := by
  cases hp : pendingWrite s n with
  | none => simp [enabled, hp] at hen
  | some w =>
    cases (timeoutW_spec hp).symm.trans h
    exact .full n _ _ hp

theorem readVerdict_of_not_storageOk {s : State} (hs : storageOk s = false) (cap : Nat) :
    readVerdict s cap = .blocked ∨ readVerdict s cap = .noStorage := by
  unfold readVerdict
  cases headVisible s <;> simp [hs]

theorem effect_of_serveR {s t : State} {n : Nat} (hen : enabled (.serveR n) s = true) (h : serveR n s = .next t) :
    Effect s (.serveR n) t := by
  cases hp : pendingRead s n with
  | none => simp [enabled, hp] at hen
  | some cap =>
    rw [enabled_serveR_of hp] at hen
    cases hs : storageOk s with
    | false =>
      rcases readVerdict_of_not_storageOk hs cap.toNat with hv | hv
      · simp [hv] at hen
      · simp [serveR, hp, hv] at h
    | true =>
      rcases readVerdict_cases s cap.toNat hs with ⟨-, hv⟩ | ⟨-, -, hv⟩ | ⟨hh, -, -, hv⟩ | ⟨-, -, -, hv⟩
      · simp [hv] at hen
      · cases (serveR_undersized hp hv).symm.trans h
        exact .undersized n cap hp
      · cases (serveR_eligible hp hv).symm.trans h
        obtain ⟨hm, hhdr⟩ := (headVisible_iff s).1 hh
        exact .readCommit n cap hp hm hhdr
      · simp [hv] at hen

theorem effect_of_timeoutR {s t : State} {n : Nat} (hen : enabled (.timeoutR n) s = true) (h : timeoutR n s = .next t) :
    Effect s (.timeoutR n) t := by
  cases hp : pendingRead s n with
  | none => simp [enabled, hp] at hen
  | some cap =>
    cases (timeoutR_spec hp).symm.trans h
    exact .empty n cap hp

/-- What a step can do: nothing where it is not enabled, else one of the effects. -/
theorem effect_of_runEvent {e : Event} {s t : State} (h : runEvent e s = .next t) :
    t = s ∨ (enabled e s = true ∧ Effect s e t) := by
  cases hen : enabled e s with
  | false =>
    rw [runEvent_disabled hen] at h
    cases h
    exact .inl rfl
  | true =>
    rw [runEvent_enabled hen] at h
    refine .inr ⟨rfl, ?_⟩
    cases e with
    | issue p unit => exact effect_of_issue hen h
    | take p => exact effect_of_take hen h
    | serveW n => exact effect_of_serveW hen h
    | timeoutW n => exact effect_of_timeoutW hen h
    | serveR n => exact effect_of_serveR hen h
    | timeoutR n => exact effect_of_timeoutR hen h
    | syncR =>
      cases h
      exact .syncR ((enabled_syncR_iff s).1 hen).1
    | syncW =>
      cases h
      exact .syncW ((enabled_syncW_iff s).1 hen).1
    | reset =>
      cases h
      exact .reset

/-! ### Who writes what (R19 to R23) -/

/-- Settles O43: by the effects; an accepted `INIT` or `DESTROY` is excluded by what its unit decodes to. -/
theorem eachElementHasItsWriters : Obligations.EachElementHasItsWriters := by
  intro e s t h hreset hlife
  rcases effect_of_runEvent h with rfl | ⟨-, heff⟩
  · simp
  · cases heff with
    | started unit cap _ decoded => exact absurd decoded (hlife unit cap rfl).1
    | ended unit _ decoded => exact absurd decoded (hlife unit 0 rfl).2
    | reset => exact absurd rfl hreset
    | issued | taken | writeCommit | full | readCommit | undersized | empty | syncR | syncW => simp

/-! ### The invariant -/

/-- A step that leads to a `READY` ring with the same parameters and slots keeps the invariant where it keeps the
storage and the ring in order. -/
theorem BlockInv.of_ready {s t : State} (h : BlockInv s) (hm : t.mode = .ready) (hp : t.params = s.params)
    (hk : t.portK = s.portK) (hps : t.portsP = s.portsP) (hqs : t.portsQ = s.portsQ)
    (hmem : Memory.wf s.params.cMax t.ring) (hr : ReadyInv t) : BlockInv t :=
  ⟨hp ▸ h.params, hp ▸ hmem, h.slots.congr hp hk hps hqs, fun _ => hr, fun e => by rw [hm] at e; cases e⟩

/-- An empty ring at offset 0 (R81). -/
theorem readyInv_start {s : State} (hlow : Config.hdrBytes + 1 ≤ s.cap) (hhigh : s.cap ≤ s.params.cMax)
    (hword : s.cap < 2 ^ 64) (h1 : s.rp = 0) (h2 : s.wp = 0) (h3 : s.rpVis = 0) (h4 : s.wpVis = 0) : ReadyInv s := by
  have hpos : 0 < s.cap := Nat.lt_of_lt_of_le (by decide) hlow
  have hempty : holdsQueue s [] [] := by
    simpa only [holdsQueue, h1, h2, h4, ringDist_self] using And.intro (framesAt_nil s 0) (framesAt_nil s 0)
  refine ⟨hlow, hhigh, hword, ?_, ?_, ?_, ?_, ?_, ?_, ⟨[], [], hempty⟩, ?_⟩ <;> simp [h1, h2, h3, h4, hpos]

/-- `SYNC_R` brings the unseen frames into sight, behind the seen ones (R38). -/
theorem ReadyInv.holdsQueue_syncR {s : State} (h : ReadyInv s) {seen unseen : List (List Byte)}
    (hq : holdsQueue s seen unseen) : holdsQueue { s with wpVis := s.wp } (seen ++ unseen) [] := by
  obtain ⟨q1, q2⟩ := hq
  have hvis : (s.rp + ringDist s.cap s.rp s.wpVis) % s.cap = s.wpVis := add_ringDist_mod h.rpRange h.wpVisRange
  have q : framesAt s s.rp (ringDist s.cap s.rp s.wp) (seen ++ unseen) := by
    rw [← h.readView]
    exact framesAt_append q1 (framesAt_mod.1 (by rwa [hvis]))
  refine ⟨q, ?_⟩
  rw [ringDist_self]
  exact framesAt_nil _ _

theorem ReadyInv.syncR {s : State} (h : ReadyInv s) : ReadyInv { s with wpVis := s.wp } := by
  obtain ⟨seen, unseen, hq⟩ := h.frames
  exact { h with
    wpVisRange := h.wpRange
    readView := by simp
    frames := ⟨_, _, h.holdsQueue_syncR hq⟩ }

theorem ReadyInv.syncW {s : State} (h : ReadyInv s) : ReadyInv { s with rpVis := s.rp } := by
  have hsum := h.writeView
  exact { h with
    rpVisRange := h.rpRange
    writeView := by simp only [ringDist_self]; omega }

/-- A pending write's payload fits the length header, and its `OP` is a write's own (R85, R86). -/
theorem BlockInv.pendingWrite_ok {s : State} (h : BlockInv s) {n : Nat} {op : BitVec 4} {payload : List Byte}
    (hp : pendingWrite s n = some (op, payload)) :
    (op = opWrite ∨ op = opWritePkt) ∧ payload.length ≤ maxPayload := by
  obtain ⟨rsp, hs⟩ := slot_of_pendingWrite hp
  obtain ⟨_, _, e, hop, hl⟩ := (h.slots.slotOk hs).request _ rfl
  cases e
  exact ⟨hop, hl⟩

theorem responseOk_write {op : BitVec 4} (h : op = opWrite ∨ op = opWritePkt) : ResponseOk (bare .ok op) :=
  responseOk_bare (fun _ => by rcases h with rfl | rfl <;> decide) nofun nofun nofun nofun nofun

theorem responseOk_full {op : BitVec 4} (h : op = opWrite ∨ op = opWritePkt) : ResponseOk (bare .full op) :=
  responseOk_bare nofun (fun _ => h) nofun nofun nofun nofun

theorem responseOk_control {op : BitVec 4} (h : op = opInit ∨ op = opDestroy) : ResponseOk (bare .ok op) :=
  responseOk_bare (fun _ => by rcases h with rfl | rfl <;> decide) nofun nofun nofun nofun nofun

theorem responseOk_empty : ResponseOk (bare .empty opRead) :=
  responseOk_bare nofun nofun (fun _ => rfl) nofun nofun nofun

/-- The slots after `TAKE`: a waiting response has no request beside it, so both are empty (R36, R37). -/
theorem SlotOk.taken {p : Port} {sl : Slot} (h : SlotOk p sl) {r : Response} (hr : sl.rsp = some r) :
    sl.req = none ∧ SlotOk p { req := sl.req } := by
  have hreq : sl.req = none := h.oneAtATime.resolve_right (by simp [hr])
  exact ⟨hreq, requestOk_of_idle hreq, .inr rfl, nofun⟩

theorem BlockInv.writeCommit {s : State} (h : BlockInv s) {n : Nat} {op : BitVec 4} {payload : List Byte}
    (hp : pendingWrite s n = some (op, payload)) (hm : s.mode = .ready) (hf : 8 + payload.length ≤ wrAvail s)
    (hs : storageOk s = true) :
    BlockInv { s with ring := commitBytes s payload, wp := (s.wp + 8 + payload.length) % s.cap } := by
  have hr := (h.ready hm).commit (t := { s with
      ring := commitBytes s payload, wp := (s.wp + 8 + payload.length) % s.cap })
    (h.pendingWrite_ok hp).2 hf rfl rfl rfl rfl (by rw [Nat.add_assoc]) rfl rfl rfl
  exact h.of_ready hm rfl rfl rfl rfl (commitBytes_wf hs h.memory) hr.1

theorem BlockInv.readCommit {s : State} (h : BlockInv s) (hm : s.mode = .ready) (hv : 8 ≤ rdAvail s) :
    BlockInv { s with rp := (s.rp + 8 + headLength s) % s.cap } := by
  have hr := (h.ready hm).readCommit (t := { s with rp := (s.rp + 8 + headLength s) % s.cap }) hv
    rfl rfl rfl (by rw [Nat.add_assoc]) rfl rfl rfl rfl
  exact h.of_ready hm rfl rfl rfl rfl h.memory hr.1

theorem BlockInv.start {s : State} (h : BlockInv s) {cap : Word} (hlow : Config.hdrBytes + 1 ≤ cap.toNat)
    (hhigh : cap.toNat ≤ s.params.cMax) :
    BlockInv { s with port := .k, mode := .ready, cap := cap.toNat, rp := 0, wp := 0, rpVis := 0, wpVis := 0 } :=
  h.of_ready rfl rfl rfl rfl rfl h.memory (readyInv_start hlow hhigh cap.isLt rfl rfl rfl rfl)

theorem BlockInv.endBuffer {s : State} (h : BlockInv s) (hidle : ¬ somePending s) :
    BlockInv { s with port := .k, mode := .uninit, cap := 0, rp := 0, wp := 0, rpVis := 0, wpVis := 0 } :=
  ⟨h.params, h.memory, h.slots.congr rfl rfl rfl rfl, nofun, fun _ => ⟨rfl, rfl, rfl, rfl, rfl,
    fun ⟨p, sl, hs, hr⟩ => hidle ⟨p, sl, (slotOf_congr rfl rfl rfl p).trans hs, hr⟩⟩⟩

/-- Every slot of a block right after reset is empty (R43). -/
theorem slotOf_resetWith {p : Config.Params} {port : Port} {sl : Slot} (h : slotOf (State.resetWith p) port = some sl) :
    sl = {} := by
  cases port with
  | k => exact (Option.some.inj h).symm
  | p i => exact List.eq_of_mem_replicate (List.mem_of_getElem? h)
  | q j => exact List.eq_of_mem_replicate (List.mem_of_getElem? h)

/-- The reset state of every build meets the invariant (R43). -/
theorem blockInv_resetWith {p : Config.Params} (h : p.valid = true) : BlockInv (State.resetWith p) where
  params := h
  memory := reset_ring_wf p p.cMax
  slots :=
    have empty (port : Port) : SlotOk port {} := ⟨requestOk_of_idle rfl, .inl rfl, nofun⟩
    .of_slots List.length_replicate List.length_replicate (empty _)
      (fun _ hm => List.eq_of_mem_replicate hm ▸ empty _) (fun _ hm => List.eq_of_mem_replicate hm ▸ empty _)
  ready := nofun
  uninit _ := ⟨rfl, rfl, rfl, rfl, rfl, fun ⟨_, _, hs, hr⟩ => hr (by rw [slotOf_resetWith hs])⟩

/-- Every effect keeps the invariant: it leads to a state that meets it but for the slots of one port, and fills those
with what they may hold. -/
theorem BlockInv.effect {s t : State} {e : Event} (h : BlockInv s) (heff : Effect s e t) : BlockInv t := by
  cases heff with
  | issued p unit draws sl free ok idle =>
    have hu : BlockInv { s with port := p, draws := draws } :=
      h.congr rfl rfl rfl rfl rfl rfl rfl rfl rfl rfl rfl fun _ => rfl
    exact hu.withSlot ok idle
  | started unit cap free decoded low high => exact (h.start low high).respond _ (responseOk_control (.inl rfl))
  | ended unit free decoded idle => exact (h.endBuffer idle).respond _ (responseOk_control (.inr rfl))
  | taken p sl r slot waits =>
    have hu : BlockInv { s with out := s.out ++ [(p, r.unit)] } :=
      h.congr rfl rfl rfl rfl rfl rfl rfl rfl rfl rfl rfl fun _ => rfl
    obtain ⟨hreq, hok⟩ := (h.slots.slotOk slot).taken waits
    exact hu.withSlot hok fun _ => hreq
  | writeCommit n op payload pending mode fits storage =>
    exact (h.writeCommit pending mode fits storage).respond _ (responseOk_write (h.pendingWrite_ok pending).1)
  | full n op payload pending => exact h.respond _ (responseOk_full (h.pendingWrite_ok pending).1)
  | readCommit n cap pending mode header =>
    exact (h.readCommit mode header).respond _ (responseOk_read _ (by simpa using headLength_lt s))
  | undersized n cap pending => exact h.respond _ (responseOk_undersized _)
  | empty n cap pending => exact h.respond _ responseOk_empty
  | syncR mode => exact h.of_ready mode rfl rfl rfl rfl h.memory (h.ready mode).syncR
  | syncW mode => exact h.of_ready mode rfl rfl rfl rfl h.memory (h.ready mode).syncW
  | reset =>
    exact (blockInv_resetWith h.params).congr rfl rfl rfl rfl rfl rfl rfl rfl rfl rfl rfl nofun

theorem blockInv_runEvent {s t : State} {e : Event} (h : BlockInv s) (hr : runEvent e s = .next t) : BlockInv t := by
  rcases effect_of_runEvent hr with rfl | ⟨-, heff⟩
  · exact h
  · exact h.effect heff

/-- Picking the next step touches the schedule and the count of draws only (log entry 2). -/
theorem blockInv_nextEvent {s : State} (h : BlockInv s) : BlockInv (nextEvent s).2 := by
  unfold nextEvent
  split <;> exact h.congr rfl rfl rfl rfl rfl rfl rfl rfl rfl rfl rfl fun _ => rfl

/-- Settles O47: the step picked next keeps the invariant, by its effect. -/
theorem everyStepKeepsTheInvariant : Obligations.EveryStepKeepsTheInvariant := fun _ _ h hs =>
  blockInv_runEvent (blockInv_nextEvent h) hs

/-! ### A pending request and its answer (R40) -/

/-- The port whose step an event is, if it is one's (R35). -/
def eventPort : Event → Option Port
  | .issue p _ | .take p => some p
  | .serveW n | .timeoutW n => some (.p n)
  | .serveR n | .timeoutR n => some (.q n)
  | .syncR | .syncW | .reset => none

/-- Replacing the slots of one port, in a state with the slots of `s`, leaves those of every other as in `s`. -/
theorem slotOf_withSlot_of {s u : State} {p q : Port} (sl : Slot) (hk : u.portK = s.portK) (hps : u.portsP = s.portsP)
    (hqs : u.portsQ = s.portsQ) (h : q ≠ p) : slotOf (withSlot u p sl) q = slotOf s q :=
  (slotOf_withSlot_ne u sl h).trans (slotOf_congr hk hps hqs q)

/-- A step but reset leaves the slots of every port but its own (R112, R123). -/
theorem Effect.slotOf_other {s t : State} {e : Event} {q : Port} (h : Effect s e t) (hr : e ≠ .reset)
    (hq : eventPort e ≠ some q) : slotOf t q = slotOf s q := by
  have own {p : Port} (hp : some p ≠ some q) : q ≠ p := fun e => hp (e ▸ rfl)
  cases h with
  | issued | started | ended | taken | writeCommit | full | readCommit | undersized | empty =>
    exact slotOf_withSlot_of _ rfl rfl rfl (own hq)
  | syncR | syncW => exact slotOf_congr rfl rfl rfl q
  | reset => exact absurd rfl hr

/-- A pending request outlasts every step but reset and its port's own answers (R36, R37, R40). -/
theorem Effect.request_stays {s t : State} {e : Event} {p : Port} {sl : Slot} (h : Effect s e t)
    (hs : slotOf s p = some sl) (hreq : sl.req ≠ none) (hr : e ≠ .reset) (ha : e ∉ answers p) :
    ∃ sl', slotOf t p = some sl' ∧ sl'.req = sl.req := by
  by_cases hp : eventPort e = some p
  · have held {q : Port} (hq : some q = some p) (free : portFree s q = true) : False := by
      cases hq
      rw [(portFree_iff s _).1 free] at hs
      cases hs
      exact hreq rfl
    cases h with
    | issued q _ _ _ free => exact (held hp free).elim
    | started _ _ free => exact (held hp free).elim
    | ended _ free => exact (held hp free).elim
    | taken q sl' r slot waits =>
      cases hp
      cases hs.symm.trans slot
      exact ⟨_, slotOf_withSlot_self _ ((slotOf_congr rfl rfl rfl p).trans hs), rfl⟩
    | writeCommit | full | readCommit | undersized | empty =>
      cases hp
      exact absurd (by simp [answers]) ha
    | syncR | syncW | reset => cases hp
  · exact ⟨sl, (h.slotOf_other hr hp).trans hs, rfl⟩

/-- A step whose effect is `respond` at a port the block has ends that port's request with a response (R26). -/
theorem runEvent_answers {s u : State} {p : Port} {sl : Slot} {e : Event} {r : Response} (hs : slotOf s p = some sl)
    (hen : enabled e s = true) (hp : perform e s = .next (respond u p r)) (hk : u.portK = s.portK)
    (hps : u.portsP = s.portsP) (hqs : u.portsQ = s.portsQ) :
    ∃ t r, runEvent e s = .next t ∧ slotOf t p = some { req := none, rsp := some r } :=
  ⟨_, r, (runEvent_enabled hen).trans hp, (answered_respond_of r hk hps hqs hs).1⟩

/-- `ANSWER(p)` of a pending request: what the invariant knows of the port's two steps (R40). -/
theorem exactlyOneAnswer {s : State} (h : BlockInv s) {p : Port} {sl : Slot} (hs : slotOf s p = some sl)
    (hreq : sl.req ≠ none) :
    ∃ e ∈ answers p, enabled e s = true ∧ (∀ e' ∈ answers p, enabled e' s = true → e' = e) ∧
      ∃ t r, runEvent e s = .next t ∧ slotOf t p = some { req := none, rsp := some r } := by
  obtain ⟨rq, hrq⟩ := Option.ne_none_iff_exists'.1 hreq
  have hreqOk := (h.slots.slotOk hs).request
  cases p with
  | k => exact absurd hreqOk hreq
  | p n =>
    obtain ⟨op, payload, rfl, -, -⟩ := hreqOk rq hrq
    have hp := pendingWrite_of_slot hs hrq
    have hW := enabled_serveW_of hp
    have hT := enabled_timeoutW_of hp
    cases hel : eligibleWrite s payload.length with
    | true =>
      have hstorage := (h.ready ((eligibleWrite_iff s _).1 hel).1).storage
      rw [hel] at hW hT
      exact ⟨.serveW n, by simp [answers], hW, by simp [answers, hT],
        runEvent_answers hs hW (serveW_spec hp hstorage) rfl rfl rfl⟩
    | false =>
      rw [hel] at hW hT
      exact ⟨.timeoutW n, by simp [answers], hT, by simp [answers, hW],
        runEvent_answers hs hT (timeoutW_spec hp) rfl rfl rfl⟩
  | q n =>
    obtain ⟨cap, rfl⟩ := hreqOk rq hrq
    have hp := pendingRead_of_slot hs hrq
    have hR := enabled_serveR_of hp
    have hT := enabled_timeoutR_of hp
    rcases readVerdict_spec h.capInStorage cap.toNat with ⟨-, hv⟩ | ⟨-, hv⟩ | ⟨-, hv⟩ <;> rw [hv] at hR hT
    · exact ⟨.timeoutR n, by simp [answers], hT, by simp [answers, hR],
        runEvent_answers hs hT (timeoutR_spec hp) rfl rfl rfl⟩
    · exact ⟨.serveR n, by simp [answers], hR, by simp [answers, hT],
        runEvent_answers hs hR (serveR_undersized hp hv) rfl rfl rfl⟩
    · exact ⟨.serveR n, by simp [answers], hR, by simp [answers, hT],
        runEvent_answers hs hR (serveR_eligible hp hv) rfl rfl rfl⟩

/-- Settles O53: `exactlyOneAnswer`. -/
theorem pendingRequestsAlwaysHaveAnAnswer : Obligations.PendingRequestsAlwaysHaveAnAnswer := fun _ _ _ h hs hreq =>
  exactlyOneAnswer h hs hreq

/-! ### Fair runs (R39) -/

theorem stateAt_succ_of_next {σ : Nat → Event} {s t : State} {n : Nat} (h : runEvent (σ n) (stateAt σ s n) = .next t) :
    stateAt σ s (n + 1) = t := by
  simp [stateAt, h]

/-- A run moves on by its next step, or stays where that step has no next state. -/
theorem stateAt_succ_cases (σ : Nat → Event) (s : State) (n : Nat) :
    runEvent (σ n) (stateAt σ s n) = .next (stateAt σ s (n + 1)) ∨ stateAt σ s (n + 1) = stateAt σ s n := by
  cases h : runEvent (σ n) (stateAt σ s n) with
  | next t => exact .inl (by rw [stateAt_succ_of_next h])
  | fault | refused => exact .inr (by simp [stateAt, h])

/-- What a run's step can do (see `Effect`). -/
theorem effect_of_stateAt (σ : Nat → Event) (s : State) (n : Nat) :
    stateAt σ s (n + 1) = stateAt σ s n ∨
      (enabled (σ n) (stateAt σ s n) = true ∧ Effect (stateAt σ s n) (σ n) (stateAt σ s (n + 1))) :=
  (stateAt_succ_cases σ s n).elim effect_of_runEvent .inl

theorem blockInv_stateAt {s : State} (h : BlockInv s) (σ : Nat → Event) : ∀ n, BlockInv (stateAt σ s n)
  | 0 => h
  | n + 1 => by
    rcases effect_of_stateAt σ s n with e | ⟨-, heff⟩
    · exact e ▸ blockInv_stateAt h σ n
    · exact (blockInv_stateAt h σ n).effect heff

/-- Step `m` of the run ends the wait of port `p`: a reset, or an answer that is taken. -/
def endsWait (p : Port) (σ : Nat → Event) (s : State) (m : Nat) : Prop :=
  σ m = .reset ∨ (σ m ∈ answers p ∧ enabled (σ m) (stateAt σ s m) = true)

/-- A pending request stays pending along a run up to the first step that ends its wait. -/
theorem request_stays_until {σ : Nat → Event} {s : State} {p : Port} {sl : Slot} (hs : slotOf s p = some sl)
    (hreq : sl.req ≠ none) {n : Nat} (hn : ∀ m, m < n → ¬ endsWait p σ s m) :
    ∃ sl', slotOf (stateAt σ s n) p = some sl' ∧ sl'.req = sl.req := by
  induction n with
  | zero => exact ⟨sl, hs, rfl⟩
  | succ n ih =>
    obtain ⟨sl', hs', hsame⟩ := ih fun m hm => hn m (by omega)
    rcases effect_of_stateAt σ s n with e | ⟨hen, heff⟩
    · exact ⟨sl', e ▸ hs', hsame⟩
    · have hgo := hn n (by omega)
      rw [← hsame] at hreq ⊢
      exact heff.request_stays hs' hreq (fun e => hgo (.inl e)) fun ha => hgo (.inr ⟨ha, hen⟩)

/-- Where `ANSWER(p)` is weakly fair, the wait of a pending request ends: until then one of the answers is enabled. -/
theorem exists_endsWait {σ : Nat → Event} {s : State} {p : Port} {sl : Slot} (h : BlockInv s)
    (hs : slotOf s p = some sl) (hreq : sl.req ≠ none) (hfair : weaklyFair (answers p) σ s) :
    ∃ n, endsWait p σ s n := by
  by_contra! hno
  have henabled (m : Nat) : ∃ e ∈ answers p, enabled e (stateAt σ s m) = true := by
    obtain ⟨sl', hs', hsame⟩ := request_stays_until hs hreq (n := m) fun k _ => hno k
    obtain ⟨e, he, hen, -⟩ := exactlyOneAnswer (blockInv_stateAt h σ m) hs' (hsame ▸ hreq)
    exact ⟨e, he, hen⟩
  obtain ⟨m, -, hmem, hen⟩ := hfair 0 fun m _ => henabled m
  exact hno m (.inr ⟨hmem, hen⟩)

/-- Settles O54: the first step that ends the wait is the one; an answer there ends the request. -/
theorem fairRunsAnswerEveryRequest : Obligations.FairRunsAnswerEveryRequest := by
  classical
  intro σ s p sl h hs hreq hfair
  have hex := exists_endsWait h hs hreq hfair
  have hbefore : ∀ m, m < Nat.find hex → ¬ endsWait p σ s m := fun _ => Nat.find_min hex
  refine ⟨Nat.find hex, fun m hm => request_stays_until hs hreq fun k hk => hbefore k (by omega),
    (Nat.find_spec hex).imp_right fun ⟨hmem, hen⟩ => ⟨hmem, ?_⟩⟩
  obtain ⟨sl', hs', hsame⟩ := request_stays_until hs hreq hbefore
  obtain ⟨e, -, -, honly, t, r, hrun, hans⟩ := exactlyOneAnswer (blockInv_stateAt h σ _) hs' (hsame ▸ hreq)
  rw [← honly _ hmem hen] at hrun
  exact ⟨r, by rw [stateAt_succ_of_next hrun, hans]⟩

/-- A weakly fair step that is enabled until `goal` holds, and brings it about, brings it about again and again. -/
theorem exists_goal_of_weaklyFair {σ : Nat → Event} {s : State} {e : Event} {goal : State → Prop}
    (hfair : weaklyFair [e] σ s) (hen : ∀ n, ¬ goal (stateAt σ s n) → enabled e (stateAt σ s n) = true)
    (hdo : ∀ u, enabled e u = true → ∃ t, runEvent e u = .next t ∧ goal t) (k : Nat) :
    ∃ n, k ≤ n ∧ goal (stateAt σ s n) := by
  by_contra! hno
  obtain ⟨m, hm, hmem, henm⟩ := hfair k fun n hn => ⟨e, by simp, hen n (hno n hn)⟩
  cases List.mem_singleton.1 hmem
  obtain ⟨t, hrun, hgoal⟩ := hdo _ henm
  exact hno (m + 1) (by omega) (by rwa [stateAt_succ_of_next hrun])

/-- In `UNINIT` the cursors and views are all 0, so a view that lags is a `READY` ring's. -/
theorem BlockInv.enabled_syncR {s : State} (h : BlockInv s) (hlag : s.wpVis ≠ s.wp) : enabled .syncR s = true :=
  (enabled_syncR_iff s).2 ⟨mode_ready_of_not_uninit fun hm =>
    hlag ((h.uninit hm).wpVis.trans (h.uninit hm).wp.symm), hlag⟩

theorem BlockInv.enabled_syncW {s : State} (h : BlockInv s) (hlag : s.rpVis ≠ s.rp) : enabled .syncW s = true :=
  (enabled_syncW_iff s).2 ⟨mode_ready_of_not_uninit fun hm =>
    hlag ((h.uninit hm).rpVis.trans (h.uninit hm).rp.symm), hlag⟩

/-- Settles O55: each synchroniser is enabled while its view lags, and then makes the two meet. -/
theorem fairRunsBringEveryCommitInSight : Obligations.FairRunsBringEveryCommitInSight := by
  rintro σ s h ⟨hR, hW, -⟩ k
  exact ⟨exists_goal_of_weaklyFair (goal := fun u => u.wpVis = u.wp) hR
      (fun n => (blockInv_stateAt h σ n).enabled_syncR) (fun _ hen => ⟨_, runEvent_enabled hen, rfl⟩) k,
    exists_goal_of_weaklyFair (goal := fun u => u.rpVis = u.rp) hW
      (fun n => (blockInv_stateAt h σ n).enabled_syncW) (fun _ hen => ⟨_, runEvent_enabled hen, rfl⟩) k⟩

end Machine
end Sys2Proof

/-! ## Memory: what the ring holds (R44 to R62), step by step and over a run -/

namespace Sys2Proof
namespace Machine

/-! ### Requests that only queue or look (R54, R113) -/

/-- Every request but `INIT` and `DESTROY` only fills the slots of its port. -/
theorem exec_fills {i : Instr} (hinit : ∀ cap, i ≠ .init cap) (hdestroy : i ≠ .destroy) (s : State) :
    FillsOwnSlot s (exec i s) := by
  cases i with
  | init cap => exact absurd rfl (hinit cap)
  | destroy => exact absurd rfl hdestroy
  | write data => exact execWrite_fills data s
  | read cap => exact execRead_fills cap s
  | writePkt src dst seq msg => exact execWritePkt_fills src dst seq msg s
  | status reg => exact execStatus_fills reg s

/-- Settles O22: what `withSlot` leaves unchanged. -/
theorem dataRequestsChangeOnlyTheirPort : Obligations.DataRequestsChangeOnlyTheirPort := by
  intro i s hinit hdestroy
  obtain ⟨sl, he, -⟩ := exec_fills hinit hdestroy s
  exact ⟨_, he, sameBlock_withSlot .., sameOtherSlots_withSlot _ _ _, sameEnvironment_withSlot ..⟩

/-! ### What each side sees of the other's commits (R48, R61) -/

/-- In `READY` a synchroniser's step makes its view the cursor, whether or not the view lags (R38). -/
theorem runEvent_syncR_of_ready {s : State} (hm : s.mode = .ready) :
    runEvent .syncR s = .next { s with wpVis := s.wp } := by
  by_cases hlag : s.wpVis = s.wp
  · rw [runEvent_disabled (by simp [enabled, hlag])]
    cases s
    cases hlag
    rfl
  · exact runEvent_enabled ((enabled_syncR_iff s).2 ⟨hm, hlag⟩)

theorem runEvent_syncW_of_ready {s : State} (hm : s.mode = .ready) :
    runEvent .syncW s = .next { s with rpVis := s.rp } := by
  by_cases hlag : s.rpVis = s.rp
  · rw [runEvent_disabled (by simp [enabled, hlag])]
    cases s
    cases hlag
    rfl
  · exact runEvent_enabled ((enabled_syncW_iff s).2 ⟨hm, hlag⟩)

/-- Settles O34: a commit writes neither the view nor the cursor that the other side's space is made of (O43). -/
theorem commitsBecomeVisibleOnlyBySync : Obligations.CommitsBecomeVisibleOnlyBySync := by
  refine fun s t => ⟨fun n h => ?_, fun n h => ?_, fun hm h => ?_, fun hm h => ?_⟩
  · obtain ⟨-, -, hcap, -, hrp, hwpVis, -⟩ := eachElementHasItsWriters _ _ _ h nofun nofun
    rw [rdAvail, hcap, hrp nofun, hwpVis nofun, rdAvail]
  · obtain ⟨-, -, hcap, hwp, -, -, hrpVis⟩ := eachElementHasItsWriters _ _ _ h nofun nofun
    rw [wrAvail, hcap, (hwp nofun).1, hrpVis nofun, wrAvail]
  · cases (runEvent_syncR_of_ready hm).symm.trans h
    exact ⟨rfl, rfl⟩
  · cases (runEvent_syncW_of_ready hm).symm.trans h
    exact ⟨rfl, rfl⟩

/-- Settles O38: from `RP` forward, a write commit's offsets come after all that the read side may read, and the two
runs together are shorter than the ring. -/
theorem writesNeverTouchReadableBytes : Obligations.WritesNeverTouchReadableBytes := by
  intro s n op payload h hp hen k m hk hm heq
  rw [enabled_serveW_of hp] at hen
  obtain ⟨hmode, hfit⟩ := (eligibleWrite_iff s _).1 hen
  have hr := h.ready hmode
  have hspace : s.cap - 1 - ringDist s.cap s.rpVis s.wp =
      s.cap - 1 - (ringDist s.cap s.rpVis s.rp + ringDist s.cap s.rp s.wp) := hr.wrAvail_eq
  have hview := hr.readView
  rw [offset_shift (add_ringDist_mod hr.rpRange hr.wpRange)] at heq
  have := offset_inj (by omega) (by omega) heq
  omega

/-! ### Every step of a block that meets the invariant goes through (R126) -/

theorem exec_next (i : Instr) (s : State) : ∃ t, exec i s = .next t := by
  have of_fills {out : Result} (h : FillsOwnSlot s out) : ∃ t, out = .next t := h.imp' _ fun _ hsl => hsl.1
  cases i with
  | init cap => exact (execInit_cases cap s).elim of_fills fun ⟨_, _, _, he⟩ => ⟨_, he⟩
  | destroy => exact (execDestroy_cases s).elim of_fills fun ⟨_, _, he⟩ => ⟨_, he⟩
  | write | read | writePkt | status => exact of_fills (exec_fills (by simp) (by simp) s)

theorem issue_next (p : Port) (unit : List Byte) (s : State) : ∃ t, issue p unit s = .next t := by
  unfold issue
  cases decode unit with
  | ok i => exact exec_next i _
  | error _ => exact ⟨_, rfl⟩

theorem take_next (p : Port) (s : State) : ∃ t, take p s = .next t := by
  unfold take
  split <;> exact ⟨_, rfl⟩

/-- The write arbiter's steps are enabled at a port with a write pending only (R87, R89). -/
theorem pendingWrite_of_enabled {s : State} {n : Nat} {e : Event} (he : e ∈ answers (.p n)) (hen : enabled e s = true) :
    ∃ op payload, pendingWrite s n = some (op, payload) := by
  cases hp : pendingWrite s n with
  | some w => exact ⟨_, _, rfl⟩
  | none => rcases List.mem_pair.1 he with rfl | rfl <;> simp [enabled, hp] at hen

/-- The read arbiter's steps are enabled at a port with a read pending only (R96 to R99). -/
theorem pendingRead_of_enabled {s : State} {n : Nat} {e : Event} (he : e ∈ answers (.q n)) (hen : enabled e s = true) :
    ∃ cap, pendingRead s n = some cap := by
  cases hp : pendingRead s n with
  | some cap => exact ⟨_, rfl⟩
  | none => rcases List.mem_pair.1 he with rfl | rfl <;> simp [enabled, hp] at hen

/-- A port whose `ANSWER(p)` is enabled has a request pending (R39). -/
theorem request_of_enabled_answer {s : State} {p : Port} {e : Event} (he : e ∈ answers p) (hen : enabled e s = true) :
    ∃ sl, slotOf s p = some sl ∧ sl.req ≠ none := by
  cases p with
  | k => cases he
  | p n =>
    obtain ⟨op, payload, hp⟩ := pendingWrite_of_enabled he hen
    obtain ⟨rsp, hs⟩ := slot_of_pendingWrite hp
    exact ⟨_, hs, nofun⟩
  | q n =>
    obtain ⟨cap, hp⟩ := pendingRead_of_enabled he hen
    obtain ⟨rsp, hs⟩ := slot_of_pendingRead hp
    exact ⟨_, hs, nofun⟩

theorem BlockInv.answer_next {s : State} (h : BlockInv s) {p : Port} {e : Event} (he : e ∈ answers p)
    (hen : enabled e s = true) : ∃ t, runEvent e s = .next t := by
  obtain ⟨sl, hs, hreq⟩ := request_of_enabled_answer he hen
  obtain ⟨e', -, -, honly, t, r, hrun, -⟩ := exactlyOneAnswer h hs hreq
  exact ⟨t, honly e he hen ▸ hrun⟩

/-- The arbiters' steps go through by `exactlyOneAnswer`; no other step can stop. -/
theorem BlockInv.runEvent_next {s : State} (h : BlockInv s) (e : Event) : ∃ t, runEvent e s = .next t := by
  cases hen : enabled e s with
  | false => exact ⟨s, runEvent_disabled hen⟩
  | true =>
    cases e with
    | issue p unit => exact runEvent_enabled hen ▸ issue_next p unit s
    | take p => exact runEvent_enabled hen ▸ take_next p s
    | serveW n | timeoutW n => exact h.answer_next (p := .p n) (by simp [answers]) hen
    | serveR n | timeoutR n => exact h.answer_next (p := .q n) (by simp [answers]) hen
    | syncR | syncW | reset => exact ⟨_, runEvent_enabled hen⟩

/-! ### One step and the queue (R53, R56 to R58) -/

/-- An `INIT` on `K` while `READY` is refused (R80). -/
theorem runEvent_init_of_ready {s : State} {unit : List Byte} {cap : Word} (hm : s.mode = .ready)
    (free : portFree s .k = true) (decoded : decode unit = .ok (.init cap)) :
    runEvent (.issue .k unit) s = .next (respond { s with port := .k } .k (bare .badState opInit)) := by
  rw [runEvent_enabled (show enabled (.issue .k unit) s = true from free)]
  refine (issue_of_decode s decoded).trans ?_
  simp [exec, execInit, isControl, hm, raise]

/-- A write commit appends its payload to the unseen ones (R53, R88). -/
theorem BlockInv.holdsQueue_serveW {s t : State} (h : BlockInv s) {n : Nat} {op : BitVec 4} {payload : List Byte}
    {seen unseen : List (List Byte)} (hq : holdsQueue s seen unseen) (hp : pendingWrite s n = some (op, payload))
    (hen : enabled (.serveW n) s = true) (hrun : runEvent (.serveW n) s = .next t) :
    holdsQueue t seen (unseen ++ [payload]) := by
  have hpl := (h.pendingWrite_ok hp).2
  rw [runEvent_enabled hen] at hrun
  rw [enabled_serveW_of hp] at hen
  obtain ⟨hm, hfit⟩ := (eligibleWrite_iff s _).1 hen
  have hr := h.ready hm
  cases (serveW_spec hp hr.storage).symm.trans hrun
  obtain ⟨-, -, hpush⟩ := hr.commit (t := Machine.respond { s with
      ring := commitBytes s payload, wp := (s.wp + 8 + payload.length) % s.cap } (.p n) (bare .ok op))
    hpl hfit (by simp) (by simp) (by simp) (by simp) (by simp [Nat.add_assoc]) (by simp) (by simp) (by simp)
  exact hpush _ _ hq

/-- `SERVE_R` where it is enabled: a header is in sight, and the read's capacity decides between a read commit and an
undersized answer (R96 to R98). -/
theorem runEvent_serveR_cases {s t : State} (hs : capInStorage s) {n : Nat} {cap : Word}
    (hp : pendingRead s n = some cap) (hen : enabled (.serveR n) s = true) (hrun : runEvent (.serveR n) s = .next t) :
    headVis s ∧
      ((lHead s ≤ cap.toNat ∧ t = respond { s with rp := (s.rp + 8 + lHead s) % s.cap } (.q n)
        (readResponse s.params (memRead s ((s.rp + 8) % s.cap) (lHead s)))) ∨
      (lHead s > cap.toNat ∧
        t = respond s (.q n) { status := .undersized, ope := opRead, len := word64 (lHead s) })) := by
  rw [runEvent_enabled hen] at hrun
  rw [enabled_serveR_of hp] at hen
  rcases readVerdict_spec hs cap.toNat with ⟨-, hv⟩ | ⟨⟨hh, hl⟩, hv⟩ | ⟨⟨hh, hl, -⟩, hv⟩
  · simp [hv] at hen
  · cases (serveR_undersized hp hv).symm.trans hrun
    exact ⟨hh, .inr ⟨hl, rfl⟩⟩
  · cases (serveR_eligible hp hv).symm.trans hrun
    exact ⟨hh, .inl ⟨hl, rfl⟩⟩

/-- `SERVE_R` and the oldest payload in sight: a read of enough capacity takes it and is answered with it, any other
leaves it and is told its length (R53, R97, R98). -/
theorem BlockInv.holdsQueue_serveR {s t : State} (h : BlockInv s) {n : Nat} {cap : Word}
    {seen unseen : List (List Byte)} (hq : holdsQueue s seen unseen) (hp : pendingRead s n = some cap)
    (hen : enabled (.serveR n) s = true) (hrun : runEvent (.serveR n) s = .next t) :
    ∃ f rest, seen = f :: rest ∧ f.length < 2 ^ 64 ∧
      (f.length ≤ cap.toNat → holdsQueue t rest unseen ∧
        slotOf t (.q n) = some { req := none, rsp := some (readResponse s.params f) }) ∧
      (f.length > cap.toNat → holdsQueue t seen unseen ∧
        slotOf t (.q n) =
          some { req := none, rsp := some { status := .undersized, ope := opRead, len := word64 f.length } }) := by
  obtain ⟨⟨hm, hhead⟩, hcases⟩ := runEvent_serveR_cases h.capInStorage hp hen hrun
  obtain ⟨rsp, hs⟩ := slot_of_pendingRead hp
  obtain ⟨-, -, hpop⟩ := (h.ready hm).readCommit (t := { s with rp := (s.rp + 8 + lHead s) % s.cap }) hhead rfl rfl rfl
    (by rw [Nat.add_assoc]; rfl) rfl rfl rfl rfl
  obtain ⟨f, rest, rfl, hlen, hdata, hrest⟩ := hpop _ _ hq
  have hhl : lHead s = f.length := hlen
  refine ⟨f, rest, rfl, hlen ▸ headLength_lt s, fun hle => ?_, fun hgt => ?_⟩
  · obtain ⟨-, rfl⟩ := hcases.resolve_right fun hu => by omega
    refine ⟨holdsQueue_respond _ _ hrest, ?_⟩
    rw [hhl, memRead_mod, hdata]
    exact slotOf_respond_self _ hs
  · obtain ⟨-, rfl⟩ := hcases.resolve_left fun hc => by omega
    rw [hhl]
    exact ⟨holdsQueue_respond _ _ hq, slotOf_respond_self _ hs⟩

/-- `SYNC_R` makes every payload a seen one (R38, R57). -/
theorem BlockInv.holdsQueue_syncR {s t : State} (h : BlockInv s) (hm : s.mode = .ready)
    {seen unseen : List (List Byte)} (hq : holdsQueue s seen unseen) (hrun : runEvent .syncR s = .next t) :
    holdsQueue t (seen ++ unseen) [] := by
  cases (runEvent_syncR_of_ready hm).symm.trans hrun
  exact (h.ready hm).holdsQueue_syncR hq

/-- A step that neither commits, synchronises the read side, resets nor destroys leaves the queue of a `READY` ring: it
changes slots, the write side's view and the model's own fields only, and an `INIT` is refused (R54). -/
theorem holdsQueue_of_quiet {s t : State} {e : Event} (hm : s.mode = .ready) {seen unseen : List (List Byte)}
    (hq : holdsQueue s seen unseen) (hrun : runEvent e s = .next t) (hserveW : ∀ n, e ≠ .serveW n)
    (hserveR : ∀ n, e ≠ .serveR n) (hsyncR : e ≠ .syncR) (hreset : e ≠ .reset)
    (hdestroy : ∀ unit, e = .issue .k unit → decode unit ≠ .ok .destroy) : holdsQueue t seen unseen := by
  rcases effect_of_runEvent hrun with rfl | ⟨-, heff⟩
  · exact hq
  · cases heff with
    | started unit cap free decoded =>
      rw [← Host.Outcome.next.inj ((runEvent_init_of_ready hm free decoded).symm.trans hrun)]
      exact holdsQueue_respond _ _ (holdsQueue_congr rfl rfl rfl rfl (fun _ => rfl) hq)
    | ended unit _ decoded => exact absurd decoded (hdestroy unit rfl)
    | writeCommit n => exact absurd rfl (hserveW n)
    | readCommit n | undersized n => exact absurd rfl (hserveR n)
    | syncR => exact absurd rfl hsyncR
    | reset => exact absurd rfl hreset
    | issued | taken | full | empty | syncW =>
      exact holdsQueue_congr (by simp) (by simp) (by simp) (by simp) (by simp [ringByte]) hq

/-- Settles O49: one lemma for each of the commits, for `SYNC_R` and for every other step. -/
theorem ringIsAQueueOfFrames : Obligations.RingIsAQueueOfFrames := by
  intro s t e seen unseen h hm hq hen hrun
  refine ⟨fun n op payload he hp => ?_, fun he => ?_, fun n cap he hp => ?_, fun hW hR hS hreset hlife => ?_⟩
  · subst he
    exact h.holdsQueue_serveW hq hp hen hrun
  · subst he
    exact h.holdsQueue_syncR hm hq hrun
  · subst he
    obtain ⟨f, rest, hseen, hlen, hpop, hkeep⟩ := h.holdsQueue_serveR hq hp hen hrun
    exact ⟨f, rest, hseen,
      fun hle => ⟨(hpop hle).1, _, (hpop hle).2, rfl, rfl, word64_toNat hlen⟩,
      fun hgt => ⟨(hkeep hgt).1, _, (hkeep hgt).2, rfl, word64_toNat hlen⟩⟩
  · exact holdsQueue_of_quiet hm hq hrun hW hR hS hreset fun unit he => (hlife unit 0 he).2

/-! ### A run and the queue (R56, R57) -/

/-- A step that keeps the buffer keeps it `READY` (R19). -/
theorem mode_of_keepsBuffer {s t : State} {e : Event} (hm : s.mode = .ready) (hk : keepsBuffer e)
    (hrun : runEvent e s = .next t) : t.mode = .ready := by
  rcases effect_of_runEvent hrun with rfl | ⟨-, heff⟩
  · exact hm
  · cases heff with
    | ended unit _ decoded => exact absurd decoded (hk.2 _ unit rfl)
    | reset => exact absurd rfl hk.1
    | started => simp
    | issued | taken | writeCommit | full | readCommit | undersized | empty | syncR | syncW => simpa using hm

@[simp] theorem written_of_disabled {e : Event} {s : State} (hen : enabled e s = false) : written e s = [] := by
  cases e with
  | serveW n => cases hp : pendingWrite s n <;> simp [written, hp, hen]
  | issue | take | timeoutW | serveR | timeoutR | syncR | syncW | reset => rfl

@[simp] theorem returned_of_disabled {e : Event} {s : State} (hen : enabled e s = false) : returned e s = [] := by
  cases e with
  | serveR n => simp [returned, hen]
  | issue | take | serveW | timeoutW | timeoutR | syncR | syncW | reset => rfl

theorem written_serveW {s : State} {n : Nat} {op : BitVec 4} {payload : List Byte}
    (hp : pendingWrite s n = some (op, payload)) (hen : enabled (.serveW n) s = true) :
    written (.serveW n) s = [payload] := by
  simp [written, hp, hen]

theorem returned_serveR {s t : State} {n : Nat} {r : Response} (hen : enabled (.serveR n) s = true)
    (hrun : runEvent (.serveR n) s = .next t) (hs : slotOf t (.q n) = some { req := none, rsp := some r }) :
    returned (.serveR n) s = if r.status = .ok then [r.data] else [] := by
  simp only [returned, hen, hrun, waitingResponse, hs]
  split_ifs with hok <;> simp [hok]

/-- What was in the queue and what the step stores is what the step returns and what is in the queue after it. -/
theorem BlockInv.queue_step {s t : State} {e : Event} (h : BlockInv s) (hm : s.mode = .ready)
    {seen unseen : List (List Byte)} (hq : holdsQueue s seen unseen) (hk : keepsBuffer e)
    (hrun : runEvent e s = .next t) :
    ∃ seen' unseen', holdsQueue t seen' unseen' ∧
      seen ++ unseen ++ written e s = returned e s ++ (seen' ++ unseen') := by
  cases hen : enabled e s with
  | false =>
    cases (runEvent_disabled hen).symm.trans hrun
    exact ⟨seen, unseen, hq, by simp [hen]⟩
  | true =>
    cases e with
    | serveW n =>
      obtain ⟨op, payload, hp⟩ := pendingWrite_of_enabled (n := n) (by simp [answers]) hen
      exact ⟨_, _, h.holdsQueue_serveW hq hp hen hrun, by simp [written_serveW hp hen, returned]⟩
    | serveR n =>
      obtain ⟨cap, hp⟩ := pendingRead_of_enabled (n := n) (by simp [answers]) hen
      obtain ⟨f, rest, rfl, -, hpop, hkeep⟩ := h.holdsQueue_serveR hq hp hen hrun
      rcases Nat.lt_or_ge cap.toNat f.length with hgt | hle
      · obtain ⟨hq', hs⟩ := hkeep hgt
        exact ⟨_, _, hq', by simp [returned_serveR hen hrun hs, written]⟩
      · obtain ⟨hq', hs⟩ := hpop hle
        exact ⟨_, _, hq', by simp [returned_serveR hen hrun hs, written, readResponse]⟩
    | syncR => exact ⟨_, _, h.holdsQueue_syncR hm hq hrun, by simp [written, returned]⟩
    | issue | take | timeoutW | timeoutR | syncW | reset =>
      exact ⟨_, _, holdsQueue_of_quiet hm hq hrun nofun nofun nofun hk.1 fun unit => hk.2 _ unit,
        by simp [written, returned]⟩

theorem runEvents_cons {e : Event} {es : List Event} {s t : State} (h : runEvent e s = .next t) :
    runEvents (e :: es) s = runEvents es t := by
  simp [runEvents, h]

theorem collect_cons {α : Type} (f : Event → State → List α) {e : Event} {es : List Event} {s t : State}
    (h : runEvent e s = .next t) : collect f (e :: es) s = f e s ++ collect f es t := by
  simp [collect, h]

/-- The law of `queue_step` over a run, from any queue: the steps' payloads are collected one after the other. -/
theorem BlockInv.queue_run (es : List Event) : ∀ {s : State}, BlockInv s → s.mode = .ready →
    ∀ {seen unseen : List (List Byte)}, holdsQueue s seen unseen → (∀ e ∈ es, keepsBuffer e) →
    ∃ t seen' unseen', runEvents es s = .next t ∧ holdsQueue t seen' unseen' ∧
      seen ++ unseen ++ writtenBy es s = returnedBy es s ++ (seen' ++ unseen') := by
  induction es with
  | nil => exact fun {s} _ _ {seen unseen} hq _ => ⟨s, seen, unseen, rfl, hq, by simp [writtenBy, returnedBy, collect]⟩
  | cons e es ih =>
    intro s h hm seen unseen hq hk
    obtain ⟨hke, hkes⟩ := List.forall_mem_cons.1 hk
    obtain ⟨u, hrun⟩ := h.runEvent_next e
    obtain ⟨seen₁, unseen₁, hq₁, hstep⟩ := h.queue_step hm hq hke hrun
    obtain ⟨t, seen', unseen', hruns, hq', hrest⟩ :=
      ih (blockInv_runEvent h hrun) (mode_of_keepsBuffer hm hke hrun) hq₁ hkes
    refine ⟨t, seen', unseen', (runEvents_cons hrun).trans hruns, hq', ?_⟩
    calc seen ++ unseen ++ writtenBy (e :: es) s
        = (seen ++ unseen ++ written e s) ++ writtenBy es u := by simp [writtenBy, collect_cons _ hrun]
      _ = returned e s ++ (seen₁ ++ unseen₁ ++ writtenBy es u) := by rw [hstep, List.append_assoc]
      _ = returned e s ++ (returnedBy es u ++ (seen' ++ unseen')) := by rw [hrest]
      _ = returnedBy (e :: es) s ++ (seen' ++ unseen') := by simp [returnedBy, collect_cons _ hrun]

/-- An empty ring holds the empty queue: the view stands between cursors that are equal (R31). -/
theorem ReadyInv.holdsQueue_nil {s : State} (h : ReadyInv s) (he : s.rp = s.wp) : holdsQueue s [] [] := by
  have hview := h.readView
  rw [(ringDist_eq_zero h.rpRange h.wpRange).2 he] at hview
  obtain ⟨hseen, hunseen⟩ := Nat.add_eq_zero_iff.1 hview
  rw [holdsQueue, hseen, hunseen]
  exact ⟨framesAt_nil s _, framesAt_nil s _⟩

/-- Settles O50: `queue_run` from the empty queue. -/
theorem readCommitsReturnTheWriteCommits : Obligations.ReadCommitsReturnTheWriteCommits := by
  intro es s h hm he hk
  obtain ⟨t, seen, unseen, hruns, hq, hlaw⟩ := h.queue_run es hm ((h.ready hm).holdsQueue_nil he) hk
  exact ⟨t, seen ++ unseen, hruns, hlaw, seen, unseen, rfl, hq⟩

end Machine
end Sys2Proof

/-! ## Encoding: request units and their decoder (R69 to R72, R76), response units (R73 to R75) -/

namespace Sys2Proof

/-! ### The decoder, in numbers and opcode by opcode -/

/-- On a command word without one of R76's conditions 1 to 3, given as a number, only the operands decide. -/
theorem decode_eq_decodeOperands {unit : List Byte} (hlen : 4 ≤ unit.length)
    (hop : 1 ≤ leDecode (unit.take 4) % 2 ^ 4 ∧ leDecode (unit.take 4) % 2 ^ 4 ≤ 6)
    (hrsv : leDecode (unit.take 4) / 2 ^ 4 % 2 ^ 4 = 0 ∧ leDecode (unit.take 4) / 2 ^ 16 = 0)
    (hreg : leDecode (unit.take 4) / 2 ^ 8 % 2 ^ 8 = 0 ∨ leDecode (unit.take 4) % 2 ^ 4 = 6) :
    decode unit =
      decodeOperands (cmdOp (commandWordOf unit)) (cmdReg (commandWordOf unit)) (unit.drop 4) := by
  obtain ⟨hOp, hRsv0, hReg, hRsv1⟩ := command_fields (leDecode_take_lt 4 unit)
  have hopOk : ¬ (cmdOp (commandWordOf unit) = 0 ∨ opStatus < cmdOp (commandWordOf unit)) := by
    simp [BitVec.lt_def, ← BitVec.toNat_inj, commandWordOf, hOp, opStatus]
    omega
  have hrsvOk : ¬ (cmdRsv0 (commandWordOf unit) ≠ 0 ∨ cmdRsv1 (commandWordOf unit) ≠ 0) := by
    simp [← BitVec.toNat_inj, commandWordOf, hRsv0, hRsv1]
    omega
  have hregOk : ¬ (cmdReg (commandWordOf unit) ≠ 0 ∧ cmdOp (commandWordOf unit) ≠ opStatus) := by
    simp [← BitVec.toNat_inj, commandWordOf, hOp, hReg, opStatus]
    omega
  simp only [decode, if_neg (Nat.not_lt.2 hlen), if_neg hopOk, if_neg hrsvOk, if_neg hregOk]

section Operands

variable (reg : Byte) (body : List Byte)

@[simp] theorem decodeOperands_init :
    decodeOperands opInit reg body = withLength (body.length == 8) (.init (operandWord 0 body)) := rfl

@[simp] theorem decodeOperands_write : decodeOperands opWrite reg body =
    withLength (decide (8 ≤ body.length) && body.length == 8 + (operandWord 0 body).toNat)
      (.write (body.drop 8)) := rfl

@[simp] theorem decodeOperands_read :
    decodeOperands opRead reg body = withLength (body.length == 8) (.read (operandWord 0 body)) := rfl

@[simp] theorem decodeOperands_destroy :
    decodeOperands opDestroy reg body = withLength (body.length == 0) .destroy := rfl

@[simp] theorem decodeOperands_writePkt : decodeOperands opWritePkt reg body =
    withLength (decide (32 ≤ body.length) && body.length == 32 + (operandWord 3 body).toNat)
      (.writePkt (operandWord 0 body) (operandWord 1 body) (operandWord 2 body) (body.drop 32)) := rfl

@[simp] theorem decodeOperands_status :
    decodeOperands opStatus reg body = withLength (body.length == 0) (.status reg) := rfl

end Operands

/-! ### A request's own unit -/

/-- What follows the command word in a request's unit (R69). -/
def Instr.body (i : Instr) : List Byte := (i.operandWords.map (leEncode 8)).flatten ++ i.dataBytes

theorem encode_eq (i : Instr) : encode i = leEncode 4 i.commandWord ++ i.body := List.append_assoc ..

/-- The command word of a request's unit as a number (R70). -/
theorem leDecode_take_encode (i : Instr) : leDecode ((encode i).take 4) = i.opcode.toNat + 256 * i.regField.toNat := by
  rw [Laws.UnitShape.take_commandWord, leDecode_leEncode_of_lt (commandWord_lt i)]
  rfl

theorem four_le_encode_length (i : Instr) : 4 ≤ (encode i).length := by
  simp [encode_eq]

/-- The opcodes are 1 to 6 (R71). -/
theorem opcode_range (i : Instr) : 1 ≤ i.opcode.toNat ∧ i.opcode.toNat ≤ 6 := by
  cases i <;> simp [Instr.opcode, opInit, opWrite, opRead, opDestroy, opWritePkt, opStatus]

/-- `REG` is 0 but for `STATUS` (R70). -/
theorem regField_eq_zero_or (i : Instr) : i.regField.toNat = 0 ∨ i.opcode.toNat = 6 := by
  cases i with
  | status reg => exact .inr rfl
  | init | write | read | destroy | writePkt => exact .inl rfl

/-- The operand words of a list, read from their bytes (R69, R72). -/
theorem operandWord_flatten {data : List Byte} {v : Nat} (ws : List Nat) :
    ∀ {k : Nat}, ws[k]? = some v → operandWord k ((ws.map (leEncode 8)).flatten ++ data) = BitVec.ofNat 64 v := by
  induction ws with
  | nil => simp
  | cons w ws ih =>
    intro k h
    rw [List.map_cons, List.flatten_cons, List.append_assoc]
    cases k with
    | zero =>
      cases h
      exact operandWord_at (before := []) rfl
    | succ k =>
      rw [← ih h, operandWord, operandWord, show 8 * (k + 1) = 8 + 8 * k by omega, ← List.drop_drop,
        List.drop_left' (by simp)]

/-- An operand of a request, read from its unit (R72). -/
theorem operandWord_body {i : Instr} {k : Nat} {w : Word} (h : i.operandWords[k]? = some w.toNat) :
    operandWord k i.body = w := by
  rw [Instr.body, operandWord_flatten _ h, BitVec.ofNat_toNat, BitVec.setWidth_eq]

/-- The `LEN` or `MLEN` of a well-formed request, read from its unit (R72). -/
theorem lengthWord_body {i : Instr} {k : Nat} {data : List Byte} (h : i.operandWords[k]? = some data.length)
    (hfits : fitsLengthWord data = true) : (operandWord k i.body).toNat = data.length := by
  rw [Instr.body, operandWord_flatten _ h, BitVec.toNat_ofNat,
    Nat.mod_eq_of_lt (by simpa [fitsLengthWord] using hfits)]

theorem flatten_leEncode_length (ws : List Nat) : ((ws.map (leEncode 8)).flatten).length = 8 * ws.length := by
  induction ws with
  | nil => rfl
  | cons w ws ih => simp [ih]; omega

theorem Instr.body_length (i : Instr) : i.body.length = 8 * i.operandWords.length + i.dataBytes.length := by
  rw [Instr.body, List.length_append, flatten_leEncode_length]

theorem Instr.body_drop (i : Instr) : i.body.drop (8 * i.operandWords.length) = i.dataBytes :=
  List.drop_left' (flatten_leEncode_length _)

/-- The operands and data of a request are read back where the encoder put them (R69, R72). -/
theorem decodeOperands_body {i : Instr} (h : i.wellFormed = true) :
    decodeOperands i.opcode i.regField i.body = .ok i := by
  cases i with
  | init cap =>
    have hlen : (Instr.init cap).body.length = 8 := Instr.body_length _
    have hcap : operandWord 0 (Instr.init cap).body = cap := operandWord_body rfl
    simp [Instr.opcode, withLength, hlen, hcap]
  | write data =>
    have hlen : (Instr.write data).body.length = 8 + data.length := Instr.body_length _
    have hword : (operandWord 0 (Instr.write data).body).toNat = data.length := lengthWord_body rfl h
    have hdata : (Instr.write data).body.drop 8 = data := Instr.body_drop (.write data)
    simp [Instr.opcode, withLength, hlen, hword, hdata]
  | read cap =>
    have hlen : (Instr.read cap).body.length = 8 := Instr.body_length _
    have hcap : operandWord 0 (Instr.read cap).body = cap := operandWord_body rfl
    simp [Instr.opcode, withLength, hlen, hcap]
  | destroy => rfl
  | writePkt src dst seq msg =>
    have hlen : (Instr.writePkt src dst seq msg).body.length = 32 + msg.length := Instr.body_length _
    have hsrc : operandWord 0 (Instr.writePkt src dst seq msg).body = src := operandWord_body rfl
    have hdst : operandWord 1 (Instr.writePkt src dst seq msg).body = dst := operandWord_body rfl
    have hseq : operandWord 2 (Instr.writePkt src dst seq msg).body = seq := operandWord_body rfl
    have hword : (operandWord 3 (Instr.writePkt src dst seq msg).body).toNat = msg.length := lengthWord_body rfl h
    have hmsg : (Instr.writePkt src dst seq msg).body.drop 32 = msg := Instr.body_drop (.writePkt src dst seq msg)
    simp [Instr.opcode, withLength, hlen, hsrc, hdst, hseq, hword, hmsg]
  | status reg => rfl

/-- The fields of the command word in a request's unit are the request's own (R70). -/
theorem commandFields_encode (i : Instr) :
    cmdOp (commandWordOf (encode i)) = i.opcode ∧ cmdReg (commandWordOf (encode i)) = i.regField := by
  have hop := i.opcode.isLt
  have hreg := i.regField.isLt
  obtain ⟨hOp, -, hReg, -⟩ := command_fields (commandWord_lt i)
  rw [commandWordOf_encode, ← BitVec.toNat_inj, ← BitVec.toNat_inj, hOp, hReg, Instr.commandWord]
  omega

/-- The decoder takes the unit of any well-formed request apart into the request's own fields (R69 to R72). -/
theorem decode_encode {i : Instr} (h : i.wellFormed = true) : decode (encode i) = .ok i := by
  have hcmd := leDecode_take_encode i
  have hop := opcode_range i
  have hreg := regField_eq_zero_or i
  have hregLt := i.regField.isLt
  obtain ⟨hOp, hReg⟩ := commandFields_encode i
  calc decode (encode i)
      = decodeOperands (cmdOp (commandWordOf (encode i))) (cmdReg (commandWordOf (encode i))) ((encode i).drop 4) :=
        decode_eq_decodeOperands (four_le_encode_length i) (by omega) (by omega) (by omega)
    _ = decodeOperands i.opcode i.regField i.body := by rw [hOp, hReg, encode_drop, Instr.body]
    _ = .ok i := decodeOperands_body h

/-- Settles O2, by the decoder's two halves: the command word, then the operands and data. -/
theorem decodeOfEncodedRequest : Obligations.DecodeOfEncodedRequest := fun _ => decode_encode

/-! ### The request of a unit that decodes -/

theorem flatten_operandWords {body : List Byte} (n : Nat) (h : 8 * n ≤ body.length) :
    (((List.range n).map fun k => (operandWord k body).toNat).map (leEncode 8)).flatten = body.take (8 * n) := by
  induction n with
  | zero => rfl
  | succ n ih =>
    rw [List.range_succ, List.map_append, List.map_append, List.flatten_append, ih (by omega), Nat.mul_succ,
      List.take_add]
    simp [leEncode_operandWord (k := n) (body := body) (by omega)]

/-- A request whose operand words are the first of these bytes and whose data are the rest has these bytes after its
command word. -/
theorem Instr.body_eq {i : Instr} {body : List Byte} (n : Nat) (hn : 8 * n ≤ body.length)
    (hwords : i.operandWords = (List.range n).map fun k => (operandWord k body).toNat)
    (hdata : i.dataBytes = body.drop (8 * n)) : i.body = body := by
  rw [Instr.body, hwords, flatten_operandWords n hn, hdata, List.take_append_drop]

/-- Data whose length a 64-bit word holds fit the length word (R72). -/
theorem fits_of_toNat {data : List Byte} {w : Word} (h : data.length = w.toNat) : fitsLengthWord data = true :=
  decide_eq_true (h ▸ w.isLt)

/-- What operands that are accepted are made of: every byte and the whole of `REG` is the request's own (R71, R76). -/
theorem decodeOperands_ok {op : BitVec 4} {reg : Byte} {body : List Byte} {i : Instr}
    (hreg : op ≠ opStatus → reg = 0) (h : decodeOperands op reg body = .ok i) :
    i.wellFormed = true ∧ i.regField = reg ∧ i.body = body := by
  obtain rfl := decodeOperands_opcode h
  cases i with
  | init cap =>
    obtain ⟨hlen, hi⟩ := withLength_ok (h : withLength _ (.init _) = _)
    obtain rfl := Instr.init.inj hi
    have hlen : body.length = 8 := by simpa using hlen
    exact ⟨rfl, (hreg nofun).symm, Instr.body_eq 1 (by omega) rfl (List.drop_eq_nil_of_le hlen.le).symm⟩
  | write data =>
    obtain ⟨hlen, hi⟩ := withLength_ok (h : withLength _ (.write _) = _)
    obtain rfl := Instr.write.inj hi
    have hlen : 8 ≤ body.length ∧ body.length = 8 + (operandWord 0 body).toNat := by simpa using hlen
    have hdata : (body.drop 8).length = (operandWord 0 body).toNat := by rw [List.length_drop]; omega
    exact ⟨fits_of_toNat hdata, (hreg nofun).symm, Instr.body_eq 1 hlen.1 (congrArg (fun n => [n]) hdata) rfl⟩
  | read cap =>
    obtain ⟨hlen, hi⟩ := withLength_ok (h : withLength _ (.read _) = _)
    obtain rfl := Instr.read.inj hi
    have hlen : body.length = 8 := by simpa using hlen
    exact ⟨rfl, (hreg nofun).symm, Instr.body_eq 1 (by omega) rfl (List.drop_eq_nil_of_le hlen.le).symm⟩
  | destroy =>
    obtain ⟨hlen, -⟩ := withLength_ok (h : withLength _ .destroy = _)
    obtain rfl : body = [] := by simpa using hlen
    exact ⟨rfl, (hreg nofun).symm, rfl⟩
  | writePkt src dst seq msg =>
    obtain ⟨hlen, hi⟩ := withLength_ok (h : withLength _ (.writePkt _ _ _ _) = _)
    obtain ⟨rfl, rfl, rfl, rfl⟩ := Instr.writePkt.inj hi
    have hlen : 32 ≤ body.length ∧ body.length = 32 + (operandWord 3 body).toNat := by simpa using hlen
    have hmsg : (body.drop 32).length = (operandWord 3 body).toNat := by rw [List.length_drop]; omega
    exact ⟨fits_of_toNat hmsg, (hreg nofun).symm, Instr.body_eq 4 hlen.1 (congrArg (fun n => [_, _, _, n]) hmsg) rfl⟩
  | status reg =>
    obtain ⟨hlen, hi⟩ := withLength_ok (h : withLength _ (.status _) = _)
    obtain rfl := Instr.status.inj hi
    obtain rfl : body = [] := by simpa using hlen
    exact ⟨rfl, rfl, rfl⟩

/-- A unit that decodes is its request's: no byte of it is left over, and no bit of the command word. -/
theorem wellFormed_encode_of_decode {unit : List Byte} {i : Instr} (h : decode unit = .ok i) :
    i.wellFormed = true ∧ encode i = unit := by
  obtain ⟨hlen, hrsv0, hrsv1, hreg, hoperands⟩ := decode_ok h
  obtain ⟨hwf, hregField, hbody⟩ := decodeOperands_ok hreg hoperands
  have hopcode := decodeOperands_opcode hoperands
  obtain ⟨hOp, hRsv0, hReg, hRsv1⟩ := command_fields (leDecode_take_lt 4 unit)
  have hcmd : i.commandWord = leDecode (unit.take 4) := by
    rw [commandWordOf] at hrsv0 hrsv1 hregField hopcode
    rw [hrsv0] at hRsv0
    rw [hrsv1] at hRsv1
    rw [Instr.commandWord, hopcode, hregField, hOp, hReg]
    simp only [BitVec.ofNat_eq_ofNat, BitVec.toNat_ofNat, Nat.zero_mod] at hRsv0 hRsv1
    omega
  exact ⟨hwf, by rw [encode_eq, hcmd, leEncode_take hlen, hbody, List.take_append_drop]⟩

/-- Settles O3, by `wellFormed_encode_of_decode`. -/
theorem decodedUnitIsTheRequestsOwn : Obligations.DecodedUnitIsTheRequestsOwn := fun _ _ =>
  wellFormed_encode_of_decode

/-! ### R76's conditions 1 to 5 -/

/-- Operand word `k` of a unit, by the bytes of the unit itself (R69). -/
theorem operandWord_drop_toNat (k : Nat) (unit : List Byte) :
    (operandWord k (unit.drop 4)).toNat = leDecode ((unit.drop (4 + 8 * k)).take 8) := by
  rw [operandWord_toNat, List.drop_drop]

theorem lengthWord_encode {i : Instr} {k : Nat} {data : List Byte} (h : i.operandWords[k]? = some data.length)
    (hfits : fitsLengthWord data = true) : leDecode (((encode i).drop (4 + 8 * k)).take 8) = data.length := by
  rw [← operandWord_drop_toNat, encode_drop]
  exact lengthWord_body h hfits

/-- A well-formed request's unit has the length R71 gives it. -/
theorem rightLength_encode {i : Instr} (h : i.wellFormed = true) :
    Machine.rightLength i.opcode.toNat (encode i) := by
  cases i with
  | init cap | read cap | destroy | status reg =>
    simp [Machine.rightLength, Instr.opcode, opInit, opRead, opDestroy, opStatus]
  | write data =>
    have hlen : leDecode (((encode (.write data)).drop 4).take 8) = data.length := lengthWord_encode (k := 0) rfl h
    simp [Machine.rightLength, Instr.opcode, opWrite, hlen]
  | writePkt src dst seq msg =>
    have hlen : leDecode (((encode (.writePkt src dst seq msg)).drop 28).take 8) = msg.length :=
      lengthWord_encode (k := 3) rfl h
    simp [Machine.rightLength, Instr.opcode, opWritePkt, hlen]

/-- The opcodes of R71 are the numbers 1 to 6. -/
theorem opcode_cases {op : BitVec 4} (h : 1 ≤ op.toNat ∧ op.toNat ≤ 6) :
    op = opInit ∨ op = opWrite ∨ op = opRead ∨ op = opDestroy ∨ op = opWritePkt ∨ op = opStatus := by
  simp only [← BitVec.toNat_inj, opInit, opWrite, opRead, opDestroy, opWritePkt, opStatus, BitVec.toNat_ofNat]
  omega

theorem exists_withLength {ok : Bool} {i : Instr} (h : ok = true) : ∃ j, withLength ok i = .ok j :=
  ⟨i, if_pos h⟩

/-- The operands of an opcode of R71 are accepted where the unit has the length R71 gives it. -/
theorem exists_decodeOperands {op : BitVec 4} {unit : List Byte} (reg : Byte) (hop : 1 ≤ op.toNat ∧ op.toNat ≤ 6)
    (hlen : Machine.rightLength op.toNat unit) : ∃ i, decodeOperands op reg (unit.drop 4) = .ok i := by
  obtain ⟨hone, hwrite, hnone, hpkt⟩ := hlen
  have hword := operandWord_drop_toNat 0 unit
  have hpktWord := operandWord_drop_toNat 3 unit
  rcases opcode_cases hop with rfl | rfl | rfl | rfl | rfl | rfl
  · exact exists_withLength (by simp [hone (.inl rfl)])
  · obtain ⟨h12, h⟩ := hwrite rfl
    exact exists_withLength (by simp [hword]; omega)
  · exact exists_withLength (by simp [hone (.inr rfl)])
  · exact exists_withLength (by simp [hnone (.inl rfl)])
  · obtain ⟨h36, h⟩ := hpkt rfl
    exact exists_withLength (by simp [hpktWord]; omega)
  · exact exists_withLength (by simp [hnone (.inr rfl)])

/-- The opcode of a unit that decodes is its `OP` field (R70). -/
theorem opcode_of_decode {unit : List Byte} {i : Instr} (h : decode unit = .ok i) :
    i.opcode.toNat = leDecode (unit.take 4) % 2 ^ 4 := by
  have hlt := i.opcode.isLt
  obtain ⟨-, rfl⟩ := wellFormed_encode_of_decode h
  rw [leDecode_take_encode]
  omega

namespace Machine

/-- A well-formed request's unit meets none of the conditions 1 to 5 at a port where its opcode is legal. -/
theorem not_badCommand_encode {i : Instr} {p : Port} (h : i.wellFormed = true) (hp : legalPort i.opcode.toNat p) :
    ¬ badCommand (encode i) p := by
  have hop := opcode_range i
  have hreg := regField_eq_zero_or i
  have hregLt := i.regField.isLt
  have hlen := four_le_encode_length i
  have hcmd := leDecode_take_encode i
  have hopcode : leDecode ((encode i).take 4) % 2 ^ 4 = i.opcode.toNat := by omega
  simp only [badCommand, hopcode, hp, rightLength_encode h, not_true, or_false]
  omega

/-- A unit that meets none of the conditions 1 to 5 is the unit of a request that may be issued at that port. -/
theorem decode_of_not_badCommand {p : Port} {unit : List Byte} (h : ¬ badCommand unit p) :
    ∃ i, decode unit = .ok i ∧ legalPort i.opcode.toNat p := by
  simp only [badCommand, not_or, not_not] at h
  obtain ⟨hlen, hop, hrsv, hreg, hport, hright⟩ := h
  obtain ⟨hOp, -⟩ := command_fields (leDecode_take_lt 4 unit)
  rw [← hOp] at hright
  obtain ⟨i, hi⟩ := exists_decodeOperands (cmdReg (commandWordOf unit)) (by omega) hright
  have hd : decode unit = .ok i :=
    (decode_eq_decodeOperands (by omega) (by omega) (by omega) (by omega)).trans hi
  exact ⟨i, hd, opcode_of_decode hd ▸ hport⟩

/-! ### What the issuing port gets -/

section PortClasses

variable (p : Port)

theorem legalPort_init : legalPort opInit.toNat p ↔ isControl p = true := by
  cases p <;> simp [legalPort, isControl, opInit]

theorem legalPort_destroy : legalPort opDestroy.toNat p ↔ isControl p = true := by
  cases p <;> simp [legalPort, isControl, opDestroy]

theorem legalPort_write : legalPort opWrite.toNat p ↔ isProducer p = true := by
  cases p <;> simp [legalPort, isProducer, opWrite]

theorem legalPort_writePkt : legalPort opWritePkt.toNat p ↔ isProducer p = true := by
  cases p <;> simp [legalPort, isProducer, opWritePkt]

theorem legalPort_read : legalPort opRead.toNat p ↔ isConsumer p = true := by
  cases p <;> simp [legalPort, isConsumer, opRead]

theorem legalPort_status : legalPort opStatus.toNat p := by
  cases p <;> simp [legalPort, opStatus]

end PortClasses

/-- A request at a port of the wrong class is refused whatever the state (R76, R120). -/
theorem exec_of_not_legalPort {i : Instr} {s : State} (h : ¬ legalPort i.opcode.toNat s.port) :
    exec i s = raise s .badCmd i.opcode := by
  cases i with
  | init cap => exact if_pos (Bool.eq_false_iff.2 (mt (legalPort_init _).2 h))
  | write data => exact if_pos (Bool.eq_false_iff.2 (mt (legalPort_write _).2 h))
  | read cap => exact if_pos (Bool.eq_false_iff.2 (mt (legalPort_read _).2 h))
  | destroy => exact if_pos (Bool.eq_false_iff.2 (mt (legalPort_destroy _).2 h))
  | writePkt src dst seq msg => exact if_pos (Bool.eq_false_iff.2 (mt (legalPort_writePkt _).2 h))
  | status reg => exact absurd (legalPort_status _) h

/-- The outcome is a next state in which the issuing port exists and holds no answer `BADCMD`. -/
def NotAnsweredBadCmd (s : State) (out : Result) : Prop :=
  ∃ t sl, out = .next t ∧ slotOf t s.port = some sl ∧ ∀ r, sl.rsp = some r → r.status ≠ .badCmd

section NotAnsweredBadCmd

variable {s : State} {old : Slot} (hs : slotOf s s.port = some old)
include hs

/-- An answer from a state `u` that has the same slots. -/
theorem notAnsweredBadCmd_respond {u : State} {r : Response} (hu : slotOf u s.port = slotOf s s.port)
    (hr : r.status ≠ .badCmd) : NotAnsweredBadCmd s (.next (respond u s.port r)) :=
  ⟨_, _, rfl, slotOf_respond_self r (hu.trans hs), fun _ h => Option.some.inj h ▸ hr⟩

theorem notAnsweredBadCmd_raise {st : Status} (ope : BitVec 4) (hst : st ≠ .badCmd) :
    NotAnsweredBadCmd s (raise s st ope) :=
  notAnsweredBadCmd_respond hs rfl hst

theorem notAnsweredBadCmd_pend (r : Pending) : NotAnsweredBadCmd s (pend s r) :=
  ⟨_, _, rfl, slotOf_withSlot_self _ hs, nofun⟩

/-- At a port where its opcode is legal, no check of a request answers `BADCMD` (R114). -/
theorem exec_of_legalPort {i : Instr} (h : legalPort i.opcode.toNat s.port) : NotAnsweredBadCmd s (exec i s) := by
  cases i with
  | init cap =>
    have hport := (legalPort_init _).1 h
    simp only [exec, execInit, hport, Bool.true_eq_false, if_false]
    split_ifs
    · exact notAnsweredBadCmd_raise hs _ nofun
    · exact notAnsweredBadCmd_raise hs _ nofun
    · exact notAnsweredBadCmd_respond hs (slotOf_congr rfl rfl rfl _) nofun
  | write data =>
    have hport := (legalPort_write _).1 h
    simp only [exec, execWrite, hport, Bool.true_eq_false, if_false]
    split_ifs
    · exact notAnsweredBadCmd_raise hs _ nofun
    · exact notAnsweredBadCmd_raise hs _ nofun
    · exact notAnsweredBadCmd_pend hs _
  | read cap =>
    have hport := (legalPort_read _).1 h
    simp only [exec, execRead, hport, Bool.true_eq_false, if_false]
    split_ifs
    · exact notAnsweredBadCmd_raise hs _ nofun
    · exact notAnsweredBadCmd_pend hs _
  | destroy =>
    have hport := (legalPort_destroy _).1 h
    simp only [exec, execDestroy, hport, Bool.true_eq_false, if_false]
    split_ifs
    · exact notAnsweredBadCmd_raise hs _ nofun
    · exact notAnsweredBadCmd_raise hs _ nofun
    · exact notAnsweredBadCmd_respond hs (slotOf_congr rfl rfl rfl _) nofun
  | writePkt src dst seq msg =>
    have hport := (legalPort_writePkt _).1 h
    simp only [exec, execWritePkt, hport, Bool.true_eq_false, if_false]
    split_ifs
    · exact notAnsweredBadCmd_raise hs _ nofun
    · exact notAnsweredBadCmd_raise hs _ nofun
    · exact notAnsweredBadCmd_raise hs _ nofun
    · exact notAnsweredBadCmd_pend hs _
  | status reg =>
    simp only [exec, execStatus]
    cases regValue s reg.toNat with
    | none => exact notAnsweredBadCmd_raise hs _ nofun
    | some v => exact notAnsweredBadCmd_respond hs rfl nofun

end NotAnsweredBadCmd

/-- The received `OP` bits are the low four bits of the command word (R70, R111). -/
theorem receivedOp_toNat (s : State) {unit : List Byte} (h : 4 ≤ unit.length) :
    (receivedOp s unit).toNat = leDecode (unit.take 4) % 2 ^ 4 := by
  cases unit with
  | nil => simp at h
  | cons b rest =>
    simp only [receivedOp, List.take_succ_cons, leDecode, BitVec.extractLsb'_toNat, Nat.shiftRight_zero]
    omega

/-- The `BADCMD` of a unit that is not decoded, and of a request at a wrong port: the port's answer, and nothing else but
the model's draw counter. -/
theorem badCmd_frame {s : State} {p : Port} (hf : portFree s p = true) (draws : Nat) (ope : BitVec 4) :
    answered p (bare .badCmd ope) s (respond { s with port := p, draws := draws } p (bare .badCmd ope)) ∧
      sameBlock s (respond { s with port := p, draws := draws } p (bare .badCmd ope)) :=
  ⟨answered_respond_of _ rfl rfl rfl ((portFree_iff s p).1 hf),
    sameBlock_respond { s with port := p, draws := draws } p _⟩

theorem runEvent_issue {s : State} {p : Port} (hf : portFree s p = true) (unit : List Byte) :
    runEvent (.issue p unit) s = issue p unit s :=
  runEvent_enabled hf

/-- The `ISSUE` of a unit that does not decode answers `BADCMD` (R76). -/
theorem issue_of_rejected {p : Port} {unit : List Byte} {e : DecodeError} (s : State) (h : decode unit = .error e) :
    issue p unit s = answerRejected unit { s with port := p } := by
  simp [issue, h]

/-- A unit that meets one of the conditions 1 to 5 is not decoded, or decodes to a request at a wrong port: `BADCMD`
either way, with the received `OP` bits. -/
theorem issue_of_badCommand {p : Port} {unit : List Byte} (s : State) (hlen : 4 ≤ unit.length)
    (hbad : badCommand unit p) : ∃ draws ope, ope.toNat = leDecode (unit.take 4) % 2 ^ 4 ∧
      issue p unit s = .next (respond { s with port := p, draws := draws } p (bare .badCmd ope)) := by
  cases hd : decode unit with
  | error e => exact ⟨s.draws + 1, _, receivedOp_toNat { s with port := p } hlen, issue_of_rejected s hd⟩
  | ok i =>
    have hport : ¬ legalPort i.opcode.toNat p := fun hp => by
      obtain ⟨hwf, rfl⟩ := wellFormed_encode_of_decode hd
      exact not_badCommand_encode hwf hp hbad
    refine ⟨s.draws, i.opcode, opcode_of_decode hd, ?_⟩
    rw [issue_of_decode s hd, exec_of_not_legalPort hport, raise]

/-- Settles O5: `issue_of_badCommand` where a condition holds, else `decode_of_not_badCommand` and what a request does at
a port where it is legal. -/
theorem decoderIsTotalOnCommandWords : Obligations.DecoderIsTotalOnCommandWords := by
  intro s p unit hf hlen
  rw [runEvent_issue hf]
  refine ⟨fun hbad => ?_, fun hgood => ?_⟩
  · obtain ⟨draws, ope, hope, hissue⟩ := issue_of_badCommand s hlen hbad
    obtain ⟨hans, hblock⟩ := badCmd_frame hf draws ope
    exact ⟨_, ope, hissue, hans, hope, hblock, by simp, by simp⟩
  · obtain ⟨i, hd, hport⟩ := decode_of_not_badCommand hgood
    have hs : slotOf { s with port := p } p = some {} := (slotOf_withPort s p p).trans ((portFree_iff s p).1 hf)
    obtain ⟨t, sl, hexec, hsl, hst⟩ := exec_of_legalPort (s := { s with port := p }) hs hport
    exact ⟨i, t, sl, hd, opcode_of_decode hd, (issue_of_decode s hd).trans hexec, hsl, hst⟩

/-! ### Response units (R69, R73 to R75) -/

theorem Status.code_le (st : Status) : st.code ≤ 6 := by
  cases st <;> decide

/-- The fields of the response word (R73). -/
theorem Response.word_fields (r : Response) :
    r.word % 2 ^ 8 = r.status.code ∧ r.word / 2 ^ 8 % 2 ^ 4 = r.ope.toNat ∧
      r.word / 2 ^ 12 % 2 = r.pstat.short.toNat ∧ r.word / 2 ^ 13 % 2 = r.pstat.srcOor.toNat ∧
      r.word / 2 ^ 14 % 2 = r.pstat.dstOor.toNat ∧ r.word / 2 ^ 15 = 0 := by
  have hcode := r.status.code_le
  have hope := r.ope.isLt
  have hshort := r.pstat.short.toNat_lt
  have hsrc := r.pstat.srcOor.toNat_lt
  have hdst := r.pstat.dstOor.toNat_lt
  unfold Response.word
  omega

/-- The first four bytes of a response unit are the response word (R69, R73). -/
theorem Response.leDecode_take_unit (r : Response) : leDecode (r.unit.take 4) = r.word := by
  obtain ⟨-, -, -, -, -, hrest⟩ := r.word_fields
  rw [Response.unit, List.append_assoc, List.take_left' (by simp), leDecode_leEncode_of_lt (by omega)]

/-- What follows the response word (R69). -/
theorem Response.unit_drop (r : Response) :
    r.unit.drop 4 = (r.resultWords.map fun w => leEncode 8 w.toNat).flatten ++ r.dataBytes := by
  rw [Response.unit, List.append_assoc, List.drop_left' (by simp)]

/-- Without a parse flag the flag bits 14:12 of the response word are 0 (R73, R75). -/
theorem Response.word_flags_eq_zero {r : Response} (h : r.pstat = {}) : r.word / 2 ^ 12 % 2 ^ 3 = 0 := by
  obtain ⟨-, -, hshort, hsrc, hdst, -⟩ := r.word_fields
  simp only [h, Bool.toNat_false] at hshort hsrc hdst
  omega

/-- A `READ` answered `OK` carries five result words and the data (R73). -/
theorem Response.unit_drop_readOk {r : Response} (hope : r.ope = opRead) (hst : r.status = .ok) :
    r.unit.drop 4 = leEncode 8 r.len.toNat ++ leEncode 8 r.src.toNat ++ leEncode 8 r.dst.toNat ++
      leEncode 8 r.seq.toNat ++ leEncode 8 r.mlen.toNat ++ r.data := by
  simp [Response.unit_drop, Response.resultWords, Response.dataBytes, hope, hst]

/-- A `READ` answered `UNDERSIZED` carries the head's length (R73, R98). -/
theorem Response.unit_drop_undersized {r : Response} (hope : r.ope = opRead) (hst : r.status = .undersized) :
    r.unit.drop 4 = leEncode 8 r.len.toNat := by
  simp [Response.unit_drop, Response.resultWords, Response.dataBytes, hope, hst]

/-- A `STATUS` answered `OK` carries the register's value (R73, R84). -/
theorem Response.unit_drop_statusOk {r : Response} (hope : r.ope = opStatus) (hst : r.status = .ok) :
    r.unit.drop 4 = leEncode 8 r.value.toNat := by
  simp [Response.unit_drop, Response.resultWords, Response.dataBytes, hope, hst, opRead, opStatus]

/-- Every other response is its response word (R73). -/
theorem Response.unit_length_of_bare {r : Response}
    (hread : ¬ (r.ope = opRead ∧ (r.status = .ok ∨ r.status = .undersized)))
    (hstatus : ¬ (r.ope = opStatus ∧ r.status = .ok)) : r.unit.length = 4 := by
  have hok : ¬ (r.ope = opRead ∧ r.status = .ok) := fun h => hread ⟨h.1, .inl h.2⟩
  have hundersized : ¬ (r.ope = opRead ∧ r.status = .undersized) := fun h => hread ⟨h.1, .inr h.2⟩
  simp [Response.unit, Response.resultWords, Response.dataBytes, hok, hundersized, hstatus]

/-- Settles O7: the fields of the response word, one lemma for each row of R73, and `ResponseOk`, by which a flag is set
in a `READ OK` only. -/
theorem responseUnitLayoutOfR73 : Obligations.ResponseUnitLayoutOfR73 := by
  refine ⟨⟨rfl, rfl, rfl, rfl, rfl, rfl, rfl⟩, fun r => ?_, fun s p sl r hb hs hr hflags => ?_⟩
  · rw [r.leDecode_take_unit]
    obtain ⟨hcode, hope, hshort, hsrc, hdst, hrest⟩ := r.word_fields
    exact ⟨hcode, hope, hshort, hsrc, hdst, hrest, Response.unit_drop_readOk, Response.unit_drop_undersized,
      Response.unit_drop_statusOk, fun ⟨hread, hstatus⟩ => Response.unit_length_of_bare hread hstatus⟩
  · by_contra hother
    obtain ⟨hpstat, -⟩ := (hb.slots.responses p sl r hs hr).parsed hother
    rw [r.leDecode_take_unit] at hflags
    exact hflags (Response.word_flags_eq_zero hpstat)

end Machine
end Sys2Proof

/-! ## Lifecycle and status: `INIT`, `DESTROY` and `STATUS` in their `ISSUE` step (R80 to R84) -/

namespace Sys2Proof

/-! ### The command word, byte by byte (R69, R70) -/

theorem leEncode_commandWord (i : Instr) :
    leEncode 4 i.commandWord = [BitVec.ofNat 8 i.opcode.toNat, i.regField, 0, 0] := by
  have hop := i.opcode.isLt
  have hreg := i.regField.isLt
  have hlow : BitVec.ofNat 8 i.commandWord = BitVec.ofNat 8 i.opcode.toNat := by
    apply BitVec.eq_of_toNat_eq
    simp only [Instr.commandWord, BitVec.toNat_ofNat]
    omega
  have hhigh : i.commandWord / 256 = i.regField.toNat := by
    unfold Instr.commandWord
    omega
  have hrest : i.regField.toNat / 256 = 0 := by omega
  simp [leEncode, hlow, hhigh, hrest]

theorem encode_init (cap : Word) : encode (.init cap) = [0x01, 0, 0, 0] ++ leEncode 8 cap.toNat := by
  simp [encode, leEncode_commandWord, Instr.opcode, opInit, Instr.regField, Instr.operandWords, Instr.dataBytes]

theorem encode_destroy : encode .destroy = [0x04, 0, 0, 0] := by decide

theorem encode_status (reg : Byte) : encode (.status reg) = [0x06, reg, 0, 0] := by
  simp [encode, leEncode_commandWord, Instr.opcode, opStatus, Instr.regField, Instr.operandWords, Instr.dataBytes]

namespace Machine

/-! ### A request that raises a status (R17) -/

theorem refusedWith_of_raise {i : Instr} {s : State} {st : Status} (hf : portFree s s.port = true)
    (h : exec i s = raise s st i.opcode) : refusedWith st i s := by
  rw [refusedWith, h]
  exact raise_spec st i.opcode ((portFree_iff s s.port).1 hf)

/-! ### `INIT` (R80, R81) -/

section Init

variable {s : State} {cap : Word} (hk : s.port = .k)
include hk

theorem exec_init_of_ready (hm : s.mode = .ready) : exec (.init cap) s = raise s .badState opInit := by
  simp [exec, execInit, isControl, hk, hm]

theorem exec_init_of_badCap (hm : s.mode = .uninit) (hcap : cap.toNat < 9 ∨ cap.toNat > s.params.cMax) :
    exec (.init cap) s = raise s .badArg opInit := by
  simp [exec, execInit, isControl, Config.hdrBytes, hk, hm, hcap]

theorem exec_init_completes (hm : s.mode = .uninit) (hlow : 9 ≤ cap.toNat) (hhigh : cap.toNat ≤ s.params.cMax) :
    exec (.init cap) s = .next (respond
      { s with mode := .ready, cap := cap.toNat, rp := 0, wp := 0, rpVis := 0, wpVis := 0 } .k (bare .ok opInit)) := by
  have hcap : ¬ (cap.toNat < 9 ∨ cap.toNat > s.params.cMax) := by omega
  simp [exec, execInit, isControl, Config.hdrBytes, hk, hm, hcap]

end Init

/-- Settles O14: one lemma for each answer of `INIT`; in the ring it leaves both cursors are 0, so the distance is 0. -/
theorem initEstablishesAnEmptyRing : Obligations.InitEstablishesAnEmptyRing := by
  intro cap s hf
  refine ⟨encode_init cap, fun hoff => ?_, fun hk hm => ?_, fun hk hm hcap => ?_, fun hk hm hlow hhigh => ?_⟩
  · exact refusedWith_of_raise hf (exec_of_not_legalPort fun h => hoff (port_of_isControl ((legalPort_init _).1 h)))
  · exact refusedWith_of_raise hf (exec_init_of_ready hk hm)
  · exact refusedWith_of_raise hf (exec_init_of_badCap hk hm hcap)
  · refine ⟨_, exec_init_completes hk hm hlow hhigh, answered_respond_of _ rfl rfl rfl rfl, ?_⟩
    simp [readableSpace, writableSpace, sameEnvironment]

/-! ### `DESTROY` (R83) -/

section Destroy

variable {s : State} (hk : s.port = .k)
include hk

theorem exec_destroy_of_uninit (hm : s.mode = .uninit) : exec .destroy s = raise s .badState opDestroy := by
  simp [exec, execDestroy, isControl, hk, hm]

theorem exec_destroy_of_somePending (hm : s.mode = .ready) (hp : somePending s) :
    exec .destroy s = raise s .badState opDestroy := by
  simp [exec, execDestroy, isControl, hk, hm, (anyPending_iff s).2 hp]

theorem exec_destroy_completes (hm : s.mode = .ready) (hp : ¬ somePending s) :
    exec .destroy s = .next (respond
      { s with mode := .uninit, cap := 0, rp := 0, wp := 0, rpVis := 0, wpVis := 0 } .k (bare .ok opDestroy)) := by
  have hidle : anyPending s = false := Bool.eq_false_iff.2 (mt (anyPending_iff s).1 hp)
  simp [exec, execDestroy, isControl, hk, hm, hidle]

end Destroy

/-- Settles O16: one lemma for each answer of `DESTROY`, which writes neither `Ring` nor another port's slots. -/
theorem destroyEndsTheBuffer : Obligations.DestroyEndsTheBuffer := by
  intro s hf
  refine ⟨encode_destroy, fun hoff => ?_, fun hk hm => ?_, fun hk hm hp => ?_, fun hk hm hp => ?_⟩
  · exact refusedWith_of_raise hf (exec_of_not_legalPort fun h => hoff (port_of_isControl ((legalPort_destroy _).1 h)))
  · exact refusedWith_of_raise hf (exec_destroy_of_uninit hk hm)
  · exact refusedWith_of_raise hf (exec_destroy_of_somePending hk hm hp)
  · refine ⟨_, exec_destroy_completes hk hm hp, answered_respond_of _ rfl rfl rfl rfl, ?_⟩
    simp [ringByte, sameEnvironment]

/-! ### `Ring` over a lifecycle request (R82, R83) -/

theorem FillsOwnSlot.ringByte_eq {s : State} {out : Result} (h : FillsOwnSlot s out) :
    ∃ t, out = .next t ∧ ∀ x, ringByte t x = ringByte s x := by
  obtain ⟨sl, rfl, -⟩ := h
  exact ⟨_, rfl, ringByte_withSlot s s.port sl⟩

/-- Settles O15: what only fills a slot writes no byte of `Ring`, and neither do an accepted `INIT` and `DESTROY`. -/
theorem lifecycleKeepsRingBytes : Obligations.LifecycleKeepsRingBytes := by
  rintro i s (⟨cap, rfl⟩ | rfl)
  · obtain hfills | ⟨-, -, -, he⟩ := execInit_cases cap s
    · exact hfills.ringByte_eq
    · exact ⟨_, he, fun x => ringByte_respond _ _ _ x⟩
  · obtain hfills | ⟨-, -, he⟩ := execDestroy_cases s
    · exact hfills.ringByte_eq
    · exact ⟨_, he, fun x => ringByte_respond _ _ _ x⟩

/-! ### `STATUS` (R42, R84) -/

/-- R42's columns for `READY` and `UNINIT` as one list, by `mode`. -/
theorem registerTable_eq (s : State) : registerTable s =
    [s.mode.code, whileReady s s.cap, whileReady s (readableSpace s), whileReady s (writableSpace s), whileReady s s.rp,
      whileReady s s.wp, 8, 8, s.params.portMin, s.params.portMax, s.params.cMax,
      whileReady s (pendingCount s.portsP), whileReady s (pendingCount s.portsQ), s.params.nW, s.params.nR] := by
  cases hm : s.mode <;> simp only [registerTable, whileReady, hm] <;> rfl

theorem registerTable_length (s : State) : (registerTable s).length = 15 := by
  rw [registerTable_eq]
  rfl

/-- The model's registers are R42's table, the reserved indices included. -/
theorem regValue_eq_registerTable (s : State) (reg : Nat) : regValue s reg = (registerTable s)[reg]? := by
  rw [registerTable_eq]
  match reg with
  | 0 | 1 | 2 | 3 | 4 | 5 | 6 | 7 | 8 | 9 | 10 | 11 | 12 | 13 | 14 => rfl
  | _ + 15 => rfl

theorem exec_status_of_none {s : State} {reg : Byte} (h : (registerTable s)[reg.toNat]? = none) :
    exec (.status reg) s = raise s .badArg opStatus := by
  simp only [exec, execStatus, regValue_eq_registerTable, h]

theorem exec_status_of_some {s : State} {reg : Byte} {n : Nat} (h : (registerTable s)[reg.toNat]? = some n) :
    exec (.status reg) s = .next (respond s s.port { status := .ok, ope := opStatus, value := word64 n }) := by
  simp only [exec, execStatus, regValue_eq_registerTable, h]

/-- Settles O17: the table has an entry for exactly the indices 0x00 to 0x0E, and the answer carries it. -/
theorem statusAnswersTheRegister : Obligations.StatusAnswersTheRegister := by
  intro reg s hf
  refine ⟨encode_status reg, fun hreg => ?_, fun hreg => ?_⟩
  · have hnone : (registerTable s)[reg.toNat]? = none := List.getElem?_eq_none (by rw [registerTable_length]; omega)
    exact refusedWith_of_raise hf (exec_status_of_none hnone)
  · have hlt : reg.toNat < (registerTable s).length := by rw [registerTable_length]; omega
    have hsome := List.getElem?_eq_getElem hlt
    refine ⟨_, _, exec_status_of_some hsome, answered_respond _ ((portFree_iff s s.port).1 hf), sameBlock_respond ..,
      sameEnvironment_respond .., fun n hn hfits => ?_⟩
    cases hsome.symm.trans hn
    exact word64_toNat hfits

end Machine
end Sys2Proof

/-! ## Write: `WRITE` and `WRITE_PKT` in their `ISSUE` step, the write arbiter, and data requests to their end (R85 to R93) -/

namespace Sys2Proof

theorem encode_write (data : List Byte) :
    encode (.write data) = [0x02, 0, 0, 0] ++ leEncode 8 data.length ++ data := by
  simp [encode, leEncode_commandWord, Instr.opcode, opWrite, Instr.regField, Instr.operandWords, Instr.dataBytes]

theorem encode_writePkt (src dst seq : Word) (msg : List Byte) :
    encode (.writePkt src dst seq msg) =
      [0x05, 0, 0, 0] ++ leEncode 8 src.toNat ++ leEncode 8 dst.toNat ++ leEncode 8 seq.toNat ++
        leEncode 8 msg.length ++ msg := by
  simp [encode, leEncode_commandWord, Instr.opcode, opWritePkt, Instr.regField, Instr.operandWords, Instr.dataBytes]

namespace Machine

/-! ### Requests that become pending (R85, R86, R95) -/

theorem pendsAs_of_pend {i : Instr} {s : State} {r : Pending} (hf : portFree s s.port = true)
    (h : exec i s = pend s r) : pendsAs r i s := by
  rw [pendsAs, h]
  exact pend_spec r ((portFree_iff s s.port).1 hf)

theorem not_isProducer {p : Port} (h : ∀ n, p ≠ .p n) : ¬ isProducer p = true := by
  cases p with
  | p n => exact absurd rfl (h n)
  | k | q _ => nofun

section Write

variable {s : State} {n : Nat} {data : List Byte} (hport : s.port = .p n)
include hport

theorem exec_write_of_uninit (hm : s.mode = .uninit) : exec (.write data) s = raise s .badState opWrite := by
  simp [exec, execWrite, isProducer, hport, hm]

theorem exec_write_of_long (hm : s.mode = .ready) (hlen : data.length > maxPayload) :
    exec (.write data) s = raise s .badArg opWrite := by
  simp [exec, execWrite, isProducer, hport, hm, hlen]

theorem exec_write_pends (hm : s.mode = .ready) (hlen : data.length ≤ maxPayload) :
    exec (.write data) s = pend s (.write opWrite data) := by
  simp [exec, execWrite, isProducer, hport, hm, hlen]

end Write

/-- Settles O18: one lemma for each answer of `WRITE`; off the producer ports its opcode is not legal. -/
theorem writeBecomesPending : Obligations.WriteBecomesPending := by
  intro data s hf
  refine ⟨encode_write data, fun hoff => ?_, fun n hport => ⟨fun hm => ?_, fun hm hlen => ?_, fun hm hlen => ?_⟩⟩
  · exact refusedWith_of_raise hf (exec_of_not_legalPort fun h => not_isProducer hoff ((legalPort_write _).1 h))
  · exact refusedWith_of_raise hf (exec_write_of_uninit hport hm)
  · exact refusedWith_of_raise hf (exec_write_of_long hport hm hlen)
  · exact pendsAs_of_pend hf (exec_write_pends hport hm hlen)

section WritePkt

variable {s : State} {n : Nat} {src dst seq : Word} {msg : List Byte} (hport : s.port = .p n)
include hport

theorem exec_writePkt_of_uninit (hm : s.mode = .uninit) :
    exec (.writePkt src dst seq msg) s = raise s .badState opWritePkt := by
  simp [exec, execWritePkt, isProducer, hport, hm]

/-- A 64-bit operand always fits its header field, so in `READY` the length alone decides (R86). -/
theorem exec_writePkt_of_ready (hm : s.mode = .ready) : exec (.writePkt src dst seq msg) s =
    if Config.appBytes + msg.length > maxPayload then raise s .badArg opWritePkt
    else pend s (.write opWritePkt (packetPayload src dst seq msg)) := by
  have fits (w : Word) : w.toNat ≤ maxField := Nat.le_sub_one_of_lt w.isLt
  simp [exec, execWritePkt, isProducer, hport, hm, fits]

end WritePkt

/-- The bound on `MLEN` leaves room for the 24 bytes of the application header (R86). -/
theorem packet_gt_maxPayload_iff (n : Nat) : Config.appBytes + n > maxPayload ↔ n > 2 ^ 64 - 25 := by
  rw [maxPayload_eq, Config.appBytes, Config.fieldBytes]
  omega

/-- Settles O19: as for `WRITE`, with the bound on `MLEN` in place of that on the payload. -/
theorem writePktBecomesPending : Obligations.WritePktBecomesPending := by
  intro src dst seq msg s hf
  have hbound := packet_gt_maxPayload_iff msg.length
  refine ⟨encode_writePkt .., fun hoff => ?_, fun n hport => ⟨fun hm => ?_, fun hm hlen => ?_, fun hm hlen => ?_⟩⟩
  · exact refusedWith_of_raise hf (exec_of_not_legalPort fun h => not_isProducer hoff ((legalPort_writePkt _).1 h))
  · exact refusedWith_of_raise hf (exec_writePkt_of_uninit hport hm)
  · exact refusedWith_of_raise hf ((exec_writePkt_of_ready hport hm).trans (if_pos (hbound.2 hlen)))
  · exact pendsAs_of_pend hf ((exec_writePkt_of_ready hport hm).trans (if_neg (mt hbound.1 (by omega))))

/-! ### Eligibility (R87, R93) -/

section PendingWrite

variable {s : State} {n : Nat} {op : BitVec 4} {payload : List Byte} (hp : pendingWrite s n = some (op, payload))
include hp

theorem enabled_serveW_iff : enabled (.serveW n) s = true ↔
    s.mode = .ready ∧ 8 + payload.length ≤ s.cap - 1 - ringDist s.cap s.rpVis s.wp := by
  rw [enabled_serveW_of hp, eligibleWrite_iff]

theorem enabled_timeoutW_iff : enabled (.timeoutW n) s = true ↔ enabled (.serveW n) s = false := by
  rw [enabled_timeoutW_of hp, enabled_serveW_of hp, Bool.not_eq_true']

/-- `TIMEOUT_W` where it is enabled (R89). -/
theorem runEvent_timeoutW (hen : enabled (.timeoutW n) s = true) :
    runEvent (.timeoutW n) s = .next (respond s (.p n) (bare .full op)) :=
  (runEvent_enabled hen).trans (timeoutW_spec hp)

end PendingWrite

/-- Settles O23: `eligibleWrite` in R87's formula, and its negation. -/
theorem writeIsEligibleExactlyWhenItFits : Obligations.WriteIsEligibleExactlyWhenItFits := by
  intro s n sl op payload hs hreq
  have hp := pendingWrite_of_slot hs hreq
  exact ⟨enabled_serveW_iff hp, enabled_timeoutW_iff hp⟩

theorem readableSpace_respond (s : State) (p : Port) (r : Response) :
    readableSpace (respond s p r) = readableSpace s := by
  simp [readableSpace]

/-- Settles O25: `respond` changes the port's slots only. -/
theorem timeoutWriteAnswersFull : Obligations.TimeoutWriteAnswersFull := by
  intro s n sl op payload hs hreq
  have hp := pendingWrite_of_slot hs hreq
  refine ⟨?_, fun hen => ⟨_, runEvent_timeoutW hp hen, answered_respond _ hs, sameBlock_respond ..,
    sameEnvironment_respond .., readableSpace_respond ..⟩⟩
  rw [enabled_timeoutW_iff hp, ← enabled_serveW_iff hp, Bool.not_eq_true]

/-- Settles O26: no write space exceeds `C - 1`. -/
theorem oversizedWriteIsOnlyAnsweredFull : Obligations.OversizedWriteIsOnlyAnsweredFull := by
  intro s n sl op payload hs hreq hlong
  have hp := pendingWrite_of_slot hs hreq
  have hserve : enabled (.serveW n) s = false := Bool.eq_false_iff.2 fun hen => by
    obtain ⟨-, hfit⟩ := (enabled_serveW_iff hp).1 hen
    omega
  exact ⟨hserve, _, runEvent_timeoutW hp ((enabled_timeoutW_iff hp).2 hserve), answered_respond _ hs,
    sameBlock_respond ..⟩

/-! ### The write commit (R88) -/

/-- The state with a payload's frame stored from `WP` on and `WP` past it: a write commit but for its answer (R88). -/
def commitWrite (s : State) (payload : List Byte) : State :=
  { s with ring := commitBytes s payload, wp := (s.wp + 8 + payload.length) % s.cap }

theorem slotOf_commitWrite (s : State) (payload : List Byte) (q : Port) :
    slotOf (commitWrite s payload) q = slotOf s q :=
  slotOf_congr rfl rfl rfl q

theorem answered_commitWrite {s : State} {n : Nat} {old : Slot} (payload : List Byte) (r : Response)
    (hs : slotOf s (.p n) = some old) : answered (.p n) r s (respond (commitWrite s payload) (.p n) r) :=
  answered_respond_of r rfl rfl rfl hs

/-- `SERVE_W` where it is enabled and the storage exists. -/
theorem runEvent_serveW {s : State} {n : Nat} {op : BitVec 4} {payload : List Byte}
    (hp : pendingWrite s n = some (op, payload)) (hen : enabled (.serveW n) s = true) (hcap : s.cap ≤ s.params.cMax) :
    runEvent (.serveW n) s = .next (respond (commitWrite s payload) (.p n) (bare .ok op)) := by
  obtain ⟨-, hfit⟩ := (enabled_serveW_iff hp).1 hen
  exact (runEvent_enabled hen).trans (serveW_spec hp ((storageOk_iff s).2 ⟨by omega, hcap⟩))

/-- Byte `k` of a frame's header (R67). -/
theorem frame_getElem_header {payload : List Byte} {k : Nat} (hk : k < 8) (h : k < (frame payload).length) :
    (frame payload)[k].toNat = payload.length / 2 ^ (8 * k) % 256 := by
  have hbyte := leEncode_getElem?_toNat (v := payload.length) hk
  rw [← List.getElem?_append_left (l₂ := payload) (by simpa using hk)] at hbyte
  rw [show leEncode 8 payload.length ++ payload = frame payload from rfl, List.getElem?_eq_getElem h] at hbyte
  exact Option.some.inj hbyte

theorem frame_getElem_payload {payload : List Byte} {k : Nat} (hk : k < payload.length)
    (h : 8 + k < (frame payload).length) : (frame payload)[8 + k] = payload[k] := by
  simp [frame, Config.hdrBytes, List.getElem_append_right]

section CommitWrite

variable {s : State} {payload : List Byte} (hfit : 8 + payload.length ≤ s.cap)
include hfit

/-- After a write commit byte `k` of the frame stands `k` bytes beyond the old `WP`. -/
theorem ringByte_commitWrite_frame {k : Nat} (hk : k < (frame payload).length) :
    ringByte (commitWrite s payload) ((s.wp + k) % s.cap) = (frame payload)[k] := by
  simp [ringByte, commitWrite, (commitBytes_lookup hfit).1 k hk]

theorem ringByte_commitWrite_other {x : Nat} (hx : ∀ k, k < 8 + payload.length → x ≠ (s.wp + k) % s.cap) :
    ringByte (commitWrite s payload) x = ringByte s x := by
  simp [ringByte, commitWrite, (commitBytes_lookup hfit).2 x hx]

theorem memRead_commitWrite : memRead (commitWrite s payload) s.wp (8 + payload.length) = frame payload := by
  rw [← frame_length]
  exact memRead_eq_of_lookup (commitBytes_lookup hfit).1

end CommitWrite

/-- Settles O24: the frame's bytes, split into header and payload, and what `commitWrite` and `respond` leave alone. -/
theorem serveWriteCommitsTheFrame : Obligations.ServeWriteCommitsTheFrame := by
  intro s n sl op payload hs hreq hen hcap _
  have hp := pendingWrite_of_slot hs hreq
  have hspace := ((enabled_serveW_iff hp).1 hen).2
  have hfit : 8 + payload.length ≤ s.cap := by omega
  refine ⟨_, runEvent_serveW hp hen hcap, fun k hk => ?_, fun k hk => ?_, fun x hx => ?_, by simp [commitWrite], by omega,
    answered_commitWrite payload _ hs, by simp [commitWrite, sameEnvironment]⟩
  · have hlt : k < (frame payload).length := by rw [frame_length]; omega
    rw [ringByte_respond, ringByte_commitWrite_frame hfit hlt, frame_getElem_header hk]
  · have hlt : 8 + k < (frame payload).length := by rw [frame_length]; omega
    rw [ringByte_respond, Nat.add_assoc, ringByte_commitWrite_frame hfit hlt, frame_getElem_payload hk]
  · rw [ringByte_respond, ringByte_commitWrite_other hfit hx]

/-! ### The space a commit moves (R92, R102) -/

/-- The statements' name for the model's `L_head` (R96). -/
theorem lHead_eq_headLength (s : State) : lHead s = headLength s := rfl

/-! `withRp` is a read commit but for its answer (R97). -/

@[simp] theorem withRp_rp (x : Nat) (s : State) : (withRp x s).rp = x := rfl

@[simp] theorem withRp_wp (x : Nat) (s : State) : (withRp x s).wp = s.wp := rfl

theorem answered_withRp {s : State} {p : Port} {old : Slot} (x : Nat) (r : Response) (hs : slotOf s p = some old) :
    answered p r s (respond (withRp x s) p r) :=
  answered_respond_of r rfl rfl rfl hs

/-- A write commit leaves its framed size more to read (R92). -/
theorem ReadyInv.readableSpace_writeCommit {s : State} (h : ReadyInv s) {payload : List Byte}
    (hlen : payload.length ≤ maxPayload) (hfit : 8 + payload.length ≤ wrAvail s) (p : Port) (r : Response) :
    readableSpace (respond (commitWrite s payload) p r) = readableSpace s + (8 + payload.length) := by
  rw [readableSpace_respond]
  exact (h.commit (t := commitWrite s payload) hlen hfit rfl rfl rfl rfl (by rw [← Nat.add_assoc]; rfl) rfl rfl rfl).2.1

/-- A read commit leaves the head frame's size less to read (R102). -/
theorem ReadyInv.readableSpace_readCommit {s : State} (h : ReadyInv s) (hhead : 8 ≤ ringDist s.cap s.rp s.wpVis)
    (p : Port) (r : Response) : readableSpace s =
      readableSpace (respond (withRp ((s.rp + 8 + lHead s) % s.cap) s) p r) + (8 + lHead s) := by
  rw [readableSpace_respond, Nat.add_assoc]
  generalize hx : (s.rp + (8 + lHead s)) % s.cap = x
  exact (h.readCommit (t := withRp x s) hhead rfl rfl rfl hx.symm rfl rfl rfl rfl).2.1

theorem readVerdict_of_readEligible {s : State} {cap : Nat} (hs : capInStorage s) (h : readEligible s cap) :
    readVerdict s cap = .eligible (lHead s) := by
  obtain ⟨hhead, hle, hfit⟩ := h
  rcases readVerdict_spec hs cap with ⟨hnone | ⟨-, -, hlt⟩, -⟩ | ⟨⟨-, hgt⟩, -⟩ | ⟨-, hv⟩
  · exact absurd hhead hnone
  · omega
  · omega
  · exact hv

/-- `SERVE_R` of an eligible read (R97). -/
theorem runEvent_serveR_eligible {s : State} {n : Nat} {cap : Word} (hs : capInStorage s)
    (hp : pendingRead s n = some cap) (h : readEligible s cap.toNat) :
    runEvent (.serveR n) s = .next (respond (withRp ((s.rp + 8 + lHead s) % s.cap) s) (.q n)
      (readResponse s.params (memRead s ((s.rp + 8) % s.cap) (lHead s)))) := by
  have hv := readVerdict_of_readEligible hs h
  have hen : enabled (.serveR n) s = true := by rw [enabled_serveR_of hp, hv]; rfl
  exact (runEvent_enabled hen).trans (serveR_eligible hp hv)

/-- Before and after a step that neither issues nor resets, the two spaces add up to one `C - 1` (R31). -/
theorem BlockInv.spaces_add_up {s t : State} {e : Event} (h : BlockInv s) (hm : s.mode = .ready)
    (hrun : runEvent e s = .next t) (hissue : ∀ p unit, e ≠ .issue p unit) (hreset : e ≠ .reset) :
    readableSpace s + writableSpace s = t.cap - 1 ∧ readableSpace t + writableSpace t = t.cap - 1 := by
  obtain ⟨-, hmode, hcap, -⟩ := eachElementHasItsWriters e s t hrun hreset fun unit _ he => absurd he (hissue .k unit)
  obtain ⟨hs, -⟩ := spaceAddsUpToCapacityLessOne s h hm
  obtain ⟨ht, -⟩ := spaceAddsUpToCapacityLessOne t (blockInv_runEvent h hrun) (hmode.trans hm)
  exact ⟨hcap ▸ hs, ht⟩

/-- Settles O37: how the readable space moves; the writable space is the rest of `C - 1` before and after. -/
theorem commitsMoveTheFramedSize : Obligations.CommitsMoveTheFramedSize := by
  refine fun s t h => ⟨fun n op payload hp hen hrun => ?_, fun n cap hp hel hrun => ?_⟩
  · obtain ⟨hm, hfit⟩ := (enabled_serveW_iff hp).1 hen
    obtain ⟨hs, ht⟩ := h.spaces_add_up hm hrun nofun nofun
    have hr := h.ready hm
    cases (runEvent_serveW hp hen hr.capHigh).symm.trans hrun
    have hmove := hr.readableSpace_writeCommit (h.pendingWrite_ok hp).2 hfit (.p n) (bare .ok op)
    exact ⟨hmove, by omega, ht⟩
  · obtain ⟨hm, hhead⟩ := hel.1
    obtain ⟨hs, ht⟩ := h.spaces_add_up hm hrun nofun nofun
    cases (runEvent_serveR_eligible h.capInStorage hp hel).symm.trans hrun
    have hmove := (h.ready hm).readableSpace_readCommit hhead (.q n)
      (readResponse s.params (memRead s ((s.rp + 8) % s.cap) (lHead s)))
    exact ⟨hmove, by omega, ht⟩

/-! ### A request put into a port's slots and then answered -/

theorem respond_withSlot (s : State) (p : Port) (sl : Slot) (r : Response) :
    respond (withSlot s p sl) p r = respond s p r := by
  cases p <;> simp [respond, withSlot]

theorem commitWrite_withSlot (s : State) (p : Port) (sl : Slot) (payload : List Byte) :
    commitWrite (withSlot s p sl) payload = withSlot (commitWrite s payload) p sl := by
  cases p <;> rfl

theorem withRp_withSlot (x : Nat) (s : State) (p : Port) (sl : Slot) :
    withRp x (withSlot s p sl) = withSlot (withRp x s) p sl := by
  cases p <;> rfl

theorem pendingWrite_withSlot {s : State} {n : Nat} {old : Slot} (op : BitVec 4) (payload : List Byte)
    (hs : slotOf s (.p n) = some old) :
    pendingWrite (withSlot s (.p n) { req := some (.write op payload) }) n = some (op, payload) :=
  pendingWrite_of_slot (slotOf_withSlot_self _ hs) rfl

theorem eligibleWrite_withSlot (s : State) (p : Port) (sl : Slot) (len : Nat) :
    eligibleWrite (withSlot s p sl) len = eligibleWrite s len := by
  rw [Bool.eq_iff_iff, eligibleWrite_iff, eligibleWrite_iff]
  simp

theorem memRead_withSlot (s : State) (p : Port) (sl : Slot) (a n : Nat) :
    memRead (withSlot s p sl) a n = memRead s a n :=
  memRead_congr (withSlot_cap ..) fun _ _ => ringByte_withSlot ..

theorem memRead_respond (s : State) (p : Port) (r : Response) (a n : Nat) :
    memRead (respond s p r) a n = memRead s a n :=
  memRead_withSlot ..

/-- The write arbiter's steps look at the payload only, and never at the opcode (R87). -/
theorem enabled_answer_of_write {s : State} {n : Nat} {old : Slot} (payload : List Byte) {e : Event}
    (hs : slotOf s (.p n) = some old) (he : e ∈ answers (.p n)) (op op' : BitVec 4) :
    enabled e (withSlot s (.p n) { req := some (.write op payload) }) =
      enabled e (withSlot s (.p n) { req := some (.write op' payload) }) := by
  have hput (op : BitVec 4) := pendingWrite_withSlot op payload hs
  rcases List.mem_pair.1 he with rfl | rfl
  · simp only [enabled_serveW_of (hput _), eligibleWrite_withSlot]
  · simp only [enabled_timeoutW_of (hput _), eligibleWrite_withSlot]

/-- What answers a write put into a port's slots: a state and a status that do not depend on the opcode, which the answer
echoes (R88, R89). -/
theorem exists_answer_of_write {s : State} {n : Nat} {old : Slot} (payload : List Byte) {e : Event}
    (hs : slotOf s (.p n) = some old) (he : e ∈ answers (.p n)) :
    ∃ v st, (∀ q, slotOf v q = slotOf s q) ∧
      ∀ op t, enabled e (withSlot s (.p n) { req := some (.write op payload) }) = true →
        runEvent e (withSlot s (.p n) { req := some (.write op payload) }) = .next t →
        t = respond v (.p n) (bare st op) := by
  have hput (op : BitVec 4) := pendingWrite_withSlot op payload hs
  rcases List.mem_pair.1 he with rfl | rfl
  · refine ⟨commitWrite s payload, .ok, slotOf_commitWrite s payload, fun op t hen hrun => ?_⟩
    rw [runEvent_enabled hen] at hrun
    cases effect_of_serveW hen hrun with
    | writeCommit _ op' payload' pending =>
      cases (hput op).symm.trans pending
      rw [← respond_withSlot (commitWrite s payload) _ { req := some (.write op payload) }, ← commitWrite_withSlot]
      rfl
  · refine ⟨s, .full, fun _ => rfl, fun op t hen hrun => ?_⟩
    cases (runEvent_timeoutW (hput op) hen).symm.trans hrun
    exact respond_withSlot ..

/-- Settles O57: enabling does not see the opcode, and both answers are given from one state with one status. -/
theorem pendingWritesDifferOnlyInTheEcho : Obligations.PendingWritesDifferOnlyInTheEcho := by
  intro s n payload e hn he
  have hs : slotOf s (.p n) = some s.portsP[n] := List.getElem?_eq_getElem hn
  have hsame := enabled_answer_of_write payload hs he opWrite opWritePkt
  obtain ⟨v, st, hv, hanswer⟩ := exists_answer_of_write payload hs he
  refine ⟨hsame, fun t u hen ht hu => ?_⟩
  cases hanswer opWrite t hen ht
  cases hanswer opWritePkt u (hsame ▸ hen) hu
  refine ⟨by simp, by simp, by simp [sameBlock], fun q hq => ?_, bare st opWrite,
    slotOf_respond_self _ ((hv _).trans hs), rfl, slotOf_respond_self _ ((hv _).trans hs)⟩
  rw [slotOf_respond_ne _ _ hq, slotOf_respond_ne _ _ hq]

/-! ### Data requests to their end (R85, R86, R88, R95, R97) -/

/-- A write that fits, put into a port's slots and served, leaves its frame in the ring and is answered `OK`. -/
theorem write_completes {s : State} {n : Nat} {old : Slot} (op : BitVec 4) {payload : List Byte}
    (hs : slotOf s (.p n) = some old) (hm : s.mode = .ready) (hcap : s.cap ≤ s.params.cMax)
    (hspace : 8 + payload.length ≤ s.cap - 1 - ringDist s.cap s.rpVis s.wp) :
    ∃ u, runEvent (.serveW n) (withSlot s (.p n) { req := some (.write op payload) }) = .next u ∧
      answered (.p n) (bare .ok op) s u ∧ memRead u s.wp (8 + payload.length) = frame payload ∧
      u.wp = (s.wp + 8 + payload.length) % s.cap ∧ u.rp = s.rp := by
  have hp := pendingWrite_withSlot op payload hs
  have hen := (enabled_serveW_iff hp).2 (by simpa using And.intro hm hspace)
  have hrun := runEvent_serveW hp hen (by simpa using hcap)
  rw [commitWrite_withSlot, respond_withSlot] at hrun
  refine ⟨_, hrun, answered_commitWrite payload _ hs, ?_, by simp [commitWrite], by simp [commitWrite]⟩
  rw [memRead_respond, memRead_commitWrite (by omega)]

theorem frame_packetPayload (src dst seq : Word) (msg : List Byte) : frame (packetPayload src dst seq msg) =
    leEncode 8 (24 + msg.length) ++ leEncode 8 src.toNat ++ leEncode 8 dst.toNat ++ leEncode 8 seq.toNat ++ msg := by
  rw [frame, packetPayload_length]
  simp [packetPayload, Config.hdrBytes, Config.appBytes, Config.fieldBytes]

theorem exec_read_pends {s : State} {n : Nat} {cap : Word} (hport : s.port = .q n) (hm : s.mode = .ready) :
    exec (.read cap) s = pend s (.read cap) := by
  simp [exec, execRead, isConsumer, hport, hm]

theorem pend_of_port {s : State} {p : Port} (hport : s.port = p) (r : Pending) :
    pend s r = .next (withSlot s p { req := some r }) := by
  rw [pend, hport]

/-- A header in sight has its whole frame in sight, so enough capacity makes a read eligible (R96, R101). -/
theorem readEligible_of_headVis {s : State} (h : BlockInv s) {cap : Nat} (hhead : headVis s) (hle : lHead s ≤ cap) :
    readEligible s cap :=
  ⟨hhead, hle, (h.ready hhead.1).headFits hhead.2⟩

/-- A read of a head frame in sight, put into a port's slots and served, is answered with that frame's payload. -/
theorem read_completes {s : State} (h : BlockInv s) {n : Nat} {old : Slot} {cap : Word}
    (hs : slotOf s (.q n) = some old) (hhead : headVis s) (hle : lHead s ≤ cap.toNat) :
    runEvent (.serveR n) (withSlot s (.q n) { req := some (.read cap) }) =
      .next (respond (withRp ((s.rp + 8 + lHead s) % s.cap) s) (.q n)
        (readResponse s.params (memRead s (s.rp + 8) (lHead s)))) := by
  have hl : lHead (withSlot s (.q n) { req := some (.read cap) }) = lHead s := by simp [lHead, memRead_withSlot]
  have hel : readEligible (withSlot s (.q n) { req := some (.read cap) }) cap.toNat := by
    simpa [readEligible, headVis, hl] using readEligible_of_headVis h hhead hle
  have hrun := runEvent_serveR_eligible (by simpa [capInStorage] using h.capInStorage)
    (pendingRead_of_slot (slotOf_withSlot_self _ hs) rfl) hel
  rw [withRp_withSlot, respond_withSlot, hl, memRead_mod] at hrun
  simpa [memRead_withSlot] using hrun

theorem readResponse_len (p : Config.Params) (data : List Byte) : (readResponse p data).len = word64 data.length := rfl

theorem readResponse_data (p : Config.Params) (data : List Byte) : (readResponse p data).data = data := rfl

/-- Settles O52: `exec` makes the request pending, then `write_completes` or `read_completes`. -/
theorem dataRequestsComplete : Obligations.DataRequestsComplete := by
  intro s h hm hf
  have hr := h.ready hm
  have hword := hr.capWord
  have hs := (portFree_iff s s.port).1 hf
  refine ⟨fun n data hport hspace => ?_, fun n src dst seq msg hport hspace => ?_, fun n cap hport hhead hle => ?_⟩ <;>
    rw [hport] at hs
  · have hlen : data.length ≤ maxPayload := by rw [maxPayload_eq]; omega
    obtain ⟨u, hu⟩ := write_completes opWrite hs hm hr.capHigh hspace
    exact ⟨_, u, (exec_write_pends hport hm hlen).trans (pend_of_port hport _), hu⟩
  · have hpay : (packetPayload src dst seq msg).length = 24 + msg.length := packetPayload_length ..
    have hlen : ¬ Config.appBytes + msg.length > maxPayload := mt (packet_gt_maxPayload_iff _).1 (by omega)
    obtain ⟨u, hu⟩ := write_completes opWritePkt hs hm hr.capHigh (hpay ▸ hspace)
    rw [hpay, frame_packetPayload] at hu
    exact ⟨_, u, ((exec_writePkt_of_ready hport hm).trans (if_neg hlen)).trans (pend_of_port hport _), hu⟩
  · refine ⟨_, _, _, (exec_read_pends hport hm).trans (pend_of_port hport _), read_completes h hs hhead hle,
      answered_withRp _ _ hs, rfl, ?_, readResponse_data .., by simp, by simp⟩
    rw [readResponse_len, memRead_length, lHead_eq_headLength, word64_toNat (headLength_lt s)]

end Machine
end Sys2Proof

/-! ## Read: `READ` in its `ISSUE` step, the read arbiter, and the packet parser (R95 to R109) -/

namespace Sys2Proof

theorem encode_read (cap : Word) : encode (.read cap) = [0x03, 0, 0, 0] ++ leEncode 8 cap.toNat := by
  simp [encode, leEncode_commandWord, Instr.opcode, opRead, Instr.regField, Instr.operandWords, Instr.dataBytes]

namespace Machine

/-! ### `READ` in its `ISSUE` step (R95) -/

theorem not_isConsumer {p : Port} (h : ∀ n, p ≠ .q n) : ¬ isConsumer p = true := by
  cases p with
  | q n => exact absurd rfl (h n)
  | k | p _ => nofun

theorem exec_read_of_uninit {s : State} {n : Nat} {cap : Word} (hport : s.port = .q n) (hm : s.mode = .uninit) :
    exec (.read cap) s = raise s .badState opRead := by
  simp [exec, execRead, isConsumer, hport, hm]

/-- Settles O20: one lemma for each answer of `READ`; off the consumer ports its opcode is not legal. -/
theorem readBecomesPending : Obligations.ReadBecomesPending := by
  intro cap s hf
  refine ⟨encode_read cap, fun hoff => ?_, fun n hport => ⟨fun hm => ?_, fun hm => ?_⟩⟩
  · exact refusedWith_of_raise hf (exec_of_not_legalPort fun h => not_isConsumer hoff ((legalPort_read _).1 h))
  · exact refusedWith_of_raise hf (exec_read_of_uninit hport hm)
  · exact pendsAs_of_pend hf (exec_read_pends hport hm)

/-! ### The three cases of a pending read (R96, R101) -/

theorem not_undersized_and_eligible (s : State) (cap : Nat) : ¬ (readUndersized s cap ∧ readEligible s cap) :=
  fun ⟨⟨_, hgt⟩, ⟨_, hle, _⟩⟩ => Nat.not_lt.2 hle hgt

/-- `blocked` is what the other two cases leave: no header, or a whole header of a frame that is not whole (R96). -/
theorem readBlocked_iff (s : State) (cap : Nat) :
    readBlocked s cap ↔ ¬ (readUndersized s cap ∨ readEligible s cap) := by
  by_cases hhead : headVis s
  · simp only [readBlocked, readUndersized, readEligible, hhead, not_true, true_and, false_or]
    omega
  · simp [readBlocked, readUndersized, readEligible, hhead]

section PendingRead

variable {s : State} (hs : capInStorage s)
include hs

theorem readVerdict_eq_blocked_iff (cap : Nat) : readVerdict s cap = .blocked ↔ readBlocked s cap := by
  rcases readVerdict_spec hs cap with ⟨hb, hv⟩ | ⟨hu, hv⟩ | ⟨he, hv⟩
  · simp [hv, hb]
  · simp [hv, readBlocked_iff, hu]
  · simp [hv, readBlocked_iff, he]

theorem readVerdict_of_readUndersized {cap : Nat} (h : readUndersized s cap) :
    readVerdict s cap = .undersized (lHead s) := by
  rcases readVerdict_spec hs cap with ⟨hb, -⟩ | ⟨-, hv⟩ | ⟨he, -⟩
  · exact absurd (.inl h) ((readBlocked_iff s cap).1 hb)
  · exact hv
  · exact absurd ⟨h, he⟩ (not_undersized_and_eligible s cap)

variable {n : Nat} {cap : Word} (hp : pendingRead s n = some cap)
include hp

theorem enabled_timeoutR_iff : enabled (.timeoutR n) s = true ↔ readBlocked s cap.toNat := by
  rw [enabled_timeoutR_of hp, beq_iff_eq, readVerdict_eq_blocked_iff hs]

theorem enabled_serveR_iff :
    enabled (.serveR n) s = true ↔ readUndersized s cap.toNat ∨ readEligible s cap.toNat := by
  rw [enabled_serveR_of hp, bne_iff_ne, ne_eq, readVerdict_eq_blocked_iff hs, readBlocked_iff, not_not]

/-- `SERVE_R` of an undersized read (R98). -/
theorem runEvent_serveR_undersized (h : readUndersized s cap.toNat) : runEvent (.serveR n) s =
    .next (respond s (.q n) { status := .undersized, ope := opRead, len := word64 (lHead s) }) :=
  (runEvent_enabled ((enabled_serveR_iff hs hp).2 (.inl h))).trans
    (serveR_undersized hp (readVerdict_of_readUndersized hs h))

/-- `TIMEOUT_R` of a blocked read (R99). -/
theorem runEvent_timeoutR (h : readBlocked s cap.toNat) :
    runEvent (.timeoutR n) s = .next (respond s (.q n) (bare .empty opRead)) :=
  (runEvent_enabled ((enabled_timeoutR_iff hs hp).2 h)).trans (timeoutR_spec hp)

end PendingRead

/-- Settles O27: `blocked` is the complement of the other two, which exclude each other. -/
theorem readCasesAreExclusiveAndComplete : Obligations.ReadCasesAreExclusiveAndComplete := by
  intro s n sl cap hsl hreq hs
  have hp := pendingRead_of_slot hsl hreq
  have hblocked := readBlocked_iff s cap.toNat
  refine ⟨?_, not_undersized_and_eligible s _, fun ⟨hu, hb⟩ => hblocked.1 hb (.inl hu),
    fun ⟨he, hb⟩ => hblocked.1 hb (.inr he), enabled_serveR_iff hs hp, enabled_timeoutR_iff hs hp⟩
  rw [← or_assoc, hblocked]
  exact Classical.em _

/-- Settles O40: the read side's view ends at a frame boundary, so it never shows a part of the head frame. -/
theorem visibleHeaderMeansVisibleFrame : Obligations.VisibleHeaderMeansVisibleFrame := by
  intro s h
  have hframe : headVis s → ringDist s.cap s.rp s.wpVis ≥ 8 + lHead s := fun ⟨hm, hhead⟩ =>
    (h.ready hm).headFits hhead
  refine ⟨hframe, fun cap => ⟨?_, .inl⟩⟩
  rintro (hnone | ⟨hhead, -, hpart⟩)
  · exact hnone
  · exact absurd (hframe hhead) (Nat.not_le.2 hpart)

/-! ### The read arbiter's answers (R97 to R99, R103) -/

/-- Settles O28: a read commit is `withRp` and the answer, whose data are as long as the header says. -/
theorem serveReadTakesTheHeadFrame : Obligations.ServeReadTakesTheHeadFrame := by
  intro s n sl cap hsl hreq hs hel
  refine ⟨_, _, runEvent_serveR_eligible hs (pendingRead_of_slot hsl hreq) hel, answered_withRp _ _ hsl, rfl, rfl, ?_,
    ?_⟩
  · rw [readResponse_len, memRead_length]
    exact word64_toNat (headLength_lt s)
  · simp [readResponse, withRp, ringByte, sameEnvironment]

/-- Settles O29: `respond` changes the port's slots only. -/
theorem undersizedReadConsumesNothing : Obligations.UndersizedReadConsumesNothing := fun s _ _ _ hsl hreq hs hu =>
  ⟨_, _, runEvent_serveR_undersized hs (pendingRead_of_slot hsl hreq) hu, answered_respond _ hsl,
    word64_toNat (headLength_lt s), sameBlock_respond .., sameEnvironment_respond ..⟩

/-- Settles O30: `readBlocked` decides, and `respond` changes the port's slots only. -/
theorem timeoutReadAnswersEmpty : Obligations.TimeoutReadAnswersEmpty := by
  intro s n sl cap hsl hreq hs
  have hp := pendingRead_of_slot hsl hreq
  exact ⟨enabled_timeoutR_iff hs hp, fun hb => ⟨_, runEvent_timeoutR hs hp hb, answered_respond _ hsl,
    sameBlock_respond .., sameEnvironment_respond ..⟩⟩

section Respond

variable (s : State) (p : Port) (r : Response)

@[simp] theorem lHead_respond : lHead (respond s p r) = lHead s := by simp [lHead, memRead_respond]

@[simp] theorem headVis_respond : headVis (respond s p r) ↔ headVis s := by simp [headVis]

theorem readUndersized_respond (cap : Nat) : readUndersized (respond s p r) cap ↔ readUndersized s cap := by
  simp [readUndersized]

theorem readEligible_respond (cap : Nat) : readEligible (respond s p r) cap ↔ readEligible s cap := by
  simp [readEligible]

theorem capInStorage_respond : capInStorage (respond s p r) ↔ capInStorage s := by simp [capInStorage]

end Respond

/-- Settles O31: an answer touches nothing that R96's cases look at, so the next read meets the head frame as it was. -/
theorem undersizedAnswerLeavesTheHead : Obligations.UndersizedAnswerLeavesTheHead := by
  intro s t n m sl sl' cap cap' hsl hreq hs hu hmn hsl' hreq' hrun
  cases (runEvent_serveR_undersized hs (pendingRead_of_slot hsl hreq) hu).symm.trans hrun
  refine ⟨respond_rp .., lHead_respond .., readEligible_respond .., fun hlt => ?_⟩
  have hnext := (slotOf_respond_ne s (p := .q n) { status := .undersized, ope := opRead, len := word64 (lHead s) }
    (show Port.q m ≠ .q n by simpa using hmn)).trans hsl'
  refine ⟨_, _, runEvent_serveR_undersized ((capInStorage_respond ..).2 hs) (pendingRead_of_slot hnext hreq')
    ((readUndersized_respond ..).2 ⟨hu.1, hlt⟩), answered_respond _ hnext, ?_, by simp⟩
  rw [lHead_respond]
  exact word64_toNat (headLength_lt s)

/-! ### The packet parser (R104 to R107) -/

theorem parse_of_short (p : Config.Params) {data : List Byte} (h : data.length < 24) :
    parse p data = { pstat := { short := true }, src := 0, dst := 0, seq := 0, mlen := 0 } := by
  simp [parse, parseFlags, Config.appBytes, Config.fieldBytes, h]

/-- Settles O32: `parse_of_short`; the response carries its payload whatever the parser makes of it. -/
theorem shortPayloadParsesToZeroFields : Obligations.ShortPayloadParsesToZeroFields := fun p data h =>
  ⟨parse_of_short p h, readResponse_data p data⟩

/-- A header field has the form of an operand word: 8 bytes, little-endian (R68, R72). -/
theorem headerField_eq (k : Nat) (data : List Byte) : headerField data (8 * k) = (operandWord k data).toNat :=
  (operandWord_toNat k data).symm

/-- The parser on a payload with a whole application header (R106, R107). -/
theorem parse_of_whole (p : Config.Params) {data : List Byte} (h : 24 ≤ data.length) : parse p data =
    { pstat := { srcOor := outOfRange p (operandWord 0 data).toNat, dstOor := outOfRange p (operandWord 1 data).toNat }
      src := operandWord 0 data
      dst := operandWord 1 data
      seq := operandWord 2 data
      mlen := word64 (data.length - 24) } := by
  have hwhole : ¬ data.length < Config.appBytes := Nat.not_lt.2 h
  simp only [parse, parseFlags, if_neg hwhole, ← headerField_eq]
  rfl

theorem outOfRange_iff (p : Config.Params) (v : Nat) : outOfRange p v = true ↔ v < p.portMin ∨ v > p.portMax := by
  simp [outOfRange]

/-- Settles O33: `parse_of_whole`, with each operand word as `le_decode` of its bytes. -/
theorem packetFieldsAndPortFlags : Obligations.PacketFieldsAndPortFlags := by
  intro p data hlow hhigh
  have hmlen : (word64 (data.length - 24)).toNat = data.length - 24 := word64_toNat (by omega)
  simp [parse_of_whole p hlow, outOfRange_iff, operandWord_toNat, hmlen]

/-- A packet's payload is its three fields as operand words, then the message (R68). -/
theorem packetPayload_eq (src dst seq : Word) (msg : List Byte) :
    packetPayload src dst seq msg = ([src.toNat, dst.toNat, seq.toNat].map (leEncode 8)).flatten ++ msg := by
  simp [packetPayload, Config.fieldBytes]

/-- The parser gives a packet's own fields back (R68, R106). -/
theorem parse_packetPayload (p : Config.Params) (src dst seq : Word) (msg : List Byte) :
    parse p (packetPayload src dst seq msg) =
      { pstat := { srcOor := outOfRange p src.toNat, dstOor := outOfRange p dst.toNat }
        src := src, dst := dst, seq := seq, mlen := word64 msg.length } := by
  have hlen : (packetPayload src dst seq msg).length = 24 + msg.length := packetPayload_length ..
  have hfield {k : Nat} {w : Word} (h : [src.toNat, dst.toNat, seq.toNat][k]? = some w.toNat) :
      operandWord k (packetPayload src dst seq msg) = w := by
    rw [packetPayload_eq, operandWord_flatten _ h, BitVec.ofNat_toNat, BitVec.setWidth_eq]
  have hsrc : operandWord 0 (packetPayload src dst seq msg) = src := hfield rfl
  have hdst : operandWord 1 (packetPayload src dst seq msg) = dst := hfield rfl
  have hseq : operandWord 2 (packetPayload src dst seq msg) = seq := hfield rfl
  rw [parse_of_whole p (by omega), hsrc, hdst, hseq, hlen, Nat.add_sub_cancel_left]

/-- The answer to a read commit of a packet (R97, R109). -/
theorem readResponse_packetPayload (p : Config.Params) (src dst seq : Word) (msg : List Byte) :
    readResponse p (packetPayload src dst seq msg) =
      { status := .ok, ope := opRead
        pstat := { srcOor := outOfRange p src.toNat, dstOor := outOfRange p dst.toNat }
        len := word64 (24 + msg.length), src := src, dst := dst, seq := seq, mlen := word64 msg.length
        data := packetPayload src dst seq msg } := by
  simp only [readResponse, parse_packetPayload, packetPayload_length]
  rfl

/-! ### A packet written and read back (R109) -/

/-- A list of steps goes on where its first part has led. -/
theorem runEvents_append {es fs : List Event} {s t : State} (h : runEvents es s = .next t) :
    runEvents (es ++ fs) s = runEvents fs t := by
  induction es generalizing s with
  | nil =>
    cases h
    rfl
  | cons e es ih =>
    cases he : runEvent e s with
    | next u => rw [List.cons_append, runEvents_cons he, ih (runEvents_cons he ▸ h)]
    | fault | refused => simp [runEvents, he] at h

theorem blockInv_runEvents {es : List Event} {s t : State} (hs : BlockInv s) (h : runEvents es s = .next t) :
    BlockInv t := by
  induction es generalizing s with
  | nil =>
    cases h
    exact hs
  | cons e es ih =>
    cases he : runEvent e s with
    | next u => exact ih (blockInv_runEvent hs he) (runEvents_cons he ▸ h)
    | fault | refused => simp [runEvents, he] at h

/-- A well-formed request issued at a free port whose meaning there is to wait (R36, R69). -/
theorem runEvent_issue_pends {s : State} {p : Port} {i : Instr} {r : Pending} (hf : portFree s p = true)
    (hwf : i.wellFormed = true) (h : exec i { s with port := p } = pend { s with port := p } r) :
    runEvent (.issue p (encode i)) s = .next (withSlot { s with port := p } p { req := some r }) :=
  ((runEvent_issue hf _).trans (issue_of_decode s (decode_encode hwf))).trans h

theorem slotOf_withPort_of_portFree {s : State} {p : Port} (hf : portFree s p = true) :
    slotOf { s with port := p } p = some {} :=
  (slotOf_withPort s p p).trans ((portFree_iff s p).1 hf)

/-- Two steps, of which the first leads to the state the second starts from. -/
theorem runEvents_pair {e e' : Event} {s u t : State} (h : runEvent e s = .next u) (h' : runEvent e' u = .next t) :
    runEvents [e, e'] s = .next t := by
  rw [runEvents_cons h, runEvents_cons h']
  rfl

/-- A packet that fits, issued and served: its frame is in the ring and the port is answered `OK` (R86, R88). -/
theorem runEvents_writePkt {s : State} {n : Nat} (src dst seq : Word) {msg : List Byte} (h : BlockInv s)
    (hm : s.mode = .ready) (hf : portFree s (.p n) = true)
    (hfit : 8 + (24 + msg.length) ≤ s.cap - 1 - ringDist s.cap s.rpVis s.wp) :
    ∃ v, runEvents [.issue (.p n) (encode (.writePkt src dst seq msg)), .serveW n] s = .next v ∧
      answered (.p n) (bare .ok opWritePkt) s v ∧
      (∀ x, ringByte v x = ringByte (commitWrite s (packetPayload src dst seq msg)) x) ∧ v.params = s.params ∧
      v.mode = s.mode ∧ v.cap = s.cap ∧ v.rp = s.rp ∧ v.wp = (s.wp + 8 + (24 + msg.length)) % s.cap := by
  have hr := h.ready hm
  have hword := hr.capWord
  have hpay : (packetPayload src dst seq msg).length = 24 + msg.length := packetPayload_length ..
  have hwf : (Instr.writePkt src dst seq msg).wellFormed = true := decide_eq_true (show msg.length < 2 ^ 64 by omega)
  have hlen : ¬ Config.appBytes + msg.length > maxPayload := mt (packet_gt_maxPayload_iff _).1 (by omega)
  have hissue := runEvent_issue_pends hf hwf
    ((exec_writePkt_of_ready (s := { s with port := .p n }) rfl hm).trans (if_neg hlen))
  have hpending := pendingWrite_withSlot opWritePkt (packetPayload src dst seq msg) (slotOf_withPort_of_portFree hf)
  have hserve := runEvent_serveW hpending ((enabled_serveW_iff hpending).2 (by simpa [hpay] using And.intro hm hfit))
    (by simpa using hr.capHigh)
  rw [commitWrite_withSlot, respond_withSlot] at hserve
  refine ⟨_, runEvents_pair hissue hserve, answered_respond_of _ rfl rfl rfl ((portFree_iff s _).1 hf),
    ringByte_respond _ _ _, ?_⟩
  simp [commitWrite, hpay]

/-- Which port issued last (log entry 9) does not count among the slots an answer leaves alone. -/
theorem answered_of_withPort {s t : State} {p q : Port} {r : Response} (h : answered p r { s with port := q } t) :
    answered p r s t :=
  ⟨h.1, fun x hx => (h.2 x hx).trans (slotOf_withPort s q x)⟩

theorem memRead_withPort (s : State) (p : Port) (a n : Nat) : memRead { s with port := p } a n = memRead s a n := rfl

theorem lHead_withPort (s : State) (p : Port) : lHead { s with port := p } = lHead s := rfl

/-- A read of a head frame in sight, issued and served: the frame's payload is the answer (R95, R97). -/
theorem runEvents_read {s : State} {m : Nat} {cap : Word} (h : BlockInv s) (hf : portFree s (.q m) = true)
    (hhead : headVis s) (hle : lHead s ≤ cap.toNat) :
    ∃ t, runEvents [.issue (.q m) (encode (.read cap)), .serveR m] s = .next t ∧
      answered (.q m) (readResponse s.params (memRead s (s.rp + 8) (lHead s))) s t ∧
      t.rp = (s.rp + 8 + lHead s) % s.cap ∧ t.wp = s.wp := by
  have hport : BlockInv { s with port := .q m } := h.congr rfl rfl rfl rfl rfl rfl rfl rfl rfl rfl rfl fun _ => rfl
  have hissue := runEvent_issue_pends hf rfl (exec_read_pends (s := { s with port := .q m }) (cap := cap) rfl hhead.1)
  have hserve := read_completes hport (slotOf_withPort_of_portFree hf) hhead hle
  simp only [memRead_withPort, lHead_withPort] at hserve
  exact ⟨_, runEvents_pair hissue hserve,
    answered_of_withPort (answered_withRp _ _ (slotOf_withPort_of_portFree hf)), by simp, by simp⟩

/-- A payload stored in an empty ring and brought in sight is the head frame's (R31, R34, R96). -/
theorem head_of_commitWrite {s u : State} {payload : List Byte} (h : ReadyInv s) (he : s.rp = s.wp)
    (hlen : payload.length ≤ maxPayload) (hfit : 8 + payload.length < s.cap) (hc : u.cap = s.cap) (hrp : u.rp = s.rp)
    (hvis : u.wpVis = (s.wp + 8 + payload.length) % s.cap)
    (hb : ∀ x, ringByte u x = ringByte (commitWrite s payload) x) :
    8 ≤ ringDist u.cap u.rp u.wpVis ∧ lHead u = payload.length ∧
      memRead u (u.rp + 8) payload.length = payload := by
  have hread : memRead u u.rp (8 + payload.length) = frame payload := by
    rw [hrp, he, ← memRead_commitWrite (s := s) (by omega)]
    exact memRead_congr hc fun _ _ => hb _
  have hframes : framesAt u u.rp (8 + payload.length) [payload] := ⟨by simpa using hread, by simpa using hlen⟩
  have hdist : ringDist s.cap s.wp ((s.wp + (8 + payload.length)) % s.cap) = 8 + payload.length :=
    ringDist_add_mod h.wpRange hfit
  obtain ⟨f, rest, hf, -, -, hhead, hdata, -⟩ := framesAt_head hframes (by omega)
  cases hf
  refine ⟨?_, hhead, hdata⟩
  rw [hc, hrp, hvis, he, Nat.add_assoc, hdist]
  omega

/-- A packet issued into an empty ring in which it fits, served and synchronised, heads the ring in sight. -/
theorem runEvents_writePkt_syncR {s : State} {n : Nat} (src dst seq : Word) {msg : List Byte} (h : BlockInv s)
    (hm : s.mode = .ready) (hf : portFree s (.p n) = true) (he : s.rp = s.wp) (hview : s.rpVis = s.rp)
    (hfit : 8 + (24 + msg.length) ≤ s.cap - 1) :
    ∃ u, runEvents [.issue (.p n) (encode (.writePkt src dst seq msg)), .serveW n, .syncR] s = .next u ∧ BlockInv u ∧
      headVis u ∧ lHead u = 24 + msg.length ∧
      memRead u (u.rp + 8) (24 + msg.length) = packetPayload src dst seq msg ∧
      answered (.p n) (bare .ok opWritePkt) s u ∧ u.params = s.params ∧ u.cap = s.cap ∧ u.rp = s.rp ∧
      u.wp = (s.wp + 8 + (24 + msg.length)) % s.cap := by
  have hr := h.ready hm
  have hword := hr.capWord
  have hpay : (packetPayload src dst seq msg).length = 24 + msg.length := packetPayload_length ..
  have hspace : 8 + (24 + msg.length) ≤ s.cap - 1 - ringDist s.cap s.rpVis s.wp := by
    rw [hview, he, ringDist_self]
    exact hfit
  obtain ⟨v, hrun, ⟨hslot, hother⟩, hring, hparams, hmode, hcap, hrp, hwp⟩ :=
    runEvents_writePkt src dst seq h hm hf hspace
  have hsync := (runEvents_append (fs := [.syncR]) hrun).trans
    (runEvents_cons (runEvent_syncR_of_ready (hmode.trans hm)))
  have hslots := slotOf_congr (s := v) (t := { v with wpVis := v.wp }) rfl rfl rfl
  obtain ⟨hdist, hhead, hdata⟩ := head_of_commitWrite (u := { v with wpVis := v.wp }) hr he
    (by rw [maxPayload_eq]; omega) (by omega) hcap hrp (hpay ▸ hwp) hring
  rw [hpay] at hhead hdata
  exact ⟨_, hsync, blockInv_runEvents h hsync, ⟨hmode.trans hm, hdist⟩, hhead, hdata,
    ⟨(hslots _).trans hslot, fun q hq => (hslots q).trans (hother q hq)⟩, hparams, hcap, hrp, hwp⟩

/-- Settles O51: the packet heads the ring, the read takes it, and `parse_packetPayload` gives the answer's fields. -/
theorem packetRoundTrip : Obligations.PacketRoundTrip := by
  intro s n m src dst seq cap msg h hm hfP hfQ he hview hfit hle
  obtain ⟨u, hrun, hu, hhead, hlen, hdata, ⟨hslotP, hother⟩, hparams, hcap, hrp, hwp⟩ :=
    runEvents_writePkt_syncR src dst seq h hm hfP he hview hfit
  have hword := (h.ready hm).capWord
  have hslotQ : slotOf u (.q m) = some {} := (hother (.q m) (by simp)).trans ((portFree_iff s _).1 hfQ)
  obtain ⟨t, hread, ⟨hslotR, hotherR⟩, htrp, htwp⟩ :=
    runEvents_read hu ((portFree_iff u _).2 hslotQ) hhead (hlen ▸ hle)
  rw [hlen, hdata, hparams, readResponse_packetPayload] at hslotR
  rw [hlen, hrp, hcap, he] at htrp
  have hmlen : (word64 msg.length).toNat = msg.length := word64_toNat (by omega)
  have htotal : (word64 (24 + msg.length)).toNat = 24 + msg.length := word64_toNat (by omega)
  exact ⟨t, _, (runEvents_append hrun).trans hread, (hotherR (.p n) (by simp)).trans hslotP, hslotR, rfl, rfl, htotal,
    rfl, rfl, rfl, hmlen, rfl, rfl, outOfRange_iff _ _, outOfRange_iff _ _, by rw [htrp, htwp, hwp], htwp.trans hwp⟩

end Machine
end Sys2Proof

/-! ## Exceptions: the steps that are taken, whom they touch, and the order of the checks (R110 to R126) -/

namespace Sys2Proof
namespace Machine

/-! ### The step that is taken next (R115) -/

/-- Settles O9: a scheduled step, and `runEvent` where it is enabled or not; with none scheduled, a drawn one. -/
theorem stepTakesTheScheduledStep : Obligations.StepTakesTheScheduledStep := by
  refine ⟨fun s e es h => ?_, fun s h => by simp [step, nextEvent, h]⟩
  rw [step_of_sched h]
  exact ⟨runEvent_enabled, runEvent_disabled⟩

/-- Settles O48: the step picked next goes through, whichever it is. -/
theorem noFaultAndNoRefusal : Obligations.NoFaultAndNoRefusal := fun _ h =>
  (blockInv_nextEvent h).runEvent_next _

/-! ### The ports of a block (R112, R120, R123) -/

theorem eventPort_of_mem_answers {e : Event} {p : Port} (h : e ∈ answers p) : eventPort e = some p := by
  cases p with
  | k => cases h
  | p n | q n => rcases List.mem_pair.1 h with rfl | rfl <;> rfl

/-- Settles O44: the port that the step names is the only one whose slots it can change. -/
theorem stepsLeaveOtherPortsAlone : Obligations.StepsLeaveOtherPortsAlone := by
  intro e p s t hrun hnames q hq
  have hp : eventPort e = some p := by
    rcases hnames with ⟨unit, rfl⟩ | rfl | hans
    · rfl
    · rfl
    · exact eventPort_of_mem_answers hans
  rcases effect_of_runEvent hrun with rfl | ⟨-, heff⟩
  · rfl
  · refine heff.slotOf_other ?_ (hp ▸ fun h => hq (Option.some.inj h).symm)
    rintro rfl
    cases hp

/-- The ports of a build (R10). -/
def isPort (params : Config.Params) : Port → Prop
  | .k => True
  | .p i => i < params.nW
  | .q j => j < params.nR

/-- A block that meets the invariant has exactly its build's ports. -/
theorem SlotsInv.slotOf_isSome_iff {s : State} (h : SlotsInv s) (p : Port) :
    (slotOf s p).isSome = true ↔ isPort s.params p := by
  cases p <;> simp [slotOf, isPort, h.producers, h.consumers]

theorem Effect.params_eq {s t : State} {e : Event} (h : Effect s e t) : t.params = s.params := by
  cases h <;> simp

theorem nextEvent_params (s : State) : (nextEvent s).2.params = s.params := by
  unfold nextEvent
  split <;> rfl

theorem step_params {s t : State} (h : step s = .next t) : t.params = s.params := by
  rw [← nextEvent_params s]
  rcases effect_of_runEvent h with rfl | ⟨-, heff⟩
  · rfl
  · exact heff.params_eq

/-- Settles O45: a step keeps the parameters and the invariant, and the two together say which ports there are. -/
theorem portsAreFixed : Obligations.PortsAreFixed := by
  intro s t h hstep
  have hparams := step_params hstep
  have ht := everyStepKeepsTheInvariant s t h hstep
  refine ⟨hparams, fun p => ?_⟩
  rw [Bool.eq_iff_iff, ht.slots.slotOf_isSome_iff, h.slots.slotOf_isSome_iff, hparams]

/-! ### The checks on a request, in order (R114) -/

theorem exists_of_isProducer {p : Port} (h : isProducer p = true) : ∃ n, p = .p n := by
  by_contra! hne
  exact not_isProducer hne h

theorem exists_of_isConsumer {p : Port} (h : isConsumer p = true) : ∃ n, p = .q n := by
  by_contra! hne
  exact not_isConsumer hne h

theorem mode_uninit_of_not_ready {m : Mode} (h : m ≠ .ready) : m = .uninit := by
  cases m <;> simp_all

theorem exec_status_of_reserved {s : State} {reg : Byte} (h : reg.toNat > 0x0E) :
    exec (.status reg) s = raise s .badArg opStatus :=
  exec_status_of_none (List.getElem?_eq_none (by rw [registerTable_length]; omega))

/-- A 64-bit operand fits its header field, so only the length can make a `WRITE_PKT` out of range (R86). -/
theorem badOperand_writePkt_iff (src dst seq : Word) (msg : List Byte) (s : State) :
    badOperand (.writePkt src dst seq msg) s ↔ Config.appBytes + msg.length > maxPayload := by
  have hsrc := src.isLt
  have hdst := dst.isLt
  have hseq := seq.isLt
  rw [packet_gt_maxPayload_iff]
  simp only [badOperand]
  omega

/-- At a port where a request is legal, the first of R114's other checks that holds raises its status. -/
theorem exec_of_firstFailing_tail {i : Instr} {s : State} {st : Status} (hport : legalPort i.opcode.toNat s.port)
    (h : firstFailing (checks i s).tail st) : exec i s = raise s st i.opcode := by
  cases i with
  | init cap =>
    have hk := port_of_isControl ((legalPort_init _).1 hport)
    obtain ⟨hm, rfl⟩ | ⟨hm, hcap, rfl⟩ : (s.mode = .ready ∧ st = .badState) ∨
        (s.mode ≠ .ready ∧ badOperand (.init cap) s ∧ st = .badArg) := by
      simpa [checks, firstFailing, wrongMode] using h
    · exact exec_init_of_ready hk hm
    · exact exec_init_of_badCap hk (mode_uninit_of_not_ready hm) hcap
  | write data =>
    obtain ⟨n, hp⟩ := exists_of_isProducer ((legalPort_write _).1 hport)
    obtain ⟨hm, rfl⟩ | ⟨hm, hlen, rfl⟩ : (s.mode = .uninit ∧ st = .badState) ∨
        (s.mode ≠ .uninit ∧ badOperand (.write data) s ∧ st = .badArg) := by
      simpa [checks, firstFailing, wrongMode] using h
    · exact exec_write_of_uninit hp hm
    · exact exec_write_of_long hp (mode_ready_of_not_uninit hm) hlen
  | read cap =>
    obtain ⟨n, hp⟩ := exists_of_isConsumer ((legalPort_read _).1 hport)
    obtain ⟨hm, rfl⟩ : s.mode = .uninit ∧ st = .badState := by
      simpa [checks, firstFailing, wrongMode, badOperand] using h
    exact exec_read_of_uninit hp hm
  | destroy =>
    have hk := port_of_isControl ((legalPort_destroy _).1 hport)
    obtain ⟨hm, rfl⟩ | ⟨hm, hpend, rfl⟩ : (s.mode = .uninit ∧ st = .badState) ∨
        (s.mode ≠ .uninit ∧ somePending s ∧ st = .badState) := by
      simpa [checks, firstFailing, wrongMode, badOperand] using h
    · exact exec_destroy_of_uninit hk hm
    · exact exec_destroy_of_somePending hk (mode_ready_of_not_uninit hm) hpend
  | writePkt src dst seq msg =>
    obtain ⟨n, hp⟩ := exists_of_isProducer ((legalPort_writePkt _).1 hport)
    obtain ⟨hm, rfl⟩ | ⟨hm, hlen, rfl⟩ : (s.mode = .uninit ∧ st = .badState) ∨
        (s.mode ≠ .uninit ∧ badOperand (.writePkt src dst seq msg) s ∧ st = .badArg) := by
      simpa [checks, firstFailing, wrongMode] using h
    · exact exec_writePkt_of_uninit hp hm
    · exact (exec_writePkt_of_ready hp (mode_ready_of_not_uninit hm)).trans
        (if_pos ((badOperand_writePkt_iff ..).1 hlen))
  | status reg =>
    obtain ⟨hreg, rfl⟩ : 0x0E < reg.toNat ∧ st = .badArg := by
      simpa [checks, firstFailing, wrongMode, badOperand] using h
    exact exec_status_of_reserved hreg

/-- The first of R114's checks that holds raises its status. -/
theorem exec_of_firstFailing {i : Instr} {s : State} {st : Status} (h : firstFailing (checks i s) st) :
    exec i s = raise s st i.opcode := by
  obtain ⟨hport, rfl⟩ | ⟨hport, hrest⟩ := h
  · exact exec_of_not_legalPort hport
  · exact exec_of_firstFailing_tail (not_not.1 hport) hrest

theorem allPass_checks_iff (i : Instr) (s : State) : allPass (checks i s) ↔
    legalPort i.opcode.toNat s.port ∧ (∀ reg, i = .status reg → reg.toNat ≤ 0x0E) ∧ ¬ wrongMode i s ∧
      ¬ badOperand i s ∧ (i = .destroy → ¬ somePending s) := by
  simp [allPass, checks]

/-- The requests that are answered in their `ISSUE` step when they pass (R80, R83, R84). -/
def endsAtOnce (i : Instr) : Prop := (∃ cap, i = .init cap) ∨ i = .destroy ∨ ∃ reg, i = .status reg

/-- One lemma for each request that completes: `INIT`, `DESTROY` and `STATUS` (R81, R83, R84). -/
theorem exec_answersOk {i : Instr} {s : State} (hf : portFree s s.port = true) (hi : endsAtOnce i)
    (h : allPass (checks i s)) :
    ∃ t r, exec i s = .next t ∧ slotOf t s.port = some { req := none, rsp := some r } ∧ r.status = .ok := by
  have hs := (portFree_iff s s.port).1 hf
  obtain ⟨hport, hreg, hmode, hoperand, hidle⟩ := (allPass_checks_iff i s).1 h
  obtain ⟨cap, rfl⟩ | rfl | ⟨reg, rfl⟩ := hi
  · have hk := port_of_isControl ((legalPort_init _).1 hport)
    obtain ⟨hlow, hhigh⟩ := not_or.1 hoperand
    refine ⟨_, bare .ok opInit, exec_init_completes hk (mode_uninit_of_not_ready hmode) (not_lt.1 hlow) (not_lt.1 hhigh),
      ?_, rfl⟩
    rw [hk]
    exact slotOf_respond_self _ rfl
  · have hk := port_of_isControl ((legalPort_destroy _).1 hport)
    refine ⟨_, bare .ok opDestroy, exec_destroy_completes hk (mode_ready_of_not_uninit hmode) (hidle rfl), ?_, rfl⟩
    rw [hk]
    exact slotOf_respond_self _ rfl
  · have hlt : reg.toNat < (registerTable s).length := by
      rw [registerTable_length]
      exact Nat.lt_succ_of_le (hreg reg rfl)
    exact ⟨_, _, exec_status_of_some (List.getElem?_eq_getElem hlt), slotOf_respond_self _ hs, rfl⟩

/-- A `WRITE`, `READ` or `WRITE_PKT` that passes becomes pending (R85, R86, R95). -/
theorem exec_pendsAs {i : Instr} {s : State} (hf : portFree s s.port = true) (hi : ¬ endsAtOnce i)
    (h : allPass (checks i s)) : ∃ r, pendsAs r i s := by
  obtain ⟨hport, -, hmode, hoperand, -⟩ := (allPass_checks_iff i s).1 h
  cases i with
  | init | destroy | status => simp [endsAtOnce] at hi
  | write data =>
    obtain ⟨n, hp⟩ := exists_of_isProducer ((legalPort_write _).1 hport)
    exact ⟨_, pendsAs_of_pend hf (exec_write_pends hp (mode_ready_of_not_uninit hmode) (not_lt.1 hoperand))⟩
  | read cap =>
    obtain ⟨n, hp⟩ := exists_of_isConsumer ((legalPort_read _).1 hport)
    exact ⟨_, pendsAs_of_pend hf (exec_read_pends hp (mode_ready_of_not_uninit hmode))⟩
  | writePkt src dst seq msg =>
    obtain ⟨n, hp⟩ := exists_of_isProducer ((legalPort_writePkt _).1 hport)
    exact ⟨_, pendsAs_of_pend hf ((exec_writePkt_of_ready hp (mode_ready_of_not_uninit hmode)).trans
      (if_neg (mt (badOperand_writePkt_iff ..).2 hoperand)))⟩

/-- Settles O21: `exec_of_firstFailing`; a request that passes is answered `OK` or pends, by its opcode. -/
theorem firstFailingCheckAnswers : Obligations.FirstFailingCheckAnswers := by
  refine fun i s hf => ⟨fun st h => refusedWith_of_raise hf (exec_of_firstFailing h), fun h => ?_⟩
  by_cases hi : endsAtOnce i
  · obtain ⟨t, r, hexec, hslot, hok⟩ := exec_answersOk hf hi h
    exact ⟨t, _, hexec, hslot, fun r' hr => ⟨Option.some.inj hr ▸ hok, rfl⟩, iff_of_true hi nofun, nofun⟩
  · obtain ⟨r, t, hexec, ⟨hslot, -⟩, -⟩ := exec_pendsAs hf hi h
    exact ⟨t, _, hexec, hslot, nofun, iff_of_false hi fun hne => hne rfl, nofun⟩

/-! ### A run and the schedule (R39, log entry 2) -/

/-- The state with another schedule. -/
def withSched (es : List Event) (s : State) : State := { s with sched := es }

section Schedule

variable (es : List Event) (s : State)

theorem slotOf_withSched (p : Port) : slotOf (withSched es s) p = slotOf s p := slotOf_congr rfl rfl rfl p

theorem withSlot_withSched (p : Port) (sl : Slot) :
    withSlot (withSched es s) p sl = withSched es (withSlot s p sl) := by
  cases p <;> rfl

/-- Filling a port's slots, from an updated state where the update commutes with `withSched es`. -/
theorem next_withSlot_withSched {es : List Event} {s u : State} (p : Port) (sl : Slot) (h : u = withSched es s) :
    .next (withSlot u p sl) = mapNext (withSched es) (.next (withSlot s p sl)) := by
  rw [h, withSlot_withSched, mapNext_next]

theorem enabled_withSched (e : Event) : enabled e (withSched es s) = enabled e s := by
  cases e with
  | issue p _ => simp only [enabled, portFree, slotOf_withSched]
  | take p => simp only [enabled, waitingResponse, slotOf_withSched]
  | serveW | timeoutW | serveR | timeoutR | syncR | syncW | reset => rfl

/-- No request looks at the schedule: each check reads alike, and each answer fills a slot. -/
theorem exec_withSched (i : Instr) : exec i (withSched es s) = mapNext (withSched es) (exec i s) := by
  have fills (sl : Slot) : .next (withSlot (withSched es s) s.port sl) =
      mapNext (withSched es) (.next (withSlot s s.port sl)) := next_withSlot_withSched _ _ rfl
  cases i with
  | init | destroy =>
    exact ite_mapNext (fills _) <| ite_mapNext (fills _) <| ite_mapNext (fills _) (next_withSlot_withSched _ _ rfl)
  | write => exact ite_mapNext (fills _) <| ite_mapNext (fills _) <| ite_mapNext (fills _) (fills _)
  | read => exact ite_mapNext (fills _) <| ite_mapNext (fills _) (fills _)
  | writePkt =>
    exact ite_mapNext (fills _) <| ite_mapNext (fills _) <| ite_mapNext (fills _) <| ite_mapNext (fills _) (fills _)
  | status reg =>
    have hreg : regValue (withSched es s) reg.toNat = regValue s reg.toNat := rfl
    simp only [exec, execStatus, hreg]
    cases regValue s reg.toNat <;> exact fills _

theorem issue_withSched (p : Port) (unit : List Byte) :
    issue p unit (withSched es s) = mapNext (withSched es) (issue p unit s) := by
  unfold issue
  cases decode unit with
  | ok i => exact exec_withSched es { s with port := p } i
  | error _ => cases unit <;> exact next_withSlot_withSched _ _ rfl

theorem take_withSched (p : Port) : take p (withSched es s) = mapNext (withSched es) (take p s) := by
  simp only [take, slotOf_withSched]
  split
  · exact next_withSlot_withSched (s := { s with out := _ }) _ _ rfl
  · rfl

theorem serveW_withSched (i : Nat) : serveW i (withSched es s) = mapNext (withSched es) (serveW i s) := by
  have hp : pendingWrite (withSched es s) i = pendingWrite s i := rfl
  simp only [serveW, hp]
  cases pendingWrite s i with
  | none => rfl
  | some w => exact ite_mapNext rfl rfl

theorem timeoutW_withSched (i : Nat) : timeoutW i (withSched es s) = mapNext (withSched es) (timeoutW i s) := by
  have hp : pendingWrite (withSched es s) i = pendingWrite s i := rfl
  simp only [timeoutW, hp]
  cases pendingWrite s i <;> rfl

theorem serveR_withSched (j : Nat) : serveR j (withSched es s) = mapNext (withSched es) (serveR j s) := by
  have hp : pendingRead (withSched es s) j = pendingRead s j := rfl
  have hv : ∀ cap, readVerdict (withSched es s) cap = readVerdict s cap := fun _ => rfl
  simp only [serveR, hp, hv]
  cases pendingRead s j with
  | none => rfl
  | some cap =>
    simp only
    cases readVerdict s cap.toNat <;> rfl

theorem timeoutR_withSched (j : Nat) : timeoutR j (withSched es s) = mapNext (withSched es) (timeoutR j s) := by
  have hp : pendingRead (withSched es s) j = pendingRead s j := rfl
  simp only [timeoutR, hp]
  cases pendingRead s j <;> rfl

/-- No step looks at the schedule or writes it. -/
theorem perform_withSched (e : Event) : perform e (withSched es s) = mapNext (withSched es) (perform e s) := by
  cases e with
  | issue p unit => exact issue_withSched es s p unit
  | take p => exact take_withSched es s p
  | serveW i => exact serveW_withSched es s i
  | timeoutW i => exact timeoutW_withSched es s i
  | serveR j => exact serveR_withSched es s j
  | timeoutR j => exact timeoutR_withSched es s j
  | syncR | syncW | reset => rfl

end Schedule

theorem runEvent_withSched (es : List Event) {s t : State} {e : Event} (h : runEvent e s = .next t) :
    runEvent e (withSched es s) = .next (withSched es t) :=
  runEvent_mapNext (enabled_withSched es s e) (perform_withSched es s e) h

theorem Effect.sched_eq {s t : State} {e : Event} (h : Effect s e t) : t.sched = s.sched := by
  cases h <;> simp

theorem stateAt_sched (σ : Nat → Event) (s : State) (n : Nat) : (stateAt σ s n).sched = s.sched := by
  induction n with
  | zero => rfl
  | succ n ih =>
    rcases effect_of_stateAt σ s n with e | ⟨-, heff⟩
    · rw [e, ih]
    · rw [heff.sched_eq, ih]

/-- In a run from a state that meets the invariant no step is lost (R126). -/
theorem BlockInv.runEvent_stateAt {s : State} (h : BlockInv s) (σ : Nat → Event) (n : Nat) :
    runEvent (σ n) (stateAt σ s n) = .next (stateAt σ s (n + 1)) := by
  obtain ⟨t, hrun⟩ := (blockInv_stateAt h σ n).runEvent_next (σ n)
  rw [stateAt_succ_of_next hrun, hrun]

/-- The last of `n + 1` steps. -/
theorem steps_succ_of_next {n : Nat} {s t : State} (h : steps n s = .next t) : steps (n + 1) s = step t := by
  induction n generalizing s with
  | zero =>
    cases h
    cases hs : step t <;> simp [steps, hs]
  | succ n ih =>
    rw [steps]
    cases hs : step s with
    | next u =>
      simp only [steps, hs] at h
      exact ih h
    | fault | refused => simp [steps, hs] at h

/-- With the first `n` steps of a run scheduled before `es`, `n` steps lead to the run's `n`-th state and leave `es`: one
more scheduled step stands first in what the steps before it leave. -/
theorem BlockInv.steps_withSched {s : State} (h : BlockInv s) (σ : Nat → Event) (n : Nat) (es : List Event) :
    steps n (withSched ((List.range n).map σ ++ es) s) = .next (withSched es (stateAt σ s n)) := by
  induction n generalizing es with
  | zero => rfl
  | succ n ih =>
    have hsched : (List.range (n + 1)).map σ ++ es = (List.range n).map σ ++ σ n :: es := by
      simp [List.range_succ]
    rw [hsched, steps_succ_of_next (ih _), step_of_sched (e := σ n) (es := es) rfl]
    exact runEvent_withSched es (s := stateAt σ s n) (h.runEvent_stateAt σ n)

/-- Settles O56: `steps_withSched`, and no step of the run itself touches the schedule. -/
theorem runsAreRunsOfStep : Obligations.RunsAreRunsOfStep := by
  intro σ s n h
  rw [scheduleFirst, ← withSched, h.steps_withSched, withSched, ← stateAt_sched σ s n]

end Machine
end Sys2Proof

/-! ## Reset and hazards: reset clears the block, and no read depends on an unspecified byte (R43, R127, R140) -/

namespace Sys2Proof
namespace Machine

/-! ### Reset (R127) -/

/-- Settles O13: reset is enabled everywhere and leads to the build's reset state but for the model's own fields. -/
theorem resetClearsEverySlotAndCursor : Obligations.ResetClearsEverySlotAndCursor := by
  intro s
  refine ⟨_, runEvent_enabled rfl, rfl, rfl, rfl, rfl, rfl, rfl, rfl, fun p sl h => ?_, rfl, fun n => ?_, fun n => ?_,
    fun _ => rfl, rfl, rfl⟩
  · exact slotOf_resetWith ((slotOf_congr rfl rfl rfl p).symm.trans h)
  · simp [slotOf]
  · simp [slotOf]

/-! ### Offsets between the cursors, and the write commits that stored them (R43, R140) -/

/-- The storage offsets of the `n` bytes from `a` forward in a ring of capacity `c` (R44). -/
def runOffsets (c a n : Nat) : List Nat := (List.range n).map fun k => (a + k) % c

theorem runOffsets_add (c a m n : Nat) : runOffsets c a (m + n) = runOffsets c a m ++ runOffsets c (a + m) n := by
  simp [runOffsets, List.range_add, Function.comp_def, Nat.add_assoc]

theorem runOffsets_mod (c a n : Nat) : runOffsets c (a % c) n = runOffsets c a n := by
  simp [runOffsets]

theorem mem_runOffsets {c a n k : Nat} (hk : k < n) : (a + k) % c ∈ runOffsets c a n :=
  List.mem_map_of_mem (List.mem_range.2 hk)

/-- The storage offsets between the cursors, from `RP` forward (R28, R34). -/
def occupiedOffsets (s : State) : List Nat := runOffsets s.cap s.rp (readableSpace s)

theorem occupiedOffsets_congr {s t : State} (hc : t.cap = s.cap) (hrp : t.rp = s.rp) (hwp : t.wp = s.wp) :
    occupiedOffsets t = occupiedOffsets s := by
  simp only [occupiedOffsets, readableSpace, hc, hrp, hwp]

theorem occupiedOffsets_of_empty {s : State} (he : s.rp = s.wp) : occupiedOffsets s = [] := by
  simp [occupiedOffsets, readableSpace, he, runOffsets]

/-- What the read side may read lies between the cursors (R29, R33). -/
theorem ReadyInv.mem_occupiedOffsets {s : State} (h : ReadyInv s) {k : Nat} (hk : k < ringDist s.cap s.rp s.wpVis) :
    (s.rp + k) % s.cap ∈ occupiedOffsets s := by
  have hview := h.readView
  exact mem_runOffsets (Nat.lt_of_lt_of_le hk (Nat.le.intro hview))

theorem storedAt_serveW {s : State} {n : Nat} {op : BitVec 4} {payload : List Byte}
    (hp : pendingWrite s n = some (op, payload)) (hen : enabled (.serveW n) s = true) :
    storedAt (.serveW n) s = runOffsets s.cap s.wp (8 + payload.length) := by
  simp [storedAt, written_serveW hp hen, runOffsets]

/-! A step moves the occupied offsets as it moves the queue (R53): new ones come at the end, old ones leave at the
front. -/

/-- A write commit appends its frame's offsets to the occupied ones (R88). -/
theorem BlockInv.occupiedOffsets_serveW {s t : State} (h : BlockInv s) {n : Nat}
    (hen : enabled (.serveW n) s = true) (hrun : runEvent (.serveW n) s = .next t) :
    occupiedOffsets t = occupiedOffsets s ++ storedAt (.serveW n) s := by
  obtain ⟨op, payload, hp⟩ := pendingWrite_of_enabled (n := n) (by simp [answers]) hen
  obtain ⟨hm, hfit⟩ := (enabled_serveW_iff hp).1 hen
  have hr := h.ready hm
  cases (runEvent_serveW hp hen hr.capHigh).symm.trans hrun
  have hwp : (s.rp + readableSpace s) % s.cap = s.wp := add_ringDist_mod hr.rpRange hr.wpRange
  rw [storedAt_serveW hp hen, occupiedOffsets, hr.readableSpace_writeCommit (h.pendingWrite_ok hp).2 hfit,
    occupiedOffsets, ← hwp, runOffsets_mod, ← runOffsets_add]
  simp [commitWrite]

/-- A read commit frees the head frame's offsets, the first of the occupied ones (R97). -/
theorem BlockInv.occupiedOffsets_serveR {s t : State} (h : BlockInv s) {n : Nat}
    (hen : enabled (.serveR n) s = true) (hrun : runEvent (.serveR n) s = .next t) :
    occupiedOffsets t <:+ occupiedOffsets s := by
  obtain ⟨cap, hp⟩ := pendingRead_of_enabled (n := n) (by simp [answers]) hen
  obtain ⟨⟨hm, hhead⟩, ⟨-, ht⟩ | ⟨-, rfl⟩⟩ := runEvent_serveR_cases h.capInStorage hp hen hrun
  · have hspace : readableSpace s = readableSpace t + (8 + lHead s) :=
      ht ▸ (h.ready hm).readableSpace_readCommit hhead ..
    have hrest : occupiedOffsets t = runOffsets s.cap (s.rp + (8 + lHead s)) (readableSpace t) := by
      rw [occupiedOffsets, ← runOffsets_mod _ (_ + _), ← Nat.add_assoc]
      simp [ht]
    exact ⟨runOffsets s.cap s.rp (8 + lHead s),
      by rw [hrest, ← runOffsets_add, Nat.add_comm, ← hspace, occupiedOffsets]⟩
  · rw [occupiedOffsets_congr] <;> simp

/-- In a `READY` ring no step but a commit moves a cursor, unless it resets or destroys. -/
theorem occupiedOffsets_of_quiet {s t : State} {e : Event} (hm : s.mode = .ready) (hk : keepsBuffer e)
    (hrun : runEvent e s = .next t) (hserveW : ∀ n, e ≠ .serveW n) (hserveR : ∀ n, e ≠ .serveR n) :
    occupiedOffsets t = occupiedOffsets s := by
  rcases effect_of_runEvent hrun with rfl | ⟨-, heff⟩
  · rfl
  · cases heff with
    | started unit cap free decoded =>
      rw [← Host.Outcome.next.inj ((runEvent_init_of_ready hm free decoded).symm.trans hrun)]
      exact occupiedOffsets_congr (by simp) (by simp) (by simp)
    | ended unit _ decoded => exact absurd decoded (hk.2 _ unit rfl)
    | reset => exact absurd rfl hk.1
    | writeCommit n => exact absurd rfl (hserveW n)
    | readCommit n | undersized n => exact absurd rfl (hserveR n)
    | issued | taken | full | empty | syncR | syncW => exact occupiedOffsets_congr (by simp) (by simp) (by simp)

/-- After a step the occupied offsets are what is left, at the end, of those before it and those it stores at. -/
theorem BlockInv.occupiedOffsets_step {s t : State} {e : Event} (h : BlockInv s) (hm : s.mode = .ready)
    (hk : keepsBuffer e) (hrun : runEvent e s = .next t) :
    occupiedOffsets t <:+ occupiedOffsets s ++ storedAt e s := by
  cases hen : enabled e s with
  | false =>
    cases (runEvent_disabled hen).symm.trans hrun
    simp [storedAt, hen]
  | true =>
    cases e with
    | serveW n => exact h.occupiedOffsets_serveW hen hrun ▸ List.suffix_rfl
    | serveR n => simpa [storedAt, written] using h.occupiedOffsets_serveR hen hrun
    | issue | take | timeoutW | timeoutR | syncR | syncW | reset =>
      simp [occupiedOffsets_of_quiet hm hk hrun nofun nofun, storedAt, written]

/-- The law of `occupiedOffsets_step` over a run. -/
theorem BlockInv.occupiedOffsets_run (es : List Event) : ∀ {s : State}, BlockInv s → s.mode = .ready →
    (∀ e ∈ es, keepsBuffer e) → ∃ t, runEvents es s = .next t ∧ t.mode = .ready ∧
      occupiedOffsets t <:+ occupiedOffsets s ++ storedBy es s := by
  induction es with
  | nil => exact fun {s} _ hm _ => ⟨s, rfl, hm, by simp [storedBy, collect]⟩
  | cons e es ih =>
    intro s h hm hk
    obtain ⟨hke, hkes⟩ := List.forall_mem_cons.1 hk
    obtain ⟨u, hrun⟩ := h.runEvent_next e
    obtain ⟨t, hruns, hmt, hrest⟩ := ih (blockInv_runEvent h hrun) (mode_of_keepsBuffer hm hke hrun) hkes
    refine ⟨t, (runEvents_cons hrun).trans hruns, hmt, ?_⟩
    calc occupiedOffsets t
      _ <:+ occupiedOffsets u ++ storedBy es u := hrest
      _ <:+ (occupiedOffsets s ++ storedAt e s) ++ storedBy es u :=
        List.suffix_append_self_iff.2 (h.occupiedOffsets_step hm hke hrun)
      _ = occupiedOffsets s ++ storedBy (e :: es) s := by simp [storedBy, collect_cons _ hrun]

/-- Settles O39: the bytes between the cursors are written ones by the invariant, and stored by the run itself where it
starts with none between them. -/
theorem readableBytesHaveBeenWritten : Obligations.ReadableBytesHaveBeenWritten := by
  refine ⟨fun s h hm k hk => ?_, fun es s h hm he hk => ?_⟩
  · have hr := h.ready hm
    have hview := hr.readView
    exact Option.isSome_iff_exists.1 (hr.written k (by omega))
  · obtain ⟨t, hruns, hmt, hsuffix⟩ := h.occupiedOffsets_run es hm hk
    rw [occupiedOffsets_of_empty he, List.nil_append] at hsuffix
    exact ⟨t, hruns, fun k hkt =>
      hsuffix.subset (((blockInv_runEvents h hruns).ready hmt).mem_occupiedOffsets hkt)⟩

end Machine
end Sys2Proof

/-! ## Units of the test vectors, units too short for a command word, and the reset state (R43, R69, R76) -/

namespace Sys2Proof

/-! ### The test vectors (R69 to R72) -/

theorem decode_of_encode_eq {i : Instr} {unit : List Byte} (h : i.wellFormed = true) (hu : encode i = unit) :
    decode unit = .ok i :=
  hu ▸ decode_encode h

/-- Settles O4: each unit is the encoding of the well-formed request it is given for, so it decodes to it. -/
theorem unitsOfTheTestVectorsDecode : Obligations.UnitsOfTheTestVectorsDecode :=
  ⟨decode_of_encode_eq rfl rfl, decode_of_encode_eq rfl rfl, decode_of_encode_eq rfl rfl,
    decode_of_encode_eq rfl rfl, decode_of_encode_eq rfl rfl, decode_of_encode_eq rfl rfl⟩

/-! ### Short units (R76, condition 5; log entry 5) -/

theorem decode_of_short {unit : List Byte} (h : unit.length < 4) : decode unit = .error .noCommandWord :=
  if_pos h

namespace Machine

/-- What the answer to a rejected unit echoes is the low four bits of its first byte (R70, R111). -/
theorem receivedOp_cons_toNat (s : State) (b : Byte) (rest : List Byte) :
    (receivedOp s (b :: rest)).toNat = b.toNat % 2 ^ 4 := by
  simp [receivedOp]

/-- Settles O6: a short unit is rejected by the decoder, so its `ISSUE` is `answerRejected`, with the frame of every
`BADCMD`. -/
theorem shortUnitsAreBadCommands : Obligations.ShortUnitsAreBadCommands := by
  intro s p unit hf hlen
  have hd := decode_of_short hlen
  obtain ⟨hans, hblock⟩ := badCmd_frame hf (s.draws + 1) (receivedOp { s with port := p } unit)
  refine ⟨hd, _, _, (runEvent_issue hf unit).trans (issue_of_rejected s hd), hans, ?_, hblock, by simp, by simp⟩
  rintro b rest rfl
  exact receivedOp_cons_toNat _ b rest

/-! ### Reset (R43) -/

/-- Settles O46, by `blockInv_resetWith`. -/
theorem resetMeetsTheInvariant : Obligations.ResetMeetsTheInvariant := fun _ => blockInv_resetWith

end Machine
end Sys2Proof
